-- ==== Sys2Proof/Word.lean ====
section
/-! DEFINITION. The machine's word and byte, the wrap of an integer to a word (00_scope.md R16), and the fixed
addresses of 00_scope.md R23. -/

namespace Sys2Proof

/-- R16: a word is a 64-bit bit pattern; it holds register contents, immediates and addresses (R3). -/
abbrev Word := BitVec 64

/-- One byte of data or instruction memory, or of a stream. -/
abbrev Byte := BitVec 8

/-- R16: `wrap(z)`, the word whose unsigned value is `z mod 2^64`. -/
def wrap (z : Int) : Word := BitVec.ofInt 64 z

/-- R16: `ALL_ONES`. -/
def allOnes : Word := 0xFFFFFFFFFFFFFFFF#64

/-- R23: `STACK_BASE`, the reset value of `z` (R33). -/
def stackBase : Word := 0x1000000000000000#64

/-- R23: `DATA_BASE`, where the data section is placed at load (R452). -/
def dataBase : Nat := 0x2000000000000000

/-- R23: `IO_ADDR`, the I/O cell (R79). -/
def ioAddr : Word := 0xFFFFFFFFFFFFFFFF#64

end Sys2Proof
end

