-- ==== Sys2Proof/Syntax.lean ====
section
/-! DEFINITION. The syntax of instructions (30_encoding.md): registers, operands, mnemonics, and `Instr` with one
constructor for each of the 36 rows of opcode_table.json. -/

namespace Sys2Proof

/-- R30: a register index, `a` = 0 .. `z` = 25. -/
abbrev Reg := Fin 26

/-- R31: `z`, the one register `call` does not save and `ret` never restores. -/
def regZ : Reg := 25

/-- R113: the five immediate widths, named by their bytes. -/
inductive ImmWidth where
  | w0 | w1 | w2 | w4 | w8
  deriving DecidableEq, Repr

/-- R113: `w(c)`, the bytes an immediate takes in the instruction. -/
def ImmWidth.bytes : ImmWidth → Nat
  | .w0 => 0
  | .w1 => 1
  | .w2 => 2
  | .w4 => 4
  | .w8 => 8

/-- R113: an operand slot's content: a register, or an immediate of a width with its 64-bit value (already
sign-extended for the widths that are). -/
inductive Operand where
  | imm (w : ImmWidth) (v : Word)
  | reg (r : Reg)
  deriving DecidableEq, Repr

/-- R113, R115: the immediate bytes a slot adds to the instruction. -/
def Operand.width : Operand → Nat
  | .imm w _ => w.bytes
  | .reg _ => 0

/-- R8, R122: the 35 mnemonics of format STD, in the source's order. -/
inductive StdOp where
  | add | sub | or | xor | and | not
  | mul | mulu | div | divu
  | cmp | neq | le | leq | leu | lequ
  | shl | shr | sar
  | lb | lbu | ls | lsu | li | liu | lw
  | sb | ss | si | sw
  | call | jz | jnz | halt | rand
  deriving DecidableEq, Repr

/-- R122: the 36 instructions' names. -/
inductive Mnemonic where
  | std (op : StdOp)
  | ret
  deriving DecidableEq, Repr

/-- The instructions, one constructor per row of opcode_table.json, with the operand shapes of R117. Slots named
`u<k>` are the unused ones: their content counts in the length (R115) and is ignored (R120). -/
inductive Instr where
  /-- R200: sum. -/
  | add (r : Reg) (a b u3 u4 : Operand)
  /-- R201: difference. -/
  | sub (r : Reg) (a b u3 u4 : Operand)
  /-- R202: inclusive or. -/
  | or (r : Reg) (a b u3 u4 : Operand)
  /-- R203: exclusive or. -/
  | xor (r : Reg) (a b u3 u4 : Operand)
  /-- R204: bitwise and. -/
  | and (r : Reg) (a b u3 u4 : Operand)
  /-- R205: complement. -/
  | not (r : Reg) (a u2 u3 u4 : Operand)
  /-- R220: signed full product, low then high. -/
  | mul (r q : Reg) (a b u4 : Operand)
  /-- R221: unsigned full product, low then high. -/
  | mulu (r q : Reg) (a b u4 : Operand)
  /-- R222: signed floor division, quotient then remainder. -/
  | div (r q : Reg) (a b u4 : Operand)
  /-- R223: unsigned division, quotient then remainder. -/
  | divu (r q : Reg) (a b u4 : Operand)
  /-- R240: equality. -/
  | cmp (r : Reg) (a b u3 u4 : Operand)
  /-- R241: inequality. -/
  | neq (r : Reg) (a b u3 u4 : Operand)
  /-- R242: signed less-than. -/
  | le (r : Reg) (a b u3 u4 : Operand)
  /-- R243: signed less-or-equal. -/
  | leq (r : Reg) (a b u3 u4 : Operand)
  /-- R244: unsigned less-than. -/
  | leu (r : Reg) (a b u3 u4 : Operand)
  /-- R245: unsigned less-or-equal. -/
  | lequ (r : Reg) (a b u3 u4 : Operand)
  /-- R260: logical left shift (also `sal`). -/
  | shl (r : Reg) (a b u3 u4 : Operand)
  /-- R261: logical right shift. -/
  | shr (r : Reg) (a b u3 u4 : Operand)
  /-- R262: arithmetic right shift. -/
  | sar (r : Reg) (a b u3 u4 : Operand)
  /-- R282: load byte, sign-extended. -/
  | lb (r : Reg) (a u2 u3 u4 : Operand)
  /-- R283: load byte, zero-extended. -/
  | lbu (r : Reg) (a u2 u3 u4 : Operand)
  /-- R284: load 2 bytes, sign-extended. -/
  | ls (r : Reg) (a u2 u3 u4 : Operand)
  /-- R285: load 2 bytes, zero-extended. -/
  | lsu (r : Reg) (a u2 u3 u4 : Operand)
  /-- R286: load 4 bytes, sign-extended. -/
  | li (r : Reg) (a u2 u3 u4 : Operand)
  /-- R287: load 4 bytes, zero-extended. -/
  | liu (r : Reg) (a u2 u3 u4 : Operand)
  /-- R288: load 8 bytes, or read input at the I/O cell. -/
  | lw (r : Reg) (a u2 u3 u4 : Operand)
  /-- R289: store the low byte. -/
  | sb (a b u2 u3 u4 : Operand)
  /-- R290: store the low 2 bytes. -/
  | ss (a b u2 u3 u4 : Operand)
  /-- R291: store the low 4 bytes. -/
  | si (a b u2 u3 u4 : Operand)
  /-- R292: store 8 bytes, or write output at the I/O cell. -/
  | sw (a b u2 u3 u4 : Operand)
  /-- R320: push a frame and jump to `a`. -/
  | call (a u1 u2 u3 u4 : Operand)
  /-- R323: jump to `a` if `b` is zero. -/
  | jz (a b u2 u3 u4 : Operand)
  /-- R324: jump to `a` if `b` is not zero. -/
  | jnz (a b u2 u3 u4 : Operand)
  /-- R325: stop with code `a`. -/
  | halt (a u1 u2 u3 u4 : Operand)
  /-- R326: write an implementation-supplied word. -/
  | rand (r : Reg) (u1 u2 u3 u4 : Operand)
  /-- R322: pop a frame, restore the registers the mask selects, and return. -/
  | ret (mask : BitVec 25)
  deriving DecidableEq, Repr

/-- The mnemonic of an instruction. -/
def Instr.mnemonic : Instr → Mnemonic
  | .add .. => .std .add
  | .sub .. => .std .sub
  | .or .. => .std .or
  | .xor .. => .std .xor
  | .and .. => .std .and
  | .not .. => .std .not
  | .mul .. => .std .mul
  | .mulu .. => .std .mulu
  | .div .. => .std .div
  | .divu .. => .std .divu
  | .cmp .. => .std .cmp
  | .neq .. => .std .neq
  | .le .. => .std .le
  | .leq .. => .std .leq
  | .leu .. => .std .leu
  | .lequ .. => .std .lequ
  | .shl .. => .std .shl
  | .shr .. => .std .shr
  | .sar .. => .std .sar
  | .lb .. => .std .lb
  | .lbu .. => .std .lbu
  | .ls .. => .std .ls
  | .lsu .. => .std .lsu
  | .li .. => .std .li
  | .liu .. => .std .liu
  | .lw .. => .std .lw
  | .sb .. => .std .sb
  | .ss .. => .std .ss
  | .si .. => .std .si
  | .sw .. => .std .sw
  | .call .. => .std .call
  | .jz .. => .std .jz
  | .jnz .. => .std .jnz
  | .halt .. => .std .halt
  | .rand .. => .std .rand
  | .ret _ => .ret

/-- R117: the five operand slots, slot 0 first; `ret` has none. -/
def Instr.slots : Instr → List Operand
  | .add r a b u3 u4 => [.reg r, a, b, u3, u4]
  | .sub r a b u3 u4 => [.reg r, a, b, u3, u4]
  | .or r a b u3 u4 => [.reg r, a, b, u3, u4]
  | .xor r a b u3 u4 => [.reg r, a, b, u3, u4]
  | .and r a b u3 u4 => [.reg r, a, b, u3, u4]
  | .not r a u2 u3 u4 => [.reg r, a, u2, u3, u4]
  | .mul r q a b u4 => [.reg r, .reg q, a, b, u4]
  | .mulu r q a b u4 => [.reg r, .reg q, a, b, u4]
  | .div r q a b u4 => [.reg r, .reg q, a, b, u4]
  | .divu r q a b u4 => [.reg r, .reg q, a, b, u4]
  | .cmp r a b u3 u4 => [.reg r, a, b, u3, u4]
  | .neq r a b u3 u4 => [.reg r, a, b, u3, u4]
  | .le r a b u3 u4 => [.reg r, a, b, u3, u4]
  | .leq r a b u3 u4 => [.reg r, a, b, u3, u4]
  | .leu r a b u3 u4 => [.reg r, a, b, u3, u4]
  | .lequ r a b u3 u4 => [.reg r, a, b, u3, u4]
  | .shl r a b u3 u4 => [.reg r, a, b, u3, u4]
  | .shr r a b u3 u4 => [.reg r, a, b, u3, u4]
  | .sar r a b u3 u4 => [.reg r, a, b, u3, u4]
  | .lb r a u2 u3 u4 => [.reg r, a, u2, u3, u4]
  | .lbu r a u2 u3 u4 => [.reg r, a, u2, u3, u4]
  | .ls r a u2 u3 u4 => [.reg r, a, u2, u3, u4]
  | .lsu r a u2 u3 u4 => [.reg r, a, u2, u3, u4]
  | .li r a u2 u3 u4 => [.reg r, a, u2, u3, u4]
  | .liu r a u2 u3 u4 => [.reg r, a, u2, u3, u4]
  | .lw r a u2 u3 u4 => [.reg r, a, u2, u3, u4]
  | .sb a b u2 u3 u4 => [a, b, u2, u3, u4]
  | .ss a b u2 u3 u4 => [a, b, u2, u3, u4]
  | .si a b u2 u3 u4 => [a, b, u2, u3, u4]
  | .sw a b u2 u3 u4 => [a, b, u2, u3, u4]
  | .call a u1 u2 u3 u4 => [a, u1, u2, u3, u4]
  | .jz a b u2 u3 u4 => [a, b, u2, u3, u4]
  | .jnz a b u2 u3 u4 => [a, b, u2, u3, u4]
  | .halt a u1 u2 u3 u4 => [a, u1, u2, u3, u4]
  | .rand r u1 u2 u3 u4 => [.reg r, u1, u2, u3, u4]
  | .ret _ => []

/-- R115: the length of an instruction with the given slots. -/
def slotsLength (slots : List Operand) : Nat := 4 + (slots.map Operand.width).sum

/-- R115: the byte length of an instruction. -/
def Instr.length (i : Instr) : Nat := slotsLength i.slots

end Sys2Proof
end

