-- ==== Sys2Proof/Config.lean ====
section
/-! DEFINITION. The open parameters of the spec (00_scope.md R8 .. R13). Each constant has no body: nothing can evaluate
it, so a claim holds whatever it is. There is one of each for all launches: that two launches agree on P_INIT_MEM, P_INPUT
and P_RAND is a DESIGN CHOICE (log entry 17). -/

namespace Sys2Proof

/-- A block of data-memory byte addresses `base .. base + size - 1`. -/
structure Region where
  base : Nat
  size : Nat
  deriving DecidableEq, Repr

/-- R8, R121: P_OPCODE_ID, the ids 0x00 .. 0x22 given to the 35 mnemonics (by their index in the source's order). An
injective map onto 35 ids is a permutation, so nothing but injectivity is known of it. -/
opaque Config.opcodeIds : Equiv.Perm (Fin 35)

/-- R10, R463: P_CYCLE_COST of every instruction but `halt`, whose cost R454 fixes (`cycleCost` of Machine/Commit.lean). -/
opaque Config.cycleCost : Mnemonic → Nat

/-- R9: P_PROVISIONED, the blocks of addresses the host of the reset state provisions. -/
opaque Config.provisioned : List Region

/-- R11: P_INIT_MEM, the load-time content of the byte at an address outside the data section. -/
opaque Config.initMem : Nat → Byte

/-- R12: P_INPUT(k), the host's answer to the k-th load from the I/O cell: a byte, or none for end-of-stream. -/
opaque Config.input : Nat → Option Byte

/-- R13: P_RAND, the word written by the k-th execution of `rand`. -/
opaque Config.rand : Nat → Word

end Sys2Proof
end

