-- ==== Sys2Proof/WellFormed.lean ====
section
/-! DEFINITION. Well-formed instructions: every immediate fits the width it is written with (30_encoding.md R113, R146).
A register index is within range by its type. -/

namespace Sys2Proof

/-- R113, R146: whether a 64-bit value is one that an immediate of this width can stand for: zero for code 0, the signed
ranges of 1, 2 and 4 bytes for codes 1 .. 3, every word for code 4. -/
def ImmWidth.fits (w : ImmWidth) (v : Word) : Bool :=
  match w with
  | .w0 => v == 0
  | .w1 => decide (-2 ^ 7 ≤ v.toInt ∧ v.toInt < 2 ^ 7)
  | .w2 => decide (-2 ^ 15 ≤ v.toInt ∧ v.toInt < 2 ^ 15)
  | .w4 => decide (-2 ^ 31 ≤ v.toInt ∧ v.toInt < 2 ^ 31)
  | .w8 => true

/-- R113: an operand an encoding can hold. -/
def Operand.wf : Operand → Bool
  | .imm w v => w.fits v
  | .reg _ => true

/-- An instruction an encoding can hold: each of its slots is. -/
def Instr.wf (i : Instr) : Bool := i.slots.all Operand.wf

end Sys2Proof
end

