-- ==== Sys2Proof/Decode.lean ====
section
/-! DEFINITION. The decoder (30_encoding.md R110 .. R116, R130) and, after it, the encoder; the sign extension and
byte-order helpers they share with the machine. The opcode map is an argument (R8): `decodeWith` and `encodeWith` take
it, `decode` and `encode` use the open `Config.opcodeIds`. -/

namespace Sys2Proof

/-! ## Bit fields, extension and byte order -/

/-- R16: `sext_N(v)`. -/
def sext (n : Nat) (v : Word) : Word := (v.setWidth n).signExtend 64

/-- R16: `zext_N(v)`. -/
def zext (n : Nat) (v : Word) : Word := (v.setWidth n).setWidth 64

/-- The number whose little-endian bytes are given, the lowest first (R72, R110, R114). -/
def leNat : List Byte → Nat
  | [] => 0
  | b :: bs => b.toNat + 256 * leNat bs

/-- The low `n` little-endian bytes of a number, the lowest first. -/
def leBytes : Nat → Nat → List Byte
  | 0, _ => []
  | n + 1, v => BitVec.ofNat 8 v :: leBytes n (v / 256)

/-- The first `n` bytes and the rest, or none where there are fewer. -/
def splitBytes : Nat → List Byte → Option (List Byte × List Byte)
  | 0, bs => some ([], bs)
  | _ + 1, [] => none
  | n + 1, b :: bs =>
    match splitBytes n bs with
    | some (front, rest) => some (b :: front, rest)
    | none => none

/-- R111: `opcode = H[6:0]`. -/
def opcodeField (h : BitVec 32) : BitVec 7 := h.extractLsb' 0 7

/-- R111: `c_k = H[11+5k : 7+5k]`. -/
def kindField (h : BitVec 32) (k : Nat) : BitVec 5 := h.extractLsb' (7 + 5 * k) 5

/-- R112: `mask = H[31:7]`. -/
def maskField (h : BitVec 32) : BitVec 25 := h.extractLsb' 7 25

/-- R112: the opcode id of `ret`. -/
def retId : BitVec 7 := 0x7f#7

/-! ## The opcode map -/

/-- R122: the mnemonics of format STD in the source's order. -/
def stdOps : List StdOp :=
  [.add, .sub, .or, .xor, .and, .not]
  ++ [.mul, .mulu, .div, .divu]
  ++ [.cmp, .neq, .le, .leq, .leu, .lequ]
  ++ [.shl, .shr, .sar]
  ++ [.lb, .lbu, .ls, .lsu, .li, .liu, .lw]
  ++ [.sb, .ss, .si, .sw]
  ++ [.call, .jz, .jnz, .halt, .rand]

/-- The mnemonic of an index of `stdOps`. -/
def StdOp.ofIndex (i : Fin 35) : StdOp := stdOps.getD i.val .add

/-- The index of a mnemonic in `stdOps`. -/
def StdOp.index (op : StdOp) : Fin 35 := Fin.ofNat 35 (stdOps.idxOf op)

/-- R8, R121: `OPC(m)` under an opcode map. -/
def opcodeIdWith (ids : Equiv.Perm (Fin 35)) (op : StdOp) : Nat := (ids op.index).val

/-- R130: the mnemonic of an opcode id under an opcode map; none for the ids 0x23 .. 0x7f. -/
def stdOpWith (ids : Equiv.Perm (Fin 35)) (opc : BitVec 7) : Option StdOp :=
  if h : opc.toNat < 35 then some (StdOp.ofIndex (ids.symm ⟨opc.toNat, h⟩)) else none

/-- The opcode map the machine decodes with: the open P_OPCODE_ID. -/
def machineIds : Equiv.Perm (Fin 35) := Config.opcodeIds

/-- `OPC(m)` of the machine. -/
def opcodeId (op : StdOp) : Nat := opcodeIdWith machineIds op

/-! ## The decoder -/

/-- R113: what a kind code stands for. -/
inductive Kind where
  | imm (w : ImmWidth)
  | reg (r : Reg)
  deriving DecidableEq, Repr

/-- Why bytes are no instruction: two reasons are the fault OutOfBoundsExecution, three are refusals (R130). -/
inductive DecodeError where
  /-- Fewer than four bytes are left for the header. -/
  | shortHeader
  /-- No mnemonic has this opcode id. -/
  | undefinedOpcode (opc : BitVec 7)
  /-- This slot holds kind code 31. -/
  | undefinedKindCode (slot : Nat)
  /-- An immediate byte lies past the last byte. -/
  | shortImmediates
  /-- This destination slot holds an immediate code. -/
  | immediateDestination (slot : Nat)
  deriving DecidableEq, Repr

/-- R113: kind codes 0 .. 30; none for 31. -/
def Kind.ofCode (c : BitVec 5) : Option Kind :=
  if c.toNat = 0 then some (.imm .w0)
  else if c.toNat = 1 then some (.imm .w1)
  else if c.toNat = 2 then some (.imm .w2)
  else if c.toNat = 3 then some (.imm .w4)
  else if c.toNat = 4 then some (.imm .w8)
  else if h : c.toNat - 5 < 26 then some (.reg ⟨c.toNat - 5, h⟩)
  else none

/-- R113: the value of an immediate from its bytes read as a number. -/
def ImmWidth.extend (w : ImmWidth) (n : Nat) : Word :=
  match w with
  | .w0 => 0
  | .w1 => sext 8 (BitVec.ofNat 64 n)
  | .w2 => sext 16 (BitVec.ofNat 64 n)
  | .w4 => sext 32 (BitVec.ofNat 64 n)
  | .w8 => BitVec.ofNat 64 n

/-- R130: the kinds of the slots listed, or the first slot with code 31. DESIGN CHOICE (log entry 16): of several such slots
the refusal names the lowest. -/
def readKinds (h : BitVec 32) : List Nat → Except DecodeError (List Kind)
  | [] => .ok []
  | k :: ks =>
    match Kind.ofCode (kindField h k) with
    | none => .error (.undefinedKindCode k)
    | some kind =>
      match readKinds h ks with
      | .ok kinds => .ok (kind :: kinds)
      | .error e => .error e

/-- R114: one slot's operand and the bytes after its immediate; none where the bytes run out. -/
def readOperand (kind : Kind) (bytes : List Byte) : Option (Operand × List Byte) :=
  match kind with
  | .reg r => some (.reg r, bytes)
  | .imm w =>
    match splitBytes w.bytes bytes with
    | some (front, rest) => some (.imm w (w.extend (leNat front)), rest)
    | none => none

/-- R114: the operands of the slots, their immediates in slot order; none where the bytes run out. -/
def readOperands : List Kind → List Byte → Option (List Operand)
  | [], _ => some []
  | kind :: kinds, bytes =>
    match readOperand kind bytes with
    | none => none
    | some (o, rest) =>
      match readOperands kinds rest with
      | some os => some (o :: os)
      | none => none

/-- R119: the register of a destination slot; an immediate there is refused. -/
def withDest (slot : Nat) (o : Operand) (f : Reg → Except DecodeError Instr) : Except DecodeError Instr :=
  match o with
  | .reg r => f r
  | .imm _ _ => .error (.immediateDestination slot)

/-- R117: the instruction of a mnemonic with the operands of its five slots. DESIGN CHOICE (log entry 16): where both
destination slots of `mul`, `mulu`, `div` or `divu` hold immediates, the refusal names slot 0, the lower; R130 and R407 do
not say which. -/
def buildInstr (op : StdOp) (o0 o1 o2 o3 o4 : Operand) : Except DecodeError Instr :=
  match op with
  | .add => withDest 0 o0 fun r => .ok (.add r o1 o2 o3 o4)
  | .sub => withDest 0 o0 fun r => .ok (.sub r o1 o2 o3 o4)
  | .or => withDest 0 o0 fun r => .ok (.or r o1 o2 o3 o4)
  | .xor => withDest 0 o0 fun r => .ok (.xor r o1 o2 o3 o4)
  | .and => withDest 0 o0 fun r => .ok (.and r o1 o2 o3 o4)
  | .not => withDest 0 o0 fun r => .ok (.not r o1 o2 o3 o4)
  | .mul => withDest 0 o0 fun r => withDest 1 o1 fun q => .ok (.mul r q o2 o3 o4)
  | .mulu => withDest 0 o0 fun r => withDest 1 o1 fun q => .ok (.mulu r q o2 o3 o4)
  | .div => withDest 0 o0 fun r => withDest 1 o1 fun q => .ok (.div r q o2 o3 o4)
  | .divu => withDest 0 o0 fun r => withDest 1 o1 fun q => .ok (.divu r q o2 o3 o4)
  | .cmp => withDest 0 o0 fun r => .ok (.cmp r o1 o2 o3 o4)
  | .neq => withDest 0 o0 fun r => .ok (.neq r o1 o2 o3 o4)
  | .le => withDest 0 o0 fun r => .ok (.le r o1 o2 o3 o4)
  | .leq => withDest 0 o0 fun r => .ok (.leq r o1 o2 o3 o4)
  | .leu => withDest 0 o0 fun r => .ok (.leu r o1 o2 o3 o4)
  | .lequ => withDest 0 o0 fun r => .ok (.lequ r o1 o2 o3 o4)
  | .shl => withDest 0 o0 fun r => .ok (.shl r o1 o2 o3 o4)
  | .shr => withDest 0 o0 fun r => .ok (.shr r o1 o2 o3 o4)
  | .sar => withDest 0 o0 fun r => .ok (.sar r o1 o2 o3 o4)
  | .lb => withDest 0 o0 fun r => .ok (.lb r o1 o2 o3 o4)
  | .lbu => withDest 0 o0 fun r => .ok (.lbu r o1 o2 o3 o4)
  | .ls => withDest 0 o0 fun r => .ok (.ls r o1 o2 o3 o4)
  | .lsu => withDest 0 o0 fun r => .ok (.lsu r o1 o2 o3 o4)
  | .li => withDest 0 o0 fun r => .ok (.li r o1 o2 o3 o4)
  | .liu => withDest 0 o0 fun r => .ok (.liu r o1 o2 o3 o4)
  | .lw => withDest 0 o0 fun r => .ok (.lw r o1 o2 o3 o4)
  | .sb => .ok (.sb o0 o1 o2 o3 o4)
  | .ss => .ok (.ss o0 o1 o2 o3 o4)
  | .si => .ok (.si o0 o1 o2 o3 o4)
  | .sw => .ok (.sw o0 o1 o2 o3 o4)
  | .call => .ok (.call o0 o1 o2 o3 o4)
  | .jz => .ok (.jz o0 o1 o2 o3 o4)
  | .jnz => .ok (.jnz o0 o1 o2 o3 o4)
  | .halt => .ok (.halt o0 o1 o2 o3 o4)
  | .rand => withDest 0 o0 fun r => .ok (.rand r o1 o2 o3 o4)

/-- R117: `buildInstr` on a list of five operands; a decoder never makes another list. -/
def buildFrom (op : StdOp) (os : List Operand) : Except DecodeError Instr :=
  match os with
  | [o0, o1, o2, o3, o4] => buildInstr op o0 o1 o2 o3 o4
  | _ => .error .shortImmediates

/-- R130: the instruction at the start of a list of bytes, the checks in the order of R407. -/
def decodeWith (ids : Equiv.Perm (Fin 35)) (bytes : List Byte) : Except DecodeError Instr :=
  match splitBytes 4 bytes with
  | none => .error .shortHeader
  | some (front, rest) =>
    let h := BitVec.ofNat 32 (leNat front)
    if opcodeField h = retId then .ok (.ret (maskField h))
    else
      match stdOpWith ids (opcodeField h) with
      | none => .error (.undefinedOpcode (opcodeField h))
      | some op =>
        match readKinds h [0, 1, 2, 3, 4] with
        | .error e => .error e
        | .ok kinds =>
          match readOperands kinds rest with
          | none => .error .shortImmediates
          | some os => buildFrom op os

/-- The machine's decoder. -/
def decode (bytes : List Byte) : Except DecodeError Instr := decodeWith machineIds bytes

/-! ## The encoder -/

/-- R113: the kind code of an operand. -/
def Operand.code : Operand → Nat
  | .imm .w0 _ => 0
  | .imm .w1 _ => 1
  | .imm .w2 _ => 2
  | .imm .w4 _ => 3
  | .imm .w8 _ => 4
  | .reg r => r.val + 5

/-- R114: the immediate bytes of an operand. -/
def Operand.immBytes : Operand → List Byte
  | .imm w v => leBytes w.bytes v.toNat
  | .reg _ => []

/-- R111: `c0 | c1 << 5 | ..`, the codes of the slots, slot 0 lowest. -/
def packCodes : List Operand → Nat
  | [] => 0
  | o :: os => o.code + 32 * packCodes os

/-- R111, R112: the 32-bit header `H` of an instruction. -/
def headerWith (ids : Equiv.Perm (Fin 35)) (i : Instr) : Nat :=
  match i with
  | .ret mask => retId.toNat + 128 * mask.toNat
  | i =>
    match i.mnemonic with
    | .std op => opcodeIdWith ids op + 128 * packCodes i.slots
    | .ret => 0

/-- R110, R114: the bytes of an instruction under an opcode map. -/
def encodeWith (ids : Equiv.Perm (Fin 35)) (i : Instr) : List Byte :=
  leBytes 4 (headerWith ids i) ++ i.slots.flatMap Operand.immBytes

/-- The machine's encoder. -/
def encode (i : Instr) : List Byte := encodeWith machineIds i

/-! ## Words numbered as opcode_table.json numbers them -/

/-- The longest instruction (R115). -/
def maxLength : Nat := 44

/-- The bytes of an instruction whose bits are `w`, of which the table gives `nbits` and every later one is 0: bits 7..0
are the byte at the lowest address (R110). -/
def tableBytes (nbits w : Nat) : List Byte := leBytes maxLength (w % 2 ^ nbits)

/-- The instruction the decoder reads from a word of the table. -/
def decodeTableWord (nbits w : Nat) : Option Instr :=
  match decode (tableBytes nbits w) with
  | .ok i => some i
  | .error _ => none

end Sys2Proof
end

