-- ==== Sys2Proof/Machine/State.lean ====
section
/-! DEFINITION. The machine's state (10_state.md), its value after reset (70_reset_and_hazards.md R453), and the reasons
a step can stop. -/

namespace Sys2Proof.Machine

/-- R401, R402: the three machine faults, as symbolic values. Raised by a step as a NEXT state (R403). -/
inductive FaultKind where
  | divisionByZero
  | invalidMemoryAccess
  | outOfBoundsExecution
  deriving DecidableEq, Repr

/-- R43: the run state. -/
inductive RunState where
  | running
  | halted (code : Word)
  | faulted (kind : FaultKind)
  deriving DecidableEq, Repr

/-- R404: the fault record: the kind, the faulting instruction's address, the effective address of a load or store (none
for the other causes), and the counters before the instruction. -/
structure FaultRecord where
  kind : FaultKind
  pc : Word
  dataAddr : Option Word
  cycles : Nat
  icount : Nat
  deriving DecidableEq, Repr

/-- R42: a frame of the call stack: the saved registers `a` .. `y` and the return address. -/
structure Frame where
  saved : Vector Word 25
  retAddr : Word
  deriving DecidableEq, Repr

/-- R421: what the trace sink receives after a commit: the instruction's address and mnemonic, the resolved values of its
operand slots, and `cycles` after the commit. -/
structure TraceRecord where
  addr : Word
  mnemonic : Mnemonic
  operands : List Word
  cycles : Nat
  deriving DecidableEq, Repr

/-- R83: the data-memory bytes with a known value, in one canonical form (`Memory.wf` of Machine/Ops.lean): addresses
strictly rising. An address not listed has no value of its own; a load reads the free draw P_INIT_MEM there. -/
abbrev Memory := List Host.Cell

/-- The state (10_state.md). The last three fields are the host's side of the interface and the counter of the free value of
`rand` (log entries 3, 5 and 6). -/
structure State where
  /-- R30: x[a] .. x[z]. -/
  regs : Vector Word 26
  /-- R34. -/
  pc : Word
  /-- R40. -/
  cycles : Nat
  /-- R41. -/
  icount : Nat
  /-- R42: the most recently pushed frame first. -/
  callStack : List Frame
  /-- R43. -/
  run : RunState
  /-- R44. -/
  fault : Option FaultRecord
  /-- R50. -/
  inpos : Nat
  /-- R50: the bytes emitted, the first one first. -/
  out : List Byte
  /-- R46, R70: DMEM. -/
  mem : Memory
  /-- R46, R451: IMEM; its length is N_IMEM. -/
  imem : List Byte
  /-- R421: the records given to the trace sink, the first one first. -/
  trace : List TraceRecord
  /-- R9: P_PROVISIONED. -/
  provisioned : List Region
  /-- R12: the host's first answers to I/O-cell loads, answer `k` at index `k`; none is end-of-stream. -/
  answers : List (Option Byte)
  /-- R13: executions of `rand` so far. -/
  randDraws : Nat
  deriving DecidableEq, Repr

/-- R453, with the empty image (L = 0, N_IMEM = 0; log entry 10): the machine before its first instruction. -/
def State.reset : State where
  regs := (Vector.replicate 26 0).set 25 stackBase
  pc := 0
  cycles := 0
  icount := 0
  callStack := []
  run := .running
  fault := none
  inpos := 0
  out := []
  mem := []
  imem := []
  trace := []
  provisioned := Config.provisioned
  answers := []
  randDraws := 0

/-- Why a step answers no state although nothing is refused: the run is over. The three machine faults are not here: they
are next states (`FaultKind`, R403). -/
inductive Fault where
  /-- Raised by `step` in a state whose run state is Halted: the engine takes no further step (R405). Safe. -/
  | alreadyHalted (code : Word)
  /-- Raised by `step` in a state whose run state is Faulted: the engine takes no further step (R405). Safe. -/
  | alreadyFaulted (kind : FaultKind)
  deriving DecidableEq, Repr

/-- What the spec gives no meaning (R140); the outcome is the refusal mark of R48. -/
inductive Refusal where
  /-- Raised by `exec` for an instruction the model gives no meaning: none is left. Safe. -/
  | notModelled (mnemonic : String)
  /-- Raised by `step` at `pc`: no mnemonic has this opcode id (R121). Safe. -/
  | undefinedOpcode (pc : Word) (opc : BitVec 7)
  /-- Raised by `step` at `pc`: a slot holds kind code 31 (R113). Safe. -/
  | undefinedKindCode (pc : Word) (slot : Nat)
  /-- Raised by `step` at `pc`: a destination slot holds an immediate code (R119). Safe. -/
  | immediateDestination (pc : Word) (slot : Nat)
  deriving DecidableEq, Repr

/-- The outcome of a step or a meaning. -/
abbrev Result := Host.Outcome State Fault Refusal

end Sys2Proof.Machine
end

