-- ==== Sys2Proof/Machine/Ops.lean ====
section
/-! DEFINITION. The named operations over registers, data memory, the I/O cell, the call stack and the free values, and
the raising of a fault. -/

namespace Sys2Proof.Machine

/-! ## Registers (10_state.md R30 .. R32) -/

/-- R18: `x[r]`. -/
def State.reg (s : State) (r : Reg) : Word := s.regs[r.val]

/-- R18: `x[r] <- v`; every register can be written, `z` included (R31). -/
def State.setReg (s : State) (r : Reg) (v : Word) : State := { s with regs := s.regs.set r.val v }

/-! ## Data memory (20_memory.md) -/

/-- The canonical form: addresses strictly rising. Every entry is a known byte, so none equals what an unlisted address
reads as, which is no value (log entry 4). -/
def Memory.wf : Memory → Bool
  | [] => true
  | [_] => true
  | c :: d :: m => decide (c.1 < d.1) && Memory.wf (d :: m)

/-- The known byte at an address; none where no store and no data section has given one. -/
def Memory.lookup : Memory → Nat → Option Byte
  | [], _ => none
  | c :: m, a => if c.1 = a then some c.2 else Memory.lookup m a

/-- The memory with one byte written, the addresses kept rising. -/
def Memory.write : Memory → Nat → Byte → Memory
  | [], a, b => [(a, b)]
  | c :: m, a, b =>
    if a < c.1 then (a, b) :: c :: m
    else if a = c.1 then (a, b) :: m
    else c :: Memory.write m a b

/-- Bytes written at `a`, `a + 1`, .. in that order. -/
def Memory.writeBytes : Memory → Nat → List Byte → Memory
  | m, _, [] => m
  | m, a, b :: bs => Memory.writeBytes (Memory.write m a b) (a + 1) bs

/-- R83: the byte a data address holds: the known one, or else the free load-time draw (R11). DESIGN CHOICE (log entry
17): R11 calls the draw one of the launch, and every launch of the model has the same draw. -/
def State.readByte (s : State) (a : Nat) : Byte := (s.mem.lookup a).getD (Config.initMem a)

/-- Whether a region holds an address. -/
def regionHas (a : Nat) (r : Region) : Bool := decide (r.base ≤ a ∧ a < r.base + r.size)

/-- R9, R74: whether the byte at `a` is storage: a 64-bit address other than the I/O cell that the host provisions. -/
def storageIn (provisioned : List Region) (a : Nat) : Bool :=
  decide (a < 2 ^ 64) && decide (a ≠ ioAddr.toNat) && provisioned.any (regionHas a)

/-- R9, R74: `storageIn` for the state's P_PROVISIONED. -/
def State.isStorage (s : State) (a : Nat) : Bool := storageIn s.provisioned a

/-- R74: an access of `n` bytes at `addr` is admitted iff each of its bytes is storage; addresses do not wrap. -/
def State.admitted (s : State) (addr : Word) (n : Nat) : Bool :=
  (List.range n).all fun k => s.isStorage (addr.toNat + k)

/-- The bytes at `a`, `a + 1`, .., `n` of them. -/
def State.readBytes (s : State) : Nat → Nat → List Byte
  | _, 0 => []
  | a, n + 1 => s.readByte a :: s.readBytes (a + 1) n

/-- R19, R72: the value part of `MemRead(addr, n)`, little-endian and zero-extended. -/
def State.memRead (s : State) (addr : Word) (n : Nat) : Word := BitVec.ofNat 64 (leNat (s.readBytes addr.toNat n))

/-- R19, R72: the effect part of `MemWrite(addr, n, v)`: the low `n` bytes of `v`, little-endian. -/
def State.memWrite (s : State) (addr : Word) (n : Nat) (v : Word) : State :=
  { s with mem := s.mem.writeBytes addr.toNat (leBytes n v.toNat) }

/-! ## The I/O cell (20_memory.md R79 .. R81) -/

/-- R12: the host's answer to the next I/O-cell load: the one State lists, or else the open P_INPUT. DESIGN CHOICE (log entry
17): the open answers are the same in every launch. -/
def State.nextAnswer (s : State) : Option Byte := (s.answers[s.inpos]?).getD (Config.input s.inpos)

/-- R80: the word an answer reads as: the byte zero-extended, or ALL_ONES at end-of-stream. -/
def answerWord : Option Byte → Word
  | some b => b.setWidth 64
  | none => allOnes

/-- R80: the state effect of `IoRead()`. -/
def State.consumeInput (s : State) : State := { s with inpos := s.inpos + 1 }

/-- R81: `IoWrite(v)`. -/
def State.emit (s : State) (v : Word) : State := { s with out := s.out ++ [v.setWidth 8] }

/-! ## The call stack (10_state.md R42) -/

/-- R320: the snapshot of `a` .. `y`. -/
def State.snapshot (s : State) : Vector Word 25 := Vector.ofFn fun j => s.regs[j.val]

/-- R320: push a frame with the snapshot and a return address. -/
def State.pushFrame (s : State) (retAddr : Word) : State :=
  { s with callStack := { saved := s.snapshot, retAddr := retAddr } :: s.callStack }

/-- R322: the registers after a `ret`: `saved[j]` where mask bit `j` is 1, the current value elsewhere and for `z`. -/
def restoredRegs (mask : BitVec 25) (saved : Vector Word 25) (regs : Vector Word 26) : Vector Word 26 :=
  Vector.ofFn fun r => if h : r.val < 25 then (if mask.getLsbD r.val then saved[r.val] else regs[r.val]) else regs[r.val]

/-- R322: the state after popping `frame` off, `rest` left, with the masked registers restored. -/
def State.popFrame (s : State) (mask : BitVec 25) (frame : Frame) (rest : List Frame) : State :=
  { s with regs := restoredRegs mask frame.saved s.regs, callStack := rest }

/-! ## rand (45_control.md R326) -/

/-- R13: the free word of the next execution of `rand`. DESIGN CHOICE (log entry 17): the k-th execution draws the same word
in every launch, which the spec does not say. -/
def State.nextRand (s : State) : Word := Config.rand s.randDraws

/-- R13: the draw is used up, so that the next execution gets a fresh one. -/
def State.drawRand (s : State) : State := { s with randDraws := s.randDraws + 1 }

/-! ## Raising a fault (60_exceptions.md R403, R404) -/

/-- R403, R404: the engine enters Faulted with its record and nothing else changes. It is the machine's one exception
entry; there is no return from it (R410, R411). -/
def State.raise (s : State) (kind : FaultKind) (dataAddr : Option Word) : State :=
  { s with
    run := .faulted kind
    fault := some { kind := kind, pc := s.pc, dataAddr := dataAddr, cycles := s.cycles, icount := s.icount } }

end Sys2Proof.Machine
end

