-- ==== Sys2Proof/Machine/Operands.lean ====
section
/-! DEFINITION. Operand resolution (30_encoding.md R131): every operand form is read here. -/

namespace Sys2Proof.Machine

/-- R131: `op[k]`: the 64-bit value of a slot. The decoder has already extended an immediate (R113), so that its width
does not matter here (R118). -/
def State.value (s : State) : Operand → Word
  | .imm _ v => v
  | .reg r => s.reg r

/-- R131: `op[0..4]`, the values of the slots before the instruction writes anything. -/
def State.values (s : State) (slots : List Operand) : List Word := slots.map s.value

end Sys2Proof.Machine
end

