-- ==== Sys2Proof/Machine/Commit.lean ====
section
/-! DEFINITION. The commit of an instruction (30_encoding.md R132): cycle cost, instruction count, pc and trace record. -/

namespace Sys2Proof.Machine

/-- R10, R463: P_CYCLE_COST; `halt` costs 9 (R454), the other costs are open. -/
def cycleCost (m : Mnemonic) : Nat := if m = .std .halt then 9 else Config.cycleCost m

/-- R35(a): the address after an instruction with these slots. -/
def State.pcAfter (s : State) (slots : List Operand) : Word := s.pc + BitVec.ofNat 64 (slotsLength slots)

/-- R421: the trace record of an instruction that starts from this state. -/
def State.record (s : State) (m : Mnemonic) (slots : List Operand) : TraceRecord :=
  { addr := s.pc, mnemonic := m, operands := s.values slots, cycles := s.cycles + cycleCost m }

/-- R132: the commit. The state holds the instruction's own writes already; `before` is the state it started from, whose
operand values the trace record shows. -/
def State.commit (s : State) (m : Mnemonic) (slots : List Operand) (nextPc : Word) (before : State) : State :=
  { s with
    cycles := s.cycles + cycleCost m
    icount := s.icount + 1
    pc := nextPc
    trace := s.trace ++ [before.record m slots] }

/-- R132, R35(a): an instruction that started from `before` and whose own writes gave `after` commits and goes on to the
instruction that follows it. -/
def fallThrough (m : Mnemonic) (slots : List Operand) (before after : State) : Result :=
  .next (after.commit m slots (before.pcAfter slots) before)

/-- R132, R35(b): the same for an instruction that transfers control to `target`. -/
def jumpTo (m : Mnemonic) (slots : List Operand) (target : Word) (before after : State) : Result :=
  .next (after.commit m slots target before)

/-- R403: an instruction that faults: no partial effect. -/
def faultNow (s : State) (kind : FaultKind) (dataAddr : Option Word) : Result := .next (s.raise kind dataAddr)

end Sys2Proof.Machine
end

