-- ==== Sys2Proof/Machine/Arith.lean ====
section
/-! DEFINITION. Arithmetic and logic (40_arith_logic.md). -/

namespace Sys2Proof.Machine

/-- R199, R239, R259: the shape shared by arithmetic, compares and shifts: write one result to the destination and go
on. The result is computed from the values before the write (R131). -/
def writeResult (m : Mnemonic) (slots : List Operand) (r : Reg) (v : Word) (s : State) : Result :=
  fallThrough m slots s (s.setReg r v)

/-- R200: the wrapped sum. -/
def execAdd (r : Reg) (a b u3 u4 : Operand) (s : State) : Result :=
  writeResult (.std .add) [.reg r, a, b, u3, u4] r (wrap ((s.value a).toNat + (s.value b).toNat)) s

/-- R201: the wrapped difference. -/
def execSub (r : Reg) (a b u3 u4 : Operand) (s : State) : Result :=
  writeResult (.std .sub) [.reg r, a, b, u3, u4] r (wrap ((s.value a).toNat - (s.value b).toNat)) s

/-- R202: bitwise inclusive or. -/
def execOr (r : Reg) (a b u3 u4 : Operand) (s : State) : Result :=
  writeResult (.std .or) [.reg r, a, b, u3, u4] r (s.value a ||| s.value b) s

/-- R203: bitwise exclusive or. -/
def execXor (r : Reg) (a b u3 u4 : Operand) (s : State) : Result :=
  writeResult (.std .xor) [.reg r, a, b, u3, u4] r (s.value a ^^^ s.value b) s

/-- R204: bitwise and. -/
def execAnd (r : Reg) (a b u3 u4 : Operand) (s : State) : Result :=
  writeResult (.std .and) [.reg r, a, b, u3, u4] r (s.value a &&& s.value b) s

/-- R205: bitwise complement. -/
def execNot (r : Reg) (a u2 u3 u4 : Operand) (s : State) : Result :=
  writeResult (.std .not) [.reg r, a, u2, u3, u4] r (~~~(s.value a)) s

end Sys2Proof.Machine
end

