-- ==== Sys2Proof/Machine/Flags.lean ====
section
/-! DEFINITION. The machine has no flags (10_state.md R39): a comparison produces 0 or 1 in a destination register, and a
conditional jump tests a word for zero. These are the relations (42_compare.md R239). -/

namespace Sys2Proof.Machine

/-- R239: the result word of a comparison is exactly 0 or 1. -/
def boolWord (b : Bool) : Word := if b then 1 else 0

/-- R240: equality. -/
def wordEq (a b : Word) : Bool := a == b

/-- R242: signed less-than (strict, D11). -/
def signedLt (a b : Word) : Bool := decide (a.toInt < b.toInt)

/-- R243: signed less-or-equal. -/
def signedLe (a b : Word) : Bool := decide (a.toInt ≤ b.toInt)

/-- R244: unsigned less-than (strict, D11). -/
def unsignedLt (a b : Word) : Bool := decide (a.toNat < b.toNat)

/-- R245: unsigned less-or-equal. -/
def unsignedLe (a b : Word) : Bool := decide (a.toNat ≤ b.toNat)

/-- R323, R324: the test of `jz` and `jnz`. -/
def isZero (a : Word) : Bool := a == 0

end Sys2Proof.Machine
end

