-- ==== Sys2Proof/Machine/Compare.lean ====
section
/-! DEFINITION. Comparisons (42_compare.md). -/

namespace Sys2Proof.Machine

/-- R240: equality. -/
def execCmp (r : Reg) (a b u3 u4 : Operand) (s : State) : Result :=
  writeResult (.std .cmp) [.reg r, a, b, u3, u4] r (boolWord (wordEq (s.value a) (s.value b))) s

/-- R241: inequality. -/
def execNeq (r : Reg) (a b u3 u4 : Operand) (s : State) : Result :=
  writeResult (.std .neq) [.reg r, a, b, u3, u4] r (boolWord (!wordEq (s.value a) (s.value b))) s

/-- R242: signed less-than. -/
def execLe (r : Reg) (a b u3 u4 : Operand) (s : State) : Result :=
  writeResult (.std .le) [.reg r, a, b, u3, u4] r (boolWord (signedLt (s.value a) (s.value b))) s

/-- R243: signed less-or-equal. -/
def execLeq (r : Reg) (a b u3 u4 : Operand) (s : State) : Result :=
  writeResult (.std .leq) [.reg r, a, b, u3, u4] r (boolWord (signedLe (s.value a) (s.value b))) s

/-- R244: unsigned less-than. -/
def execLeu (r : Reg) (a b u3 u4 : Operand) (s : State) : Result :=
  writeResult (.std .leu) [.reg r, a, b, u3, u4] r (boolWord (unsignedLt (s.value a) (s.value b))) s

/-- R245: unsigned less-or-equal. -/
def execLequ (r : Reg) (a b u3 u4 : Operand) (s : State) : Result :=
  writeResult (.std .lequ) [.reg r, a, b, u3, u4] r (boolWord (unsignedLe (s.value a) (s.value b))) s

end Sys2Proof.Machine
end

