-- ==== Sys2Proof/Machine/Control.lean ====
section
/-! DEFINITION. Control transfer, halt and rand (45_control.md). -/

namespace Sys2Proof.Machine

/-- R320: push the snapshot and the address of the next instruction, and jump. -/
def execCall (a u1 u2 u3 u4 : Operand) (s : State) : Result :=
  jumpTo (.std .call) [a, u1, u2, u3, u4] (s.value a) s (s.pushFrame (s.pcAfter [a, u1, u2, u3, u4]))

/-- R322: pop a frame, restore the masked registers and go to its return address; on an empty call stack raise
InvalidMemoryAccess (C3, D22). -/
def execRet (mask : BitVec 25) (s : State) : Result :=
  match s.callStack with
  | [] => faultNow s .invalidMemoryAccess none
  | frame :: rest => jumpTo .ret [] frame.retAddr s (s.popFrame mask frame rest)

/-- R323: jump if the tested value is zero. -/
def execJz (a b u2 u3 u4 : Operand) (s : State) : Result :=
  if isZero (s.value b) then jumpTo (.std .jz) [a, b, u2, u3, u4] (s.value a) s s
  else fallThrough (.std .jz) [a, b, u2, u3, u4] s s

/-- R324: jump if the tested value is not zero. -/
def execJnz (a b u2 u3 u4 : Operand) (s : State) : Result :=
  if isZero (s.value b) then fallThrough (.std .jnz) [a, b, u2, u3, u4] s s
  else jumpTo (.std .jnz) [a, b, u2, u3, u4] (s.value a) s s

/-- R325, R35(c): enter Halted with the full operand word; pc stays. -/
def execHalt (a u1 u2 u3 u4 : Operand) (s : State) : Result :=
  jumpTo (.std .halt) [a, u1, u2, u3, u4] s.pc s { s with run := .halted (s.value a) }

/-- R326: write a fresh free word. -/
def execRand (r : Reg) (u1 u2 u3 u4 : Operand) (s : State) : Result :=
  fallThrough (.std .rand) [.reg r, u1, u2, u3, u4] s (s.drawRand.setReg r s.nextRand)

end Sys2Proof.Machine
end

