-- ==== Sys2Proof/Machine/LoadStore.lean ====
section
/-! DEFINITION. Loads and stores (44_load_store.md). -/

namespace Sys2Proof.Machine

/-- R74, R281: a load of `n` bytes of storage at `addr`, extended by `ext` to the whole destination; a fault with the
effective address where it is not admitted. -/
def loadStorage (m : Mnemonic) (slots : List Operand) (n : Nat) (ext : Word → Word) (r : Reg) (addr : Word)
    (s : State) : Result :=
  if s.admitted addr n then fallThrough m slots s (s.setReg r (ext (s.memRead addr n)))
  else faultNow s .invalidMemoryAccess (some addr)

/-- R74, R281: a store of the low `n` bytes of `v` to storage at `addr`; a fault that writes nothing where it is not
admitted. -/
def storeStorage (m : Mnemonic) (slots : List Operand) (n : Nat) (addr v : Word) (s : State) : Result :=
  if s.admitted addr n then fallThrough m slots s (s.memWrite addr n v)
  else faultNow s .invalidMemoryAccess (some addr)

/-- R79: a narrow load: at the I/O cell it faults, elsewhere it reads storage. -/
def loadNarrow (m : Mnemonic) (slots : List Operand) (n : Nat) (ext : Word → Word) (r : Reg) (addr : Word)
    (s : State) : Result :=
  if addr = ioAddr then faultNow s .invalidMemoryAccess (some addr) else loadStorage m slots n ext r addr s

/-- R79: a narrow store: at the I/O cell it faults, elsewhere it writes storage. -/
def storeNarrow (m : Mnemonic) (slots : List Operand) (n : Nat) (addr v : Word) (s : State) : Result :=
  if addr = ioAddr then faultNow s .invalidMemoryAccess (some addr) else storeStorage m slots n addr v s

/-- R80: a word load from the I/O cell: the destination gets the host's answer. -/
def loadInput (m : Mnemonic) (slots : List Operand) (r : Reg) (s : State) : Result :=
  fallThrough m slots s (s.consumeInput.setReg r (answerWord s.nextAnswer))

/-- R81: a word store to the I/O cell: the low byte is emitted. -/
def storeOutput (m : Mnemonic) (slots : List Operand) (v : Word) (s : State) : Result :=
  fallThrough m slots s (s.emit v)

/-- R282: load byte, sign-extended. -/
def execLb (r : Reg) (a u2 u3 u4 : Operand) (s : State) : Result :=
  loadNarrow (.std .lb) [.reg r, a, u2, u3, u4] 1 (sext 8) r (s.value a) s

/-- R283: load byte, zero-extended. -/
def execLbu (r : Reg) (a u2 u3 u4 : Operand) (s : State) : Result :=
  loadNarrow (.std .lbu) [.reg r, a, u2, u3, u4] 1 (zext 8) r (s.value a) s

/-- R284: load 2 bytes, sign-extended. -/
def execLs (r : Reg) (a u2 u3 u4 : Operand) (s : State) : Result :=
  loadNarrow (.std .ls) [.reg r, a, u2, u3, u4] 2 (sext 16) r (s.value a) s

/-- R285: load 2 bytes, zero-extended. -/
def execLsu (r : Reg) (a u2 u3 u4 : Operand) (s : State) : Result :=
  loadNarrow (.std .lsu) [.reg r, a, u2, u3, u4] 2 (zext 16) r (s.value a) s

/-- R286: load 4 bytes, sign-extended. -/
def execLi (r : Reg) (a u2 u3 u4 : Operand) (s : State) : Result :=
  loadNarrow (.std .li) [.reg r, a, u2, u3, u4] 4 (sext 32) r (s.value a) s

/-- R287: load 4 bytes, zero-extended. -/
def execLiu (r : Reg) (a u2 u3 u4 : Operand) (s : State) : Result :=
  loadNarrow (.std .liu) [.reg r, a, u2, u3, u4] 4 (zext 32) r (s.value a) s

/-- R288: load 8 bytes, or read the input stream at the I/O cell. -/
def execLw (r : Reg) (a u2 u3 u4 : Operand) (s : State) : Result :=
  if s.value a = ioAddr then loadInput (.std .lw) [.reg r, a, u2, u3, u4] r s
  else loadStorage (.std .lw) [.reg r, a, u2, u3, u4] 8 id r (s.value a) s

/-- R289: store the low byte. -/
def execSb (a b u2 u3 u4 : Operand) (s : State) : Result :=
  storeNarrow (.std .sb) [a, b, u2, u3, u4] 1 (s.value a) (s.value b) s

/-- R290: store the low 2 bytes. -/
def execSs (a b u2 u3 u4 : Operand) (s : State) : Result :=
  storeNarrow (.std .ss) [a, b, u2, u3, u4] 2 (s.value a) (s.value b) s

/-- R291: store the low 4 bytes. -/
def execSi (a b u2 u3 u4 : Operand) (s : State) : Result :=
  storeNarrow (.std .si) [a, b, u2, u3, u4] 4 (s.value a) (s.value b) s

/-- R292: store 8 bytes, or write the output stream at the I/O cell. -/
def execSw (a b u2 u3 u4 : Operand) (s : State) : Result :=
  if s.value a = ioAddr then storeOutput (.std .sw) [a, b, u2, u3, u4] (s.value b) s
  else storeStorage (.std .sw) [a, b, u2, u3, u4] 8 (s.value a) (s.value b) s

end Sys2Proof.Machine
end

