-- ==== Sys2Proof/Machine/MulDiv.lean ====
section
/-! DEFINITION. Multiply and divide (41_multiply_divide.md). -/

namespace Sys2Proof.Machine

/-- R219: write slot 0 first and slot 1 second, so that the second stands where both name one register, and go on. -/
def writeTwo (m : Mnemonic) (slots : List Operand) (r q : Reg) (first second : Word) (s : State) : Result :=
  fallThrough m slots s ((s.setReg r first).setReg q second)

/-- R220, R221: bits 63..0 of a product. -/
def lowHalf (p : Int) : Word := wrap p

/-- R220, R221: bits 127..64 of the 128-bit two's complement of a product. -/
def highHalf (p : Int) : Word := wrap (Int.fdiv p (2 ^ 64))

/-- R220: signed full product. -/
def execMul (r q : Reg) (a b u4 : Operand) (s : State) : Result :=
  let p := (s.value a).toInt * (s.value b).toInt
  writeTwo (.std .mul) [.reg r, .reg q, a, b, u4] r q (lowHalf p) (highHalf p) s

/-- R221: unsigned full product. -/
def execMulu (r q : Reg) (a b u4 : Operand) (s : State) : Result :=
  let p : Int := ((s.value a).toNat * (s.value b).toNat : Nat)
  writeTwo (.std .mulu) [.reg r, .reg q, a, b, u4] r q (lowHalf p) (highHalf p) s

/-- R222: signed floor division (R17); a zero divisor raises DivisionByZero. -/
def execDiv (r q : Reg) (a b u4 : Operand) (s : State) : Result :=
  let n := (s.value a).toInt
  let d := (s.value b).toInt
  if d = 0 then faultNow s .divisionByZero none
  else writeTwo (.std .div) [.reg r, .reg q, a, b, u4] r q (wrap (Int.fdiv n d)) (wrap (Int.fmod n d)) s

/-- R223: unsigned truncating division; a zero divisor raises DivisionByZero. -/
def execDivu (r q : Reg) (a b u4 : Operand) (s : State) : Result :=
  let n := (s.value a).toNat
  let d := (s.value b).toNat
  if d = 0 then faultNow s .divisionByZero none
  else writeTwo (.std .divu) [.reg r, .reg q, a, b, u4] r q (wrap (n / d : Nat)) (wrap (n % d : Nat)) s

end Sys2Proof.Machine
end

