-- ==== Sys2Proof/Machine/Shift.lean ====
section
/-! DEFINITION. Shifts (43_shift.md). -/

namespace Sys2Proof.Machine

/-- R259: `LSL(v, m)`. -/
def lsl (v : Word) (m : Nat) : Word := if 64 ≤ m then 0 else wrap (v.toNat * 2 ^ m)

/-- R259: `LSR(v, m)`. -/
def lsr (v : Word) (m : Nat) : Word := if 64 ≤ m then 0 else wrap (v.toNat / 2 ^ m : Nat)

/-- R259: `ASR(v, m)`. -/
def asr (v : Word) (m : Nat) : Word :=
  if 64 ≤ m then (if v.toInt < 0 then allOnes else 0) else wrap (Int.fdiv v.toInt (2 ^ m))

/-- R259: a count `n` shifts forward by `n`, or backward by `-n` where it is negative; the magnitude is computed in
unbounded integers. -/
def byCount (forward backward : Word → Nat → Word) (v count : Word) : Word :=
  if 0 ≤ count.toInt then forward v count.toInt.toNat else backward v (-count.toInt).toNat

/-- R260: logical left shift, right for a negative count. -/
def execShl (r : Reg) (a b u3 u4 : Operand) (s : State) : Result :=
  writeResult (.std .shl) [.reg r, a, b, u3, u4] r (byCount lsl lsr (s.value a) (s.value b)) s

/-- R261: logical right shift, left for a negative count. -/
def execShr (r : Reg) (a b u3 u4 : Operand) (s : State) : Result :=
  writeResult (.std .shr) [.reg r, a, b, u3, u4] r (byCount lsr lsl (s.value a) (s.value b)) s

/-- R262: arithmetic right shift, logical left for a negative count. -/
def execSar (r : Reg) (a b u3 u4 : Operand) (s : State) : Result :=
  writeResult (.std .sar) [.reg r, a, b, u3, u4] r (byCount asr lsl (s.value a) (s.value b)) s

end Sys2Proof.Machine
end

