-- ==== Sys2Proof/Machine/Dispatch.lean ====
section
/-! DEFINITION. What each instruction does: one arm per constructor of `Instr`. -/

namespace Sys2Proof.Machine

def exec (i : Instr) (s : State) : Host.Outcome State Fault Refusal :=
  match i with
  | .add r a b u3 u4 => Sys2Proof.Machine.execAdd r a b u3 u4 s
  | .sub r a b u3 u4 => Sys2Proof.Machine.execSub r a b u3 u4 s
  | .or r a b u3 u4 => Sys2Proof.Machine.execOr r a b u3 u4 s
  | .xor r a b u3 u4 => Sys2Proof.Machine.execXor r a b u3 u4 s
  | .and r a b u3 u4 => Sys2Proof.Machine.execAnd r a b u3 u4 s
  | .not r a u2 u3 u4 => Sys2Proof.Machine.execNot r a u2 u3 u4 s
  | .mul r q a b u4 => Sys2Proof.Machine.execMul r q a b u4 s
  | .mulu r q a b u4 => Sys2Proof.Machine.execMulu r q a b u4 s
  | .div r q a b u4 => Sys2Proof.Machine.execDiv r q a b u4 s
  | .divu r q a b u4 => Sys2Proof.Machine.execDivu r q a b u4 s
  | .cmp r a b u3 u4 => Sys2Proof.Machine.execCmp r a b u3 u4 s
  | .neq r a b u3 u4 => Sys2Proof.Machine.execNeq r a b u3 u4 s
  | .le r a b u3 u4 => Sys2Proof.Machine.execLe r a b u3 u4 s
  | .leq r a b u3 u4 => Sys2Proof.Machine.execLeq r a b u3 u4 s
  | .leu r a b u3 u4 => Sys2Proof.Machine.execLeu r a b u3 u4 s
  | .lequ r a b u3 u4 => Sys2Proof.Machine.execLequ r a b u3 u4 s
  | .shl r a b u3 u4 => Sys2Proof.Machine.execShl r a b u3 u4 s
  | .shr r a b u3 u4 => Sys2Proof.Machine.execShr r a b u3 u4 s
  | .sar r a b u3 u4 => Sys2Proof.Machine.execSar r a b u3 u4 s
  | .lb r a u2 u3 u4 => Sys2Proof.Machine.execLb r a u2 u3 u4 s
  | .lbu r a u2 u3 u4 => Sys2Proof.Machine.execLbu r a u2 u3 u4 s
  | .ls r a u2 u3 u4 => Sys2Proof.Machine.execLs r a u2 u3 u4 s
  | .lsu r a u2 u3 u4 => Sys2Proof.Machine.execLsu r a u2 u3 u4 s
  | .li r a u2 u3 u4 => Sys2Proof.Machine.execLi r a u2 u3 u4 s
  | .liu r a u2 u3 u4 => Sys2Proof.Machine.execLiu r a u2 u3 u4 s
  | .lw r a u2 u3 u4 => Sys2Proof.Machine.execLw r a u2 u3 u4 s
  | .sb a b u2 u3 u4 => Sys2Proof.Machine.execSb a b u2 u3 u4 s
  | .ss a b u2 u3 u4 => Sys2Proof.Machine.execSs a b u2 u3 u4 s
  | .si a b u2 u3 u4 => Sys2Proof.Machine.execSi a b u2 u3 u4 s
  | .sw a b u2 u3 u4 => Sys2Proof.Machine.execSw a b u2 u3 u4 s
  | .call a u1 u2 u3 u4 => Sys2Proof.Machine.execCall a u1 u2 u3 u4 s
  | .jz a b u2 u3 u4 => Sys2Proof.Machine.execJz a b u2 u3 u4 s
  | .jnz a b u2 u3 u4 => Sys2Proof.Machine.execJnz a b u2 u3 u4 s
  | .halt a u1 u2 u3 u4 => Sys2Proof.Machine.execHalt a u1 u2 u3 u4 s
  | .rand r u1 u2 u3 u4 => Sys2Proof.Machine.execRand r u1 u2 u3 u4 s
  | .ret mask => Sys2Proof.Machine.execRet mask s

end Sys2Proof.Machine
end

