-- ==== Sys2Proof/Machine/Fetch.lean ====
section
/-! DEFINITION. Fetch and decode (30_encoding.md R130): the instruction at `pc`, and what a step does where there is
none; and a word of opcode_table.json placed where the next fetch reads. -/

namespace Sys2Proof.Machine

/-- R130: instruction memory from `pc` on. Past its end the list is empty, so that `pc` does not wrap (R37). -/
def State.fetchBytes (s : State) : List Byte := s.imem.drop s.pc.toNat

/-- R130: the instruction at `pc`, or why there is none. -/
def State.fetch (s : State) : Except DecodeError Instr := decode s.fetchBytes

/-- R130, R140: a byte outside instruction memory raises OutOfBoundsExecution; an encoding without a meaning is refused. -/
def noInstruction (e : DecodeError) (s : State) : Result :=
  match e with
  | .shortHeader => faultNow s .outOfBoundsExecution none
  | .shortImmediates => faultNow s .outOfBoundsExecution none
  | .undefinedOpcode opc => .refused (.undefinedOpcode s.pc opc)
  | .undefinedKindCode slot => .refused (.undefinedKindCode s.pc slot)
  | .immediateDestination slot => .refused (.immediateDestination s.pc slot)

/-- R130: one step of a running engine. -/
def runInstruction (s : State) : Result :=
  match s.fetch with
  | .ok i => exec i s
  | .error e => noInstruction e s

/-- Instruction memory with `bytes` placed at `a`, zeros filling any gap below. -/
def placeAt (imem : List Byte) (a : Nat) (bytes : List Byte) : List Byte :=
  imem.take a ++ List.replicate (a - imem.length) 0 ++ bytes ++ imem.drop (a + bytes.length)

/-- The state with a table word's bytes placed at `pc` and the engine running (log entry 10). -/
def placeWord (s : State) (nbits w : Nat) : State :=
  { s with imem := placeAt s.imem s.pc.toNat (tableBytes nbits w), run := .running, fault := none }

end Sys2Proof.Machine
end

