-- ==== Sys2Proof/Machine/Step.lean ====
section
/-! DEFINITION. One step (30_encoding.md R130, 60_exceptions.md R405). -/

namespace Sys2Proof.Machine

/-- R130, R405: a running engine fetches, decodes and executes one instruction; from Halted and Faulted it takes no
further step. -/
def step (s : State) : Host.Outcome State Fault Refusal :=
  match s.run with
  | .running => runInstruction s
  | .halted code => .fault (.alreadyHalted code)
  | .faulted kind => .fault (.alreadyFaulted kind)

/-- The state whose next step fetches and runs the instruction of a table word: its bytes stand at `pc` (log entry 10). -/
def State.withFetchWord (s : State) (nbits w : Nat) : State := placeWord s nbits w

end Sys2Proof.Machine
end

