-- ==== Sys2Proof/Machine/Load.lean ====
section
/-! DEFINITION. Loading a binary image, which establishes the reset state (70_reset_and_hazards.md R450 .. R455). -/

namespace Sys2Proof.Machine

/-- R450: an image's data section and instruction stream, from the u32 length `L` and the bytes after it; none for an image
shorter than `4 + L` bytes (R451). -/
def splitImage (image : List Byte) : Option (List Byte × List Byte) :=
  match splitBytes 4 image with
  | none => none
  | some (header, body) => splitBytes (leNat header) body

/-- R455: the host provisions every address of the data section. -/
def dataProvisioned (provisioned : List Region) (size : Nat) : Bool :=
  (List.range size).all fun k => storageIn provisioned (dataBase + k)

/-- R451 .. R453: the state after load for a host that provisions `provisioned` and whose first answers are `answers`. None
where the image is not valid or has nowhere to go, or where its stream is too long for R37 (log entry 11): then the engine
is not started. -/
def load (image : List Byte) (provisioned : List Region) (answers : List (Option Byte)) : Option State :=
  match splitImage image with
  | none => none
  | some (data, stream) =>
    if dataProvisioned provisioned data.length = true ∧ stream.length < 2 ^ 64 then
      some { State.reset with
        mem := Memory.writeBytes [] dataBase data
        imem := stream
        provisioned := provisioned
        answers := answers }
    else none

end Sys2Proof.Machine
end

