-- ==== Sys2Proof/Machine/Pseudo.lean ====
section
/-! DEFINITION. The pseudo-instructions, the assembler's immediate widths and the mask of `ret`'s assembly form
(30_encoding.md R146 .. R148). The engine never sees them; they say what real instructions they stand for. -/

namespace Sys2Proof.Machine

/-- R146: the minimal width that represents a value exactly. DESIGN CHOICE (log entry 18): the value is the 64-bit pattern
(R3) and its range the signed one, so that 2^64 - 1 is -1 and gets 1 byte; read as the compile-time integer of R145, it lies
in no signed range and would get 8. -/
def minimalWidth (v : Word) : ImmWidth :=
  if ImmWidth.w0.fits v then .w0
  else if ImmWidth.w1.fits v then .w1
  else if ImmWidth.w2.fits v then .w2
  else if ImmWidth.w4.fits v then .w4
  else .w8

/-- R146: a constant as an operand. -/
def const (v : Word) : Operand := .imm (minimalWidth v) v

/-- R120: what the assembler writes in an unused slot. -/
def unused : Operand := .imm .w0 0

/-- R147: the pseudo-instructions. The operand that an expansion also writes is a register (R119). -/
inductive Pseudo where
  | mov (r : Reg) (a : Operand)
  | inc (r : Reg)
  | dec (r : Reg)
  | neg (r : Reg) (a : Operand)
  | sal (r : Reg) (a b : Operand)
  | ge (r : Reg) (a b : Operand)
  | geq (r : Reg) (a b : Operand)
  | geu (r : Reg) (a b : Operand)
  | gequ (r : Reg) (a b : Operand)
  | jmp (l : Operand)
  | push (a : Reg) (b : Operand)
  | pop (r a : Reg)
  deriving DecidableEq, Repr

/-- R147: the real instructions a pseudo-instruction stands for. -/
def Pseudo.expand : Pseudo → List Instr
  | .mov r a => [.add r a (const 0) unused unused]
  | .inc r => [.add r (.reg r) (const 1) unused unused]
  | .dec r => [.sub r (.reg r) (const 1) unused unused]
  | .neg r a => [.sub r (const 0) a unused unused]
  | .sal r a b => [.shl r a b unused unused]
  | .ge r a b => [.le r b a unused unused]
  | .geq r a b => [.leq r b a unused unused]
  | .geu r a b => [.leu r b a unused unused]
  | .gequ r a b => [.lequ r b a unused unused]
  | .jmp l => [.jz l (const 0) unused unused unused]
  | .push a b => [.sw (.reg a) b unused unused unused, .add a (.reg a) (const 8) unused unused]
  | .pop r a => [.sub a (.reg a) (const 8) unused unused, .lw r (.reg a) unused unused unused]

/-- R464: a pseudo-instruction costs what its expansion costs. -/
def Pseudo.cost (p : Pseudo) : Nat := (p.expand.map fun i => cycleCost i.mnemonic).sum

/-- R148: the mask of `ret r1, .., rk`: every bit of `a` .. `y` but those of the returned registers. -/
def retMask (returned : List (Fin 25)) : BitVec 25 :=
  BitVec.ofNat 25 ((List.range 25).foldr (fun j acc => acc + if returned.any (fun r => r.val == j) then 0 else 2 ^ j) 0)

end Sys2Proof.Machine
end

