-- ==== Sys2Proof/Safety.lean ====
section
/-! DEFINITION. What counts as the end of a run (60_exceptions.md R422), and the invariant that every step keeps. -/

namespace Sys2Proof.Machine

/-- R422: the run has ended. -/
def State.ended (s : State) : Bool := decide (s.run ≠ .running)

/-- R422: a successful end: `Halted(0)`. -/
def State.succeeded (s : State) : Bool := decide (s.run = .halted 0)

/-- R422: a failure the program chose: `Halted(c)` with `c ≠ 0`. -/
def State.programFailed (s : State) : Bool :=
  match s.run with
  | .halted code => decide (code ≠ 0)
  | _ => false

/-- R422: an end in a machine fault. -/
def State.isFaulted (s : State) : Bool :=
  match s.run with
  | .faulted _ => true
  | _ => false

/-- R422: a safe state: the run has not ended in a machine fault. -/
def State.safe (s : State) : Bool := !s.isFaulted

/-- R43, R44, R404: the fault record is there exactly in Faulted, with its kind and with `pc` and the counters at the
values the state still has (R403, R405). -/
def State.faultMatchesRun (s : State) : Prop :=
  match s.run with
  | .faulted kind =>
    ∃ addr, s.fault = some { kind := kind, pc := s.pc, dataAddr := addr, cycles := s.cycles, icount := s.icount }
  | _ => s.fault = none

/-- The invariant: the data memory is canonical and holds only storage bytes (R74, R83); instruction memory is shorter
than 2^64 bytes (R37); the fault record matches the run state; `icount` counts the trace and `cycles` is the sum of
its costs (R40, R41, R462). -/
structure State.Inv (s : State) : Prop where
  memCanonical : s.mem.wf = true
  memOnStorage : ∀ cell ∈ s.mem, s.isStorage cell.1 = true
  imemBounded : s.imem.length < 2 ^ 64
  faultRecord : s.faultMatchesRun
  icountIsTrace : s.icount = s.trace.length
  cyclesIsTrace : s.cycles = (s.trace.map fun t => cycleCost t.mnemonic).sum

end Sys2Proof.Machine
end

