-- ==== Sys2Proof/Certificates/Slice0/Obligations.lean ====
section
/-! DEFINITION. The statements for the provers, and the words they are written in (`Sys2Proof.Spec`): frames, admission,
and the reading of a header, said from the spec's rules in integers and through the model's reads of one register and one
byte. "Derived" statements rest on decisions the spec marks as its own (D<n> of 92_eei_decisions.md) or on the log
entries named. -/

namespace Sys2Proof.Spec

open Sys2Proof.Machine

/-! ## Frames -/

/-- Every register but those listed is unchanged. -/
def RegsBut (s t : State) (written : List Reg) : Prop := ∀ x, x ∉ written → t.reg x = s.reg x

/-- Every byte of data memory reads as before. -/
def SameMemory (s t : State) : Prop := ∀ x, t.readByte x = s.readByte x

/-- The call stack is unchanged. -/
def SameStack (s t : State) : Prop := t.callStack = s.callStack

/-- The input position and the output are unchanged. -/
def SameStreams (s t : State) : Prop := t.inpos = s.inpos ∧ t.out = s.out

/-- The run state and the fault record are unchanged. -/
def SameRun (s t : State) : Prop := t.run = s.run ∧ t.fault = s.fault

/-- Instruction memory, the provisioned set and the host's answers are unchanged. -/
def SameHost (s t : State) : Prop := t.imem = s.imem ∧ t.provisioned = s.provisioned ∧ t.answers = s.answers

/-- The counter of `rand`'s free value is unchanged. -/
def SameDraws (s t : State) : Prop := t.randDraws = s.randDraws

/-- R35(a): `pc` moves to the instruction that follows. -/
def GoesOn (i : Instr) (s t : State) : Prop := t.pc = s.pc + BitVec.ofNat 64 i.length

/-- The instruction goes on and changes nothing but the listed registers (and the counters and trace of its commit). -/
def RegisterOnly (i : Instr) (s t : State) (written : List Reg) : Prop :=
  GoesOn i s t ∧ RegsBut s t written ∧ SameMemory s t ∧ SameStack s t ∧ SameStreams s t ∧ SameRun s t ∧
    SameHost s t ∧ SameDraws s t

/-- R403, R404: the fault `kind`, with its record, and no other change. -/
def Faults (s t : State) (kind : FaultKind) (dataAddr : Option Word) : Prop :=
  t.run = .faulted kind ∧
  t.fault = some { kind := kind, pc := s.pc, dataAddr := dataAddr, cycles := s.cycles, icount := s.icount } ∧
  t.pc = s.pc ∧ t.cycles = s.cycles ∧ t.icount = s.icount ∧ t.trace = s.trace ∧
  RegsBut s t [] ∧ SameMemory s t ∧ SameStack s t ∧ SameStreams s t ∧ SameHost s t ∧ SameDraws s t

/-- The instruction is of format STD with this mnemonic, and its five slots hold these operands, slot 0 first. -/
def IsStd (i : Instr) (op : StdOp) (slots : List Operand) : Prop := i.mnemonic = .std op ∧ i.slots = slots

/-! ## Memory -/

/-- R74: an access of `n` bytes at `addr` is admitted. -/
def Admitted (s : State) (addr : Word) (n : Nat) : Prop :=
  ∀ k < n, addr.toNat + k ≤ 2 ^ 64 - 1 ∧ addr.toNat + k ≠ 0xFFFFFFFFFFFFFFFF ∧
    ∃ region ∈ s.provisioned, region.base ≤ addr.toNat + k ∧ addr.toNat + k < region.base + region.size

/-- R72: the number in the `n` little-endian bytes at `addr`. -/
def valueAt (s : State) (addr : Word) (n : Nat) : Nat :=
  ∑ k ∈ Finset.range n, (s.readByte (addr.toNat + k)).toNat * 256 ^ k

/-- A load completes: `r` gets the zero-extended bytes, and nothing else changes. -/
def LoadsUnsigned (i : Instr) (s : State) (r : Reg) (addr : Word) (n : Nat) : Prop :=
  ∃ t, exec i s = .next t ∧ (t.reg r).toNat = valueAt s addr n ∧ RegisterOnly i s t [r]

/-- A load completes: `r` gets the sign-extended bytes, and nothing else changes. -/
def LoadsSigned (i : Instr) (s : State) (r : Reg) (addr : Word) (n : Nat) : Prop :=
  ∃ t, exec i s = .next t ∧
    (t.reg r).toInt = (if valueAt s addr n < 2 ^ (8 * n - 1) then (valueAt s addr n : Int)
      else valueAt s addr n - 2 ^ (8 * n)) ∧
    RegisterOnly i s t [r]

/-- A store completes: the `n` bytes at `addr` get the low bytes of `v`, little-endian, and nothing else changes. -/
def Stores (i : Instr) (s : State) (addr : Word) (n : Nat) (v : Word) : Prop :=
  ∃ t, exec i s = .next t ∧
    (∀ k < n, (t.readByte (addr.toNat + k)).toNat = v.toNat / 256 ^ k % 256) ∧
    (∀ x, ¬ (addr.toNat ≤ x ∧ x < addr.toNat + n) → t.readByte x = s.readByte x) ∧
    GoesOn i s t ∧ RegsBut s t [] ∧ SameStack s t ∧ SameStreams s t ∧ SameRun s t ∧ SameHost s t ∧ SameDraws s t

/-- The instruction ends in the fault. -/
def EndsInFault (i : Instr) (s : State) (kind : FaultKind) (dataAddr : Option Word) : Prop :=
  ∃ t, exec i s = .next t ∧ Faults s t kind dataAddr

/-! ## Headers in instruction memory -/

/-- The byte of instruction memory `k` after `pc`. -/
def byteAt (s : State) (k : Nat) : Byte := (s.imem[s.pc.toNat + k]?).getD 0

/-- R110: the 32-bit header at `pc`, little-endian. -/
def headerAt (s : State) : BitVec 32 :=
  BitVec.ofNat 32 ((byteAt s 0).toNat + 2 ^ 8 * (byteAt s 1).toNat + 2 ^ 16 * (byteAt s 2).toNat +
    2 ^ 24 * (byteAt s 3).toNat)

/-- R111: the opcode id at `pc`. -/
def opcodeAt (s : State) : Nat := (headerAt s).toNat % 2 ^ 7

/-- R111: the kind code of slot `k` at `pc`. -/
def codeAt (s : State) (k : Nat) : Nat := (headerAt s).toNat / 2 ^ (7 + 5 * k) % 2 ^ 5

/-- R113: `w(c)`. -/
def codeWidth (c : Nat) : Nat := if c = 1 then 1 else if c = 2 then 2 else if c = 3 then 4 else if c = 4 then 8 else 0

/-- R115: the length of the STD instruction whose header is at `pc`. -/
def lengthAt (s : State) : Nat :=
  4 + codeWidth (codeAt s 0) + codeWidth (codeAt s 1) + codeWidth (codeAt s 2) + codeWidth (codeAt s 3) +
    codeWidth (codeAt s 4)

/-- R117: how many destination slots a mnemonic has, from slot 0 on. -/
def destCount : StdOp → Nat
  | .mul | .mulu | .div | .divu => 2
  | .sb | .ss | .si | .sw | .call | .jz | .jnz | .halt => 0
  | _ => 1

/-- R117: how many source slots a mnemonic has, after its destination slots. -/
def sourceCount : StdOp → Nat
  | .rand => 0
  | .not | .lb | .lbu | .ls | .lsu | .li | .liu | .lw | .call | .halt => 1
  | _ => 2

/-- The byte `n + OPC(op)`. -/
def opcodeByte (n : Nat) (op : StdOp) : Byte := BitVec.ofNat 8 (n + opcodeId op)

/-- An unused slot as the assembler writes it (R120). -/
def none0 : Operand := .imm .w0 0

/-- R35(b), (c): the instruction leaves the line of instructions: `call`, `halt`, and a conditional jump that is taken. -/
def JumpsOrHalts (i : Instr) (op : StdOp) (s : State) : Prop :=
  op = .call ∨ op = .halt ∨
    ∃ tested, i.slots[1]? = some tested ∧ (op = .jz ∧ s.value tested = 0 ∨ op = .jnz ∧ s.value tested ≠ 0)

/-- R421: the traces agree in everything but the operand values. -/
def TracedAlike (t t' : State) : Prop :=
  t.trace.map (fun r => (r.addr, r.mnemonic, r.cycles)) = t'.trace.map (fun r => (r.addr, r.mnemonic, r.cycles))

/-! ## Straight-line runs -/

/-- The outcome of executing instructions one after another. -/
def runAll : List Instr → State → Result
  | [], s => .next s
  | i :: is, s =>
    match exec i s with
    | .next t => runAll is t
    | .fault r => .fault r
    | .refused r => .refused r

/-- R132: the instruction commits: the engine was running, the meaning answers this next state, and it is not Faulted. -/
def Commits (i : Instr) (s t : State) : Prop :=
  s.run = .running ∧ exec i s = .next t ∧ ∀ kind, t.run ≠ .faulted kind

end Sys2Proof.Spec

open Sys2Proof Sys2Proof.Machine Sys2Proof.Spec

/-! ## Reset and load -/

/-- R33: the registers at program start. -/
def Obligations.ResetRegistersAreZeroButTheStackPointer : Prop :=
  (∀ x : Reg, x ≠ 25 → State.reset.reg x = 0) ∧ State.reset.reg 25 = 0x1000000000000000#64

/-- Derived (70_reset_and_hazards.md §1 .. §3, 60_exceptions.md §5; D4 .. D6, D17, D18, D20, D23): what a load leaves. The
bytes outside the data section hold the open P_INIT_MEM (log entry 4). The empty trace is the model's choice (log entry 9),
and so is the form of the provisioned set and the answers, which the host gives (log entries 3 and 5). -/
def Obligations.LoadPlacesTheImageAndSetsTheResetState : Prop :=
  ∀ (image : List Byte) (provisioned : List Region) (answers : List (Option Byte)) (s : State),
    load image provisioned answers = some s →
    let L := leNat (image.take 4)
    4 + L ≤ image.length ∧ s.imem = image.drop (4 + L) ∧
    (∀ k < L, some (s.readByte (0x2000000000000000 + k)) = image[4 + k]?) ∧
    (∀ x, ¬ (0x2000000000000000 ≤ x ∧ x < 0x2000000000000000 + L) → s.readByte x = Config.initMem x) ∧
    (∀ x : Reg, x ≠ 25 → s.reg x = 0) ∧ s.reg 25 = 0x1000000000000000#64 ∧
    s.pc = 0 ∧ s.cycles = 0 ∧ s.icount = 0 ∧ s.callStack = [] ∧ s.run = .running ∧ s.fault = none ∧
    s.inpos = 0 ∧ s.out = [] ∧ s.trace = [] ∧ s.provisioned = provisioned ∧ s.answers = answers

/-- Derived (70_reset_and_hazards.md §1, §3; D17, D31; log entry 11): which loads start the engine. -/
def Obligations.LoadStartsExactlyTheValidImages : Prop :=
  ∀ (image : List Byte) (provisioned : List Region) (answers : List (Option Byte)),
    (∃ s, load image provisioned answers = some s) ↔
      4 ≤ image.length ∧ 4 + leNat (image.take 4) ≤ image.length ∧
      image.length < 2 ^ 64 + (4 + leNat (image.take 4)) ∧
      ∀ k < leNat (image.take 4), ∃ region ∈ provisioned,
        region.base ≤ 0x2000000000000000 + k ∧ 0x2000000000000000 + k < region.base + region.size

/-- Derived (70_reset_and_hazards.md §1, §2; log entry 10): the model's reset state is the one the empty image gives. -/
def Obligations.EmptyImageLoadsTheResetState : Prop := load [0, 0, 0, 0] Config.provisioned [] = some State.reset

/-! ## Encoding -/

/-- Derived (30_encoding.md §1 .. §4; D1, D2): decoding the bytes of a well-formed instruction gives it back, whatever
follows them and whatever the opcode map. -/
def Obligations.DecodeOfEncodeIsTheInstruction : Prop :=
  ∀ (ids : Equiv.Perm (Fin 35)) (i : Instr) (rest : List Byte),
    i.wf = true → decodeWith ids (encodeWith ids i ++ rest) = .ok i

/-- Derived (30_encoding.md §1 .. §4; D1, D2): what decodes is well-formed, and its encoding is the bytes it was read from;
so bytes have one meaning at most. -/
def Obligations.EncodeOfDecodeIsTheBytesRead : Prop :=
  ∀ (ids : Equiv.Perm (Fin 35)) (bytes : List Byte) (i : Instr),
    decodeWith ids bytes = .ok i → i.wf = true ∧ ∃ rest, bytes = encodeWith ids i ++ rest

/-- Derived (30_encoding.md §1, 95_test_vectors.md §2, §4; D1, D7): words written out from the spec's encoding, with the
open opcode id in the first byte, decode to the instructions they stand for. -/
def Obligations.HandWrittenWordsDecodeToTheirInstructions : Prop :=
  decode [opcodeByte 0x80 .add, 0x52, 0x02, 0x00, 0x01] =
    .ok (.add 0 (.reg 0) (.imm .w1 1) none0 none0) ∧
  decode [opcodeByte 0x80 .mul, 0x62, 0x42, 0x00, 0xFF, 0xFF] =
    .ok (.mul 0 1 (.imm .w1 (-1)) (.imm .w1 (-1)) none0) ∧
  decode [opcodeByte 0x80 .div, 0x6A, 0x0B, 0x00] = .ok (.div 16 17 (.reg 0) none0 none0) ∧
  decode [opcodeByte 0x00 .cmp, 0x53, 0x02, 0x00, 0xFF] =
    .ok (.cmp 1 (.reg 0) (.imm .w1 (-1)) none0 none0) ∧
  decode [opcodeByte 0x00 .shl, 0x47, 0x02, 0x00, 0x01, 0, 0, 0, 0, 0, 0, 0x80, 0xFF] =
    .ok (.shl 9 (.imm .w8 0x8000000000000001#64) (.imm .w1 (-1)) none0 none0) ∧
  decode [opcodeByte 0x80 .lw, 0x12, 0x00, 0x00, 0xFF] =
    .ok (.lw 0 (.imm .w1 (-1)) none0 none0 none0) ∧
  decode [opcodeByte 0x00 .sw, 0x4F, 0x00, 0x00, 0x88, 0x77, 0x66, 0x55, 0x44, 0x33, 0x22, 0x11] =
    .ok (.sw (.reg 25) (.imm .w8 0x1122334455667788#64) none0 none0 none0) ∧
  decode [opcodeByte 0x80 .jnz, 0x50, 0x00, 0x00, 0x09] =
    .ok (.jnz (.imm .w1 9) (.reg 0) none0 none0 none0) ∧
  decode [0xFF, 0xFD, 0xFF, 0xFF] = .ok (.ret 0x1FFFFFB#25)

/-- Derived (30_encoding.md §1; D9 for code 31, which D9 leaves without a meaning): what each of the 32 kind codes stands
for, the bytes each immediate kind takes, and the value it gives them. -/
def Obligations.ImmediateBytesReadAsTheirKindSays : Prop :=
  Kind.ofCode 0 = some (.imm .w0) ∧ Kind.ofCode 1 = some (.imm .w1) ∧ Kind.ofCode 2 = some (.imm .w2) ∧
  Kind.ofCode 3 = some (.imm .w4) ∧ Kind.ofCode 4 = some (.imm .w8) ∧
  (∀ r : Reg, Kind.ofCode (BitVec.ofNat 5 (r.val + 5)) = some (.reg r)) ∧ Kind.ofCode 31 = none ∧
  ∀ (rest : List Byte) (b0 b1 b2 b3 b4 b5 b6 b7 : Byte),
    readOperand (.imm .w0) rest = some (.imm .w0 0, rest) ∧
    readOperand (.imm .w1) (b0 :: rest) = some (.imm .w1 (b0.signExtend 64), rest) ∧
    readOperand (.imm .w2) (b0 :: b1 :: rest) = some (.imm .w2 ((b1 ++ b0).signExtend 64), rest) ∧
    readOperand (.imm .w4) (b0 :: b1 :: b2 :: b3 :: rest) =
      some (.imm .w4 ((b3 ++ b2 ++ b1 ++ b0).signExtend 64), rest) ∧
    readOperand (.imm .w8) (b0 :: b1 :: b2 :: b3 :: b4 :: b5 :: b6 :: b7 :: rest) =
      some (.imm .w8 (b7 ++ b6 ++ b5 ++ b4 ++ b3 ++ b2 ++ b1 ++ b0), rest)

/-! ## Fetch and step -/

/-- Derived (30_encoding.md §4): a running engine whose bytes at `pc` decode to an instruction runs that instruction, and
nothing is added around it: the commit is part of the meaning. -/
def Obligations.StepRunsTheDecodedInstruction : Prop :=
  ∀ (s : State) (i : Instr), s.run = .running → decode (s.imem.drop s.pc.toNat) = .ok i → step s = exec i s

/-- Derived (30_encoding.md §1 .. §4; D1): wherever a well-formed instruction's encoding stands in instruction memory, a
running engine whose `pc` is there runs it. -/
def Obligations.StepRunsTheInstructionEncodedAtPc : Prop :=
  ∀ (s : State) (before after : List Byte) (i : Instr),
    s.run = .running → i.wf = true → s.imem = before ++ encode i ++ after → s.pc.toNat = before.length →
    step s = exec i s

/-- Derived (30_encoding.md §4, 60_exceptions.md §1; D4, D5, D21, D28): a header or an immediate that lies outside
instruction memory faults. -/
def Obligations.FetchOutsideInstructionMemoryFaults : Prop :=
  ∀ s : State, s.run = .running →
    (s.imem.length < s.pc.toNat + 4 → ∃ t, step s = .next t ∧ Faults s t .outOfBoundsExecution none) ∧
    (s.pc.toNat + 4 ≤ s.imem.length → opcodeAt s < 0x23 → (∀ k < 5, codeAt s k ≠ 31) →
      s.imem.length < s.pc.toNat + lengthAt s → ∃ t, step s = .next t ∧ Faults s t .outOfBoundsExecution none)

/-- Derived (30_encoding.md §3 .. §5; D9, D28): an opcode id from 0x23 to 0x7e is refused. -/
def Obligations.UndefinedOpcodesAreRefused : Prop :=
  ∀ s : State, s.run = .running → s.pc.toNat + 4 ≤ s.imem.length → 0x23 ≤ opcodeAt s → opcodeAt s ≤ 0x7e →
    step s = .refused (.undefinedOpcode s.pc (BitVec.ofNat 7 (opcodeAt s)))

/-- Derived (30_encoding.md §1, §4, §5; D9, D28; log entry 16 for the first slot): kind code 31 is refused, whether or not
the immediates lie in instruction memory. -/
def Obligations.KindCode31IsRefused : Prop :=
  ∀ (s : State) (k : Nat), s.run = .running → s.pc.toNat + 4 ≤ s.imem.length → opcodeAt s < 0x23 → k < 5 →
    codeAt s k = 31 → (∀ j < k, codeAt s j ≠ 31) → step s = .refused (.undefinedKindCode s.pc k)

/-- Derived (30_encoding.md §2, §4, §5; D7, D8, D28; log entry 16 for the first slot): an immediate code in a destination
slot is refused. -/
def Obligations.ImmediateDestinationsAreRefused : Prop :=
  ∀ (s : State) (op : StdOp) (k : Nat), s.run = .running → opcodeAt s = opcodeId op → k < destCount op →
    (∀ j < 5, codeAt s j ≠ 31) → s.pc.toNat + 4 ≤ s.imem.length → s.pc.toNat + lengthAt s ≤ s.imem.length →
    codeAt s k < 5 → (∀ j < k, 5 ≤ codeAt s j) → step s = .refused (.immediateDestination s.pc k)

/-- Derived (60_exceptions.md §1; D32; log entry 7): from Halted and Faulted no step is taken. -/
def Obligations.TerminalStatesTakeNoStep : Prop :=
  ∀ s : State,
    (∀ code, s.run = .halted code → step s = .fault (.alreadyHalted code)) ∧
    (∀ kind, s.run = .faulted kind → step s = .fault (.alreadyFaulted kind))

/-! ## Arithmetic and logic -/

/-- R200, R201. -/
def Obligations.AddAndSubWriteTheWrappedResult : Prop :=
  ∀ (r : Reg) (a b u3 u4 : Operand) (s : State),
    (IsStd (.add r a b u3 u4) .add [.reg r, a, b, u3, u4] ∧
      ∃ t, exec (.add r a b u3 u4) s = .next t ∧
        (t.reg r).toNat = ((s.value a).toNat + (s.value b).toNat) % 2 ^ 64 ∧
        RegisterOnly (.add r a b u3 u4) s t [r]) ∧
    (IsStd (.sub r a b u3 u4) .sub [.reg r, a, b, u3, u4] ∧
      ∃ t, exec (.sub r a b u3 u4) s = .next t ∧
        ((t.reg r).toNat : Int) = ((s.value a).toNat - (s.value b).toNat : Int) % 2 ^ 64 ∧
        RegisterOnly (.sub r a b u3 u4) s t [r])

/-- R202, R203, R204: bit by bit. -/
def Obligations.OrXorAndWorkBitByBit : Prop :=
  ∀ (r : Reg) (a b u3 u4 : Operand) (s : State),
    (IsStd (.or r a b u3 u4) .or [.reg r, a, b, u3, u4] ∧
      ∃ t, exec (.or r a b u3 u4) s = .next t ∧
        (∀ k < 64, (t.reg r).getLsbD k = ((s.value a).getLsbD k || (s.value b).getLsbD k)) ∧
        RegisterOnly (.or r a b u3 u4) s t [r]) ∧
    (IsStd (.xor r a b u3 u4) .xor [.reg r, a, b, u3, u4] ∧
      ∃ t, exec (.xor r a b u3 u4) s = .next t ∧
        (∀ k < 64, (t.reg r).getLsbD k = ((s.value a).getLsbD k ^^ (s.value b).getLsbD k)) ∧
        RegisterOnly (.xor r a b u3 u4) s t [r]) ∧
    (IsStd (.and r a b u3 u4) .and [.reg r, a, b, u3, u4] ∧
      ∃ t, exec (.and r a b u3 u4) s = .next t ∧
        (∀ k < 64, (t.reg r).getLsbD k = ((s.value a).getLsbD k && (s.value b).getLsbD k)) ∧
        RegisterOnly (.and r a b u3 u4) s t [r])

/-- Derived (40_arith_logic.md; D7 for the operand shape): `not` complements every bit, which is -1 - a. -/
def Obligations.NotComplementsEveryBit : Prop :=
  ∀ (r : Reg) (a u2 u3 u4 : Operand) (s : State),
    ∃ t, exec (.not r a u2 u3 u4) s = .next t ∧
      (∀ k < 64, (t.reg r).getLsbD k = !(s.value a).getLsbD k) ∧
      (t.reg r).toNat = 2 ^ 64 - 1 - (s.value a).toNat ∧
      RegisterOnly (.not r a u2 u3 u4) s t [r]

/-! ## Multiply and divide -/

/-- R220, R221: the two halves of the product. -/
def Obligations.MultiplyWritesLowThenHighHalf : Prop :=
  ∀ (r q : Reg) (a b u4 : Operand) (s : State), r ≠ q →
    (IsStd (.mul r q a b u4) .mul [.reg r, .reg q, a, b, u4] ∧
      ∃ t, exec (.mul r q a b u4) s = .next t ∧
        ((t.reg r).toNat : Int) = (s.value a).toInt * (s.value b).toInt % 2 ^ 64 ∧
        ((t.reg q).toNat : Int) = (s.value a).toInt * (s.value b).toInt / 2 ^ 64 % 2 ^ 64 ∧
        RegisterOnly (.mul r q a b u4) s t [r, q]) ∧
    (IsStd (.mulu r q a b u4) .mulu [.reg r, .reg q, a, b, u4] ∧
      ∃ t, exec (.mulu r q a b u4) s = .next t ∧
        (t.reg r).toNat = (s.value a).toNat * (s.value b).toNat % 2 ^ 64 ∧
        (t.reg q).toNat = (s.value a).toNat * (s.value b).toNat / 2 ^ 64 ∧
        RegisterOnly (.mulu r q a b u4) s t [r, q])

/-- Derived (41_multiply_divide.md R219; D12): where both slots name one register, slot 1's write stands: the high half, or
the remainder. -/
def Obligations.NamingOneRegisterTwiceKeepsTheSecondWrite : Prop :=
  ∀ (r : Reg) (a b u4 : Operand) (s : State),
    (∃ t, exec (.mul r r a b u4) s = .next t ∧
      ((t.reg r).toNat : Int) = (s.value a).toInt * (s.value b).toInt / 2 ^ 64 % 2 ^ 64 ∧
      RegisterOnly (.mul r r a b u4) s t [r]) ∧
    (∃ t, exec (.mulu r r a b u4) s = .next t ∧
      (t.reg r).toNat = (s.value a).toNat * (s.value b).toNat / 2 ^ 64 ∧
      RegisterOnly (.mulu r r a b u4) s t [r]) ∧
    (s.value b ≠ 0 →
      (∃ t, exec (.div r r a b u4) s = .next t ∧
        (t.reg r).toInt = (s.value a).toInt - (s.value b).toInt * Int.fdiv (s.value a).toInt (s.value b).toInt ∧
        RegisterOnly (.div r r a b u4) s t [r]) ∧
      (∃ t, exec (.divu r r a b u4) s = .next t ∧
        (t.reg r).toNat = (s.value a).toNat % (s.value b).toNat ∧
        RegisterOnly (.divu r r a b u4) s t [r]))

/-- Derived (41_multiply_divide.md): the two registers together are the exact product: nothing overflows. -/
def Obligations.ProductHalvesAreTheExactProduct : Prop :=
  ∀ (r q : Reg) (a b u4 : Operand) (s t : State), r ≠ q →
    (exec (.mul r q a b u4) s = .next t →
      (t.reg q).toInt * 2 ^ 64 + (t.reg r).toNat = (s.value a).toInt * (s.value b).toInt) ∧
    (exec (.mulu r q a b u4) s = .next t →
      (t.reg q).toNat * 2 ^ 64 + (t.reg r).toNat = (s.value a).toNat * (s.value b).toNat)

/-- Derived (41_multiply_divide.md; D12, D13): signed floor division for a divisor other than zero: the remainder has the
divisor's sign, and the quotient wraps (which only -2^63 / -1 needs). -/
def Obligations.SignedDivisionRoundsTowardNegativeInfinity : Prop :=
  ∀ (r q : Reg) (a b u4 : Operand) (s : State), s.value b ≠ 0 →
    ∃ t, exec (.div r q a b u4) s = .next t ∧
      (∃ k : Int, k * (s.value b).toInt + (t.reg q).toInt = (s.value a).toInt ∧
        (r ≠ q → ((t.reg r).toNat : Int) = k % 2 ^ 64)) ∧
      (0 < (s.value b).toInt → 0 ≤ (t.reg q).toInt ∧ (t.reg q).toInt < (s.value b).toInt) ∧
      ((s.value b).toInt < 0 → (s.value b).toInt < (t.reg q).toInt ∧ (t.reg q).toInt ≤ 0) ∧
      RegisterOnly (.div r q a b u4) s t [r, q]

/-- R223: unsigned truncating division, and the fault on a zero divisor, which writes nothing. -/
def Obligations.UnsignedDivisionTruncatesOrFaults : Prop :=
  ∀ (r q : Reg) (a b u4 : Operand) (s : State), r ≠ q →
    IsStd (.divu r q a b u4) .divu [.reg r, .reg q, a, b, u4] ∧
    (s.value b ≠ 0 →
      ∃ t, exec (.divu r q a b u4) s = .next t ∧
        (t.reg r).toNat = (s.value a).toNat / (s.value b).toNat ∧
        (t.reg q).toNat = (s.value a).toNat % (s.value b).toNat ∧
        RegisterOnly (.divu r q a b u4) s t [r, q]) ∧
    (s.value b = 0 →
      ∃ t, exec (.divu r q a b u4) s = .next t ∧ t.run = .faulted .divisionByZero ∧
        (∃ record, t.fault = some record ∧ record.kind = .divisionByZero ∧ record.pc = s.pc) ∧
        RegsBut s t [] ∧ SameMemory s t)

/-- Derived (41_multiply_divide.md, 60_exceptions.md §1; D4, D5, D21): a zero divisor ends `div` and `divu` in the fault,
with its record and no partial effect. -/
def Obligations.DivisionByZeroFaultsWithoutEffect : Prop :=
  ∀ (r q : Reg) (a b u4 : Operand) (s : State), s.value b = 0 →
    EndsInFault (.div r q a b u4) s .divisionByZero none ∧ EndsInFault (.divu r q a b u4) s .divisionByZero none

/-! ## Compare -/

/-- Derived (42_compare.md; D11 for the relations): each comparison writes 1 where its relation holds and 0 elsewhere. -/
def Obligations.ComparisonsWriteOneOrZero : Prop :=
  ∀ (r : Reg) (a b u3 u4 : Operand) (s : State),
    (∃ t, exec (.cmp r a b u3 u4) s = .next t ∧
      (t.reg r).toNat = (if (s.value a).toNat = (s.value b).toNat then 1 else 0) ∧
      RegisterOnly (.cmp r a b u3 u4) s t [r]) ∧
    (∃ t, exec (.neq r a b u3 u4) s = .next t ∧
      (t.reg r).toNat = (if (s.value a).toNat = (s.value b).toNat then 0 else 1) ∧
      RegisterOnly (.neq r a b u3 u4) s t [r]) ∧
    (∃ t, exec (.le r a b u3 u4) s = .next t ∧
      (t.reg r).toNat = (if (s.value a).toInt < (s.value b).toInt then 1 else 0) ∧
      RegisterOnly (.le r a b u3 u4) s t [r]) ∧
    (∃ t, exec (.leq r a b u3 u4) s = .next t ∧
      (t.reg r).toNat = (if (s.value b).toInt < (s.value a).toInt then 0 else 1) ∧
      RegisterOnly (.leq r a b u3 u4) s t [r]) ∧
    (∃ t, exec (.leu r a b u3 u4) s = .next t ∧
      (t.reg r).toNat = (if (s.value a).toNat < (s.value b).toNat then 1 else 0) ∧
      RegisterOnly (.leu r a b u3 u4) s t [r]) ∧
    (∃ t, exec (.lequ r a b u3 u4) s = .next t ∧
      (t.reg r).toNat = (if (s.value b).toNat < (s.value a).toNat then 0 else 1) ∧
      RegisterOnly (.lequ r a b u3 u4) s t [r])

/-! ## Shift -/

/-- Derived (43_shift.md; D14 for the count -2^63): a shift by the signed count, unrestricted: left multiplies by 2^n and
wraps, logical right divides the unsigned value, arithmetic right floors the signed value; a negative count shifts the other
way (`sar`'s other way is `shl`). The amounts of 64 and more are not special here: the formulas give R259's values. -/
def Obligations.ShiftsFollowTheSignedCount : Prop :=
  ∀ (r : Reg) (a b u3 u4 : Operand) (s : State),
    let n := (s.value b).toInt
    let left := (s.value a).toNat * 2 ^ n.natAbs % 2 ^ 64
    let right := (s.value a).toNat / 2 ^ n.natAbs
    (∃ t, exec (.shl r a b u3 u4) s = .next t ∧ (t.reg r).toNat = (if 0 ≤ n then left else right) ∧
      RegisterOnly (.shl r a b u3 u4) s t [r]) ∧
    (∃ t, exec (.shr r a b u3 u4) s = .next t ∧ (t.reg r).toNat = (if 0 ≤ n then right else left) ∧
      RegisterOnly (.shr r a b u3 u4) s t [r]) ∧
    (∃ t, exec (.sar r a b u3 u4) s = .next t ∧
      (0 ≤ n → (t.reg r).toInt = (s.value a).toInt / 2 ^ n.natAbs) ∧ (n < 0 → (t.reg r).toNat = left) ∧
      RegisterOnly (.sar r a b u3 u4) s t [r])

/-! ## Load and store -/

/-- Derived (44_load_store.md, 20_memory.md §2, §3; D15, D16): an admitted load writes the little-endian bytes, sign- or
zero-extended, to the whole destination. -/
def Obligations.AdmittedLoadsWriteTheExtendedBytes : Prop :=
  ∀ (r : Reg) (a u2 u3 u4 : Operand) (s : State),
    (Admitted s (s.value a) 1 → LoadsSigned (.lb r a u2 u3 u4) s r (s.value a) 1) ∧
    (Admitted s (s.value a) 1 → LoadsUnsigned (.lbu r a u2 u3 u4) s r (s.value a) 1) ∧
    (Admitted s (s.value a) 2 → LoadsSigned (.ls r a u2 u3 u4) s r (s.value a) 2) ∧
    (Admitted s (s.value a) 2 → LoadsUnsigned (.lsu r a u2 u3 u4) s r (s.value a) 2) ∧
    (Admitted s (s.value a) 4 → LoadsSigned (.li r a u2 u3 u4) s r (s.value a) 4) ∧
    (Admitted s (s.value a) 4 → LoadsUnsigned (.liu r a u2 u3 u4) s r (s.value a) 4) ∧
    (Admitted s (s.value a) 8 → LoadsUnsigned (.lw r a u2 u3 u4) s r (s.value a) 8)

/-- Derived (44_load_store.md, 20_memory.md §2, §3; D15, D16, D25): an admitted store writes exactly its bytes. -/
def Obligations.AdmittedStoresWriteExactlyTheirBytes : Prop :=
  ∀ (a b u2 u3 u4 : Operand) (s : State),
    (Admitted s (s.value a) 1 → Stores (.sb a b u2 u3 u4) s (s.value a) 1 (s.value b)) ∧
    (Admitted s (s.value a) 2 → Stores (.ss a b u2 u3 u4) s (s.value a) 2 (s.value b)) ∧
    (Admitted s (s.value a) 4 → Stores (.si a b u2 u3 u4) s (s.value a) 4 (s.value b)) ∧
    (Admitted s (s.value a) 8 → Stores (.sw a b u2 u3 u4) s (s.value a) 8 (s.value b))

/-- Derived (44_load_store.md, 20_memory.md §3, §4, 60_exceptions.md §1; D4, D5, D16, D21): an access that is not admitted
faults with the effective address and without any effect; only `lw` and `sw` are let through at the I/O cell. -/
def Obligations.AccessesNotAdmittedFault : Prop :=
  ∀ (r : Reg) (a b u2 u3 u4 : Operand) (s : State),
    (¬ Admitted s (s.value a) 1 →
      EndsInFault (.lb r a u2 u3 u4) s .invalidMemoryAccess (some (s.value a)) ∧
      EndsInFault (.lbu r a u2 u3 u4) s .invalidMemoryAccess (some (s.value a)) ∧
      EndsInFault (.sb a b u2 u3 u4) s .invalidMemoryAccess (some (s.value a))) ∧
    (¬ Admitted s (s.value a) 2 →
      EndsInFault (.ls r a u2 u3 u4) s .invalidMemoryAccess (some (s.value a)) ∧
      EndsInFault (.lsu r a u2 u3 u4) s .invalidMemoryAccess (some (s.value a)) ∧
      EndsInFault (.ss a b u2 u3 u4) s .invalidMemoryAccess (some (s.value a))) ∧
    (¬ Admitted s (s.value a) 4 →
      EndsInFault (.li r a u2 u3 u4) s .invalidMemoryAccess (some (s.value a)) ∧
      EndsInFault (.liu r a u2 u3 u4) s .invalidMemoryAccess (some (s.value a)) ∧
      EndsInFault (.si a b u2 u3 u4) s .invalidMemoryAccess (some (s.value a))) ∧
    (¬ Admitted s (s.value a) 8 → s.value a ≠ 0xFFFFFFFFFFFFFFFF#64 →
      EndsInFault (.lw r a u2 u3 u4) s .invalidMemoryAccess (some (s.value a)) ∧
      EndsInFault (.sw a b u2 u3 u4) s .invalidMemoryAccess (some (s.value a)))

/-- Derived (20_memory.md §4; D16 for the accesses that would only cover the cell, D19, D20): the I/O cell accepts only `lw`
and `sw`, exactly at it. -/
def Obligations.TheIoCellAcceptsOnlyLwAndSw : Prop :=
  ∀ (r : Reg) (a b u2 u3 u4 : Operand) (s : State),
    (s.value a = 0xFFFFFFFFFFFFFFFF#64 →
      (∃ t, exec (.lw r a u2 u3 u4) s = .next t ∧ SameRun s t ∧ t.inpos = s.inpos + 1) ∧
      (∃ t, exec (.sw a b u2 u3 u4) s = .next t ∧ SameRun s t ∧ t.out = s.out ++ [(s.value b).extractLsb' 0 8]) ∧
      (∀ i ∈ [Instr.lb r a u2 u3 u4, .lbu r a u2 u3 u4, .ls r a u2 u3 u4, .lsu r a u2 u3 u4, .li r a u2 u3 u4,
          .liu r a u2 u3 u4, .sb a b u2 u3 u4, .ss a b u2 u3 u4, .si a b u2 u3 u4],
        ∃ t, exec i s = .next t ∧ t.run = .faulted .invalidMemoryAccess ∧ SameStreams s t)) ∧
    (s.value a ≠ 0xFFFFFFFFFFFFFFFF#64 →
      (∀ i ∈ [Instr.lw r a u2 u3 u4, .sw a b u2 u3 u4], (s.value a).toNat + 8 > 0xFFFFFFFFFFFFFFFF →
        ∃ t, exec i s = .next t ∧ t.run = .faulted .invalidMemoryAccess ∧ SameStreams s t) ∧
      (∀ i ∈ [Instr.li r a u2 u3 u4, .liu r a u2 u3 u4, .si a b u2 u3 u4],
        (s.value a).toNat + 4 > 0xFFFFFFFFFFFFFFFF →
        ∃ t, exec i s = .next t ∧ t.run = .faulted .invalidMemoryAccess ∧ SameStreams s t) ∧
      (∀ i ∈ [Instr.ls r a u2 u3 u4, .lsu r a u2 u3 u4, .ss a b u2 u3 u4],
        (s.value a).toNat + 2 > 0xFFFFFFFFFFFFFFFF →
        ∃ t, exec i s = .next t ∧ t.run = .faulted .invalidMemoryAccess ∧ SameStreams s t))

/-- Derived (20_memory.md §4, 44_load_store.md; D19, D20; log entry 5): a word load at the I/O cell takes the host's next
answer: a byte reads zero-extended, end-of-stream as all ones; past the listed answers, the answer is the open P_INPUT. -/
def Obligations.InputLoadsTakeTheNextAnswer : Prop :=
  ∀ (r : Reg) (a u2 u3 u4 : Operand) (s : State), s.value a = 0xFFFFFFFFFFFFFFFF#64 →
    ∃ t, exec (.lw r a u2 u3 u4) s = .next t ∧
      (∀ byte, s.answers[s.inpos]? = some (some byte) → (t.reg r).toNat = byte.toNat) ∧
      (s.answers[s.inpos]? = some none → t.reg r = 0xFFFFFFFFFFFFFFFF#64) ∧
      (s.answers[s.inpos]? = none →
        (∀ byte, Config.input s.inpos = some byte → (t.reg r).toNat = byte.toNat) ∧
        (Config.input s.inpos = none → t.reg r = 0xFFFFFFFFFFFFFFFF#64)) ∧
      t.inpos = s.inpos + 1 ∧ t.out = s.out ∧
      GoesOn (.lw r a u2 u3 u4) s t ∧ RegsBut s t [r] ∧ SameMemory s t ∧ SameStack s t ∧ SameRun s t ∧
      SameHost s t ∧ SameDraws s t

/-- R81: a word store at the I/O cell emits the low byte. -/
def Obligations.OutputStoresEmitTheLowByte : Prop :=
  ∀ (a b u2 u3 u4 : Operand) (s : State), s.value a = 0xFFFFFFFFFFFFFFFF#64 →
    ∃ t, exec (.sw a b u2 u3 u4) s = .next t ∧
      t.out = s.out ++ [BitVec.ofNat 8 ((s.value b).toNat % 2 ^ 8)] ∧ t.inpos = s.inpos ∧
      GoesOn (.sw a b u2 u3 u4) s t ∧ RegsBut s t [] ∧ SameMemory s t ∧ SameStack s t ∧ SameRun s t ∧
      SameHost s t ∧ SameDraws s t

/-- Derived (20_memory.md §2; D15, D16): after a word store, a word load at the address gives the word, and a byte load of
any byte of it gives that byte. -/
def Obligations.LoadsSeeTheBytesOfAnEarlierStore : Prop :=
  ∀ (a b u2 u3 u4 : Operand) (s t : State), Admitted s (s.value a) 8 →
    exec (.sw a b u2 u3 u4) s = .next t →
    ∀ (r : Reg) (v2 v3 v4 : Operand) (w : ImmWidth),
      (∃ t', exec (.lw r (.imm w (s.value a)) v2 v3 v4) t = .next t' ∧ t'.reg r = s.value b) ∧
      (∀ k < 8, ∃ t', exec (.lbu r (.imm w (s.value a + BitVec.ofNat 64 k)) v2 v3 v4) t = .next t' ∧
        (t'.reg r).toNat = (s.value b).toNat / 256 ^ k % 256)

/-! ## Control, halt and rand -/

/-- Derived (45_control.md; D23 for the unbounded depth): `call`. -/
def Obligations.CallPushesTheSnapshotAndJumps : Prop :=
  ∀ (f u1 u2 u3 u4 : Operand) (s : State),
    ∃ t frame, exec (.call f u1 u2 u3 u4) s = .next t ∧ t.callStack = frame :: s.callStack ∧
      (∀ (j : Nat) (h : j < 25), frame.saved[j] = s.reg ⟨j, by omega⟩) ∧
      frame.retAddr = s.pc + BitVec.ofNat 64 (Instr.call f u1 u2 u3 u4).length ∧
      t.pc = s.value f ∧ RegsBut s t [] ∧ SameMemory s t ∧ SameStreams s t ∧ SameRun s t ∧ SameHost s t ∧
      SameDraws s t

/-- Derived (45_control.md; D1 for the mask's bits): `ret` on a stack that is not empty: the masked registers are restored,
the others and `z` keep their values. -/
def Obligations.RetRestoresTheMaskedRegisters : Prop :=
  ∀ (mask : BitVec 25) (s : State) (frame : Frame) (rest : List Frame), s.callStack = frame :: rest →
    ∃ t, exec (.ret mask) s = .next t ∧
      (∀ (j : Nat) (h : j < 25),
        t.reg ⟨j, by omega⟩ = if mask.getLsbD j = true then frame.saved[j] else s.reg ⟨j, by omega⟩) ∧
      t.reg 25 = s.reg 25 ∧ t.pc = frame.retAddr ∧ t.callStack = rest ∧
      SameMemory s t ∧ SameStreams s t ∧ SameRun s t ∧ SameHost s t ∧ SameDraws s t

/-- Derived (45_control.md, 60_exceptions.md §1; D4, D5, D21, D22): `ret` on an empty call stack faults. -/
def Obligations.RetOnAnEmptyStackFaults : Prop :=
  ∀ (mask : BitVec 25) (s : State), s.callStack = [] → EndsInFault (.ret mask) s .invalidMemoryAccess none

/-- Derived (45_control.md): a `ret` that finds the frame of a `call` on top goes back to the instruction after the call
with the masked registers as the caller had them and the others, `z` among them, as the callee left them. -/
def Obligations.RetUndoesCallButForReturnedRegisters : Prop :=
  ∀ (f u1 u2 u3 u4 : Operand) (mask : BitVec 25) (s t callee : State),
    exec (.call f u1 u2 u3 u4) s = .next t → callee.callStack = t.callStack →
    ∃ back, exec (.ret mask) callee = .next back ∧
      back.pc = s.pc + BitVec.ofNat 64 (Instr.call f u1 u2 u3 u4).length ∧ back.callStack = s.callStack ∧
      ∀ x : Reg, back.reg x = if x ≠ 25 ∧ mask.getLsbD x.val = true then s.reg x else callee.reg x

/-- R323, R324. -/
def Obligations.ConditionalJumpsTestForZero : Prop :=
  ∀ (l a u2 u3 u4 : Operand) (s : State),
    (IsStd (.jz l a u2 u3 u4) .jz [l, a, u2, u3, u4] ∧
      ∃ t, exec (.jz l a u2 u3 u4) s = .next t ∧
        t.pc = (if (s.value a).toNat = 0 then s.value l
          else s.pc + BitVec.ofNat 64 (Instr.jz l a u2 u3 u4).length) ∧
        t.cycles = s.cycles + cycleCost (.std .jz) ∧
        RegsBut s t [] ∧ SameMemory s t ∧ SameStack s t ∧ SameStreams s t ∧ SameRun s t ∧ SameHost s t ∧
        SameDraws s t) ∧
    (IsStd (.jnz l a u2 u3 u4) .jnz [l, a, u2, u3, u4] ∧
      ∃ t, exec (.jnz l a u2 u3 u4) s = .next t ∧
        t.pc = (if (s.value a).toNat = 0 then s.pc + BitVec.ofNat 64 (Instr.jnz l a u2 u3 u4).length
          else s.value l) ∧
        t.cycles = s.cycles + cycleCost (.std .jnz) ∧
        RegsBut s t [] ∧ SameMemory s t ∧ SameStack s t ∧ SameStreams s t ∧ SameRun s t ∧ SameHost s t ∧
        SameDraws s t)

/-- Derived (45_control.md, 70_reset_and_hazards.md §2; D5, D34): `halt` enters Halted with the full word, costs 9 cycles,
counts as one instruction, and leaves `pc`. -/
def Obligations.HaltStopsWithItsCode : Prop :=
  ∀ (a u1 u2 u3 u4 : Operand) (s : State),
    ∃ t, exec (.halt a u1 u2 u3 u4) s = .next t ∧ t.run = .halted (s.value a) ∧ t.pc = s.pc ∧
      t.cycles = s.cycles + 9 ∧ t.icount = s.icount + 1 ∧ t.fault = s.fault ∧
      RegsBut s t [] ∧ SameMemory s t ∧ SameStack s t ∧ SameStreams s t ∧ SameHost s t ∧ SameDraws s t

/-- Derived (45_control.md; D30; log entry 6): `rand` writes the free word of this execution and uses it up; nothing else
is known of the word. -/
def Obligations.RandWritesAFreshFreeWord : Prop :=
  ∀ (r : Reg) (u1 u2 u3 u4 : Operand) (s : State),
    ∃ t, exec (.rand r u1 u2 u3 u4) s = .next t ∧ t.reg r = Config.rand s.randDraws ∧
      t.randDraws = s.randDraws + 1 ∧
      GoesOn (.rand r u1 u2 u3 u4) s t ∧ RegsBut s t [r] ∧ SameMemory s t ∧ SameStack s t ∧ SameStreams s t ∧
      SameRun s t ∧ SameHost s t

/-! ## Whole-machine rules -/

/-- R35: where `pc` goes at a commit, for every instruction. The sum is one of 64-bit words; that it does not wrap where an
instruction was fetched is `AFetchedInstructionEndsInInstructionMemory`. -/
def Obligations.EveryCommitMovesPcAsItsInstructionSays : Prop :=
  ∀ (i : Instr) (s t : State), Commits i s t →
    (i.mnemonic ∉ [.std .call, .ret, .std .jz, .std .jnz, .std .halt] →
      t.pc = s.pc + BitVec.ofNat 64 i.length) ∧
    (∀ f u1 u2 u3 u4, i = .call f u1 u2 u3 u4 → t.pc = s.value f) ∧
    (∀ mask, i = .ret mask → ∃ frame rest, s.callStack = frame :: rest ∧ t.pc = frame.retAddr) ∧
    (∀ l a u2 u3 u4, i = .jz l a u2 u3 u4 →
      t.pc = if s.value a = 0 then s.value l else s.pc + BitVec.ofNat 64 i.length) ∧
    (∀ l a u2 u3 u4, i = .jnz l a u2 u3 u4 →
      t.pc = if s.value a = 0 then s.pc + BitVec.ofNat 64 i.length else s.value l) ∧
    (∀ a u1 u2 u3 u4, i = .halt a u1 u2 u3 u4 → t.pc = s.pc)

/-- Derived (70_reset_and_hazards.md §5, 10_state.md §4, 60_exceptions.md §5; D3 .. D5; log entries 2 and 9): every commit
adds a cost that depends on the mnemonic only, counts one instruction, and gives the sink one trace record. -/
def Obligations.EveryCommitCountsItsCostAndIsTraced : Prop :=
  ∀ (i : Instr) (s t : State), Commits i s t →
    t.cycles = s.cycles + cycleCost i.mnemonic ∧ cycleCost (.std .halt) = 9 ∧ t.icount = s.icount + 1 ∧
    t.trace = s.trace ++
      [{ addr := s.pc, mnemonic := i.mnemonic, operands := i.slots.map s.value, cycles := t.cycles }]

/-- Derived (60_exceptions.md §1; D4, D5, D21): a step of the running engine that ends Faulted changed nothing else. -/
def Obligations.FaultsHaveNoPartialEffects : Prop :=
  ∀ (s t : State) (kind : FaultKind), step s = .next t → t.run = .faulted kind →
    s.run = .running ∧ ∃ dataAddr, Faults s t kind dataAddr

/-- Derived (60_exceptions.md §1; D16, D22): the only causes of a fault in the execute phase. -/
def Obligations.OnlyTheListedCausesFault : Prop :=
  ∀ (i : Instr) (s t : State) (kind : FaultKind), s.run = .running → exec i s = .next t → t.run = .faulted kind →
    (kind = .divisionByZero ∧ i.mnemonic ∈ [.std .div, .std .divu] ∧ ∃ b, i.slots[3]? = some b ∧ s.value b = 0) ∨
    (kind = .invalidMemoryAccess ∧ i.mnemonic = .ret ∧ s.callStack = []) ∨
    (kind = .invalidMemoryAccess ∧
      ∃ a n, (∃ record, t.fault = some record ∧ record.dataAddr = some (s.value a)) ∧ ¬ Admitted s (s.value a) n ∧
        (i.slots[1]? = some a ∧
            (i.mnemonic, n) ∈ [(.std .lb, 1), (.std .lbu, 1), (.std .ls, 2), (.std .lsu, 2), (.std .li, 4),
              (.std .liu, 4), (.std .lw, 8)] ∨
          i.slots[0]? = some a ∧
            (i.mnemonic, n) ∈ [(.std .sb, 1), (.std .ss, 2), (.std .si, 4), (.std .sw, 8)]))

/-- R89: no instruction writes instruction memory, and none reads it as data: with another instruction memory a meaning
does the same. The two are compared under the same free draws (log entry 17). -/
def Obligations.NoInstructionWritesOrReadsInstructionMemory : Prop :=
  (∀ s t : State, step s = .next t → t.imem = s.imem) ∧
  (∀ (i : Instr) (s t : State) (imem : List Byte), exec i s = .next t →
    exec i { s with imem := imem } = .next { t with imem := imem })

/-- Derived (00_scope.md §3, 20_memory.md §6; D17, D20; log entries 3 and 5): the provisioned set and the host's answers
stay fixed for a run. -/
def Obligations.NoStepChangesTheHostsParameters : Prop :=
  ∀ s t : State, step s = .next t → t.provisioned = s.provisioned ∧ t.answers = s.answers

/-- Derived (20_memory.md §3; D16): every instruction but the four stores leaves every byte of data memory. -/
def Obligations.OnlyStoresChangeDataMemory : Prop :=
  ∀ (i : Instr) (s t : State), exec i s = .next t →
    i.mnemonic ∉ [.std .sb, .std .ss, .std .si, .std .sw] → SameMemory s t

/-- Derived (20_memory.md §3, §4, 10_state.md §3; D20): the input position moves only by a `lw`, and the output grows only
by a `sw`, at the I/O cell. -/
def Obligations.OnlyIoCellAccessesTouchTheStreams : Prop :=
  ∀ (i : Instr) (s t : State), exec i s = .next t →
    (t.inpos = s.inpos ∨
      t.inpos = s.inpos + 1 ∧ i.mnemonic = .std .lw ∧ ∃ a, i.slots[1]? = some a ∧ s.value a = ioAddr) ∧
    (t.out = s.out ∨
      i.mnemonic = .std .sw ∧ (∃ a, i.slots[0]? = some a ∧ s.value a = ioAddr) ∧
        ∃ b, i.slots[1]? = some b ∧ t.out = s.out ++ [(s.value b).setWidth 8])

/-- Derived (10_state.md §5, 45_control.md): only `call` and `ret` touch the call stack, one frame at a time, and neither
changes `z`. -/
def Obligations.OnlyCallAndRetTouchTheCallStack : Prop :=
  ∀ (i : Instr) (s t : State), exec i s = .next t →
    (i.mnemonic ∉ [.std .call, .ret] → t.callStack = s.callStack) ∧
    (i.mnemonic = .std .call → t.callStack.tail = s.callStack ∧ t.callStack.length = s.callStack.length + 1 ∧
      t.reg 25 = s.reg 25) ∧
    (i.mnemonic = .ret → t.callStack = s.callStack.tail ∧ t.reg 25 = s.reg 25)

/-- Derived (40_arith_logic.md .. 45_control.md, 10_state.md §1): a committed instruction changes no register but those its
destination slots name; only `ret` restores others. -/
def Obligations.OnlyDestinationRegistersChange : Prop :=
  ∀ (i : Instr) (op : StdOp) (s t : State), exec i s = .next t → i.mnemonic = .std op →
    ∀ x : Reg, .reg x ∉ i.slots.take (destCount op) → t.reg x = s.reg x

/-- Derived (30_encoding.md §2, §5; D10; log entries 9 and 17): the width an immediate is written with and the content of
unused slots change nothing but what depends on the length, and the operand values in the trace. Two instructions of one
mnemonic with the same destinations and the same source values have the same effect; where the instruction goes on to the
next one, `pc` follows each one's own length, and so does the return address that `call` pushes. The two are executed from
one state, under the same free draws. -/
def Obligations.WidthsAndUnusedSlotsChangeOnlyTheLength : Prop :=
  ∀ (i j : Instr) (op : StdOp) (s t t' : State),
    i.mnemonic = .std op → j.mnemonic = .std op →
    i.slots.take (destCount op) = j.slots.take (destCount op) →
    ((i.slots.drop (destCount op)).take (sourceCount op)).map s.value =
      ((j.slots.drop (destCount op)).take (sourceCount op)).map s.value →
    exec i s = .next t → exec j s = .next t' →
    t.regs = t'.regs ∧ t.mem = t'.mem ∧ t.run = t'.run ∧ t.fault = t'.fault ∧ t.inpos = t'.inpos ∧
    t.out = t'.out ∧ t.randDraws = t'.randDraws ∧ t.cycles = t'.cycles ∧ t.icount = t'.icount ∧
    SameHost t t' ∧ TracedAlike t t' ∧
    (JumpsOrHalts i op s → t.pc = t'.pc) ∧
    (¬ JumpsOrHalts i op s →
      (∃ kind, t.run = .faulted kind) ∧ t.pc = s.pc ∧ t'.pc = s.pc ∨ GoesOn i s t ∧ GoesOn j s t') ∧
    (op ≠ .call → t.callStack = t'.callStack) ∧
    (op = .call → ∃ saved,
      t.callStack = { saved := saved, retAddr := s.pc + BitVec.ofNat 64 i.length } :: s.callStack ∧
      t'.callStack = { saved := saved, retAddr := s.pc + BitVec.ofNat 64 j.length } :: s.callStack)

/-- Derived (60_exceptions.md §4, §5, 70_reset_and_hazards.md §5): the counters and the trace are bookkeeping: no step reads
them but to extend them and to copy the counters into a fault record, whose kind, `pc` and data address they leave alone.
The two steps are compared under the same free draws (log entry 17). -/
def Obligations.CountersAndTraceNeverInfluenceExecution : Prop :=
  ∀ (s t : State) (cycles icount : Nat) (trace : List TraceRecord), step s = .next t →
    ∃ t', step { s with cycles := cycles, icount := icount, trace := trace } = .next t' ∧
      t'.regs = t.regs ∧ t'.pc = t.pc ∧ t'.callStack = t.callStack ∧ t'.run = t.run ∧ t'.inpos = t.inpos ∧
      t'.out = t.out ∧ t'.mem = t.mem ∧ t'.randDraws = t.randDraws ∧ SameHost t t' ∧
      t'.fault.map (fun r => (r.kind, r.pc, r.dataAddr)) = t.fault.map (fun r => (r.kind, r.pc, r.dataAddr)) ∧
      t'.cycles + s.cycles = t.cycles + cycles ∧ t'.icount + s.icount = t.icount + icount

/-- Derived (70_reset_and_hazards.md §2; log entries 4, 9 and 10): the reset state meets the invariant. -/
def Obligations.ResetMeetsTheInvariant : Prop := State.reset.Inv

/-- Derived (20_memory.md §3, 10_state.md §2, §4, §6, 60_exceptions.md §1, 70_reset_and_hazards.md §5; log entries 4, 9
and 11): every step keeps the invariant: canonical memory on storage only, the fault record of the run state, and counters
that agree with the trace. -/
def Obligations.EveryStepKeepsTheInvariant : Prop := ∀ s t : State, s.Inv → step s = .next t → t.Inv

/-- Derived (70_reset_and_hazards.md §1 .. §3; log entries 4, 9 and 11): a load establishes the invariant; its clauses about
the trace rest on the model's own trace field and its empty reset value (log entry 9). -/
def Obligations.LoadEstablishesTheInvariant : Prop :=
  ∀ (image : List Byte) (provisioned : List Region) (answers : List (Option Byte)) (s : State),
    load image provisioned answers = some s → s.Inv

/-- Derived (10_state.md §2, 30_encoding.md §1, §4; D10, D24): the length of an instruction that is fetched whole is what its
header says: 4 for `ret`, and 4 and the immediate bytes of all five kind codes for the others. It ends within instruction
memory, so that the address after it never wraps. -/
def Obligations.AFetchedInstructionEndsInInstructionMemory : Prop :=
  ∀ (s : State) (i : Instr), s.Inv → s.fetch = .ok i →
    (opcodeAt s = 0x7f → i.length = 4) ∧ (opcodeAt s ≠ 0x7f → i.length = lengthAt s) ∧
    s.pc.toNat + i.length ≤ s.imem.length ∧
    (s.pc + BitVec.ofNat 64 i.length).toNat = s.pc.toNat + i.length

/-! ## Pseudo-instructions -/

/-- Derived (30_encoding.md §6, 43_shift.md; D11, D14, D26): what the expansions without a memory access do; `sal` is
`shl`. -/
def Obligations.RegisterPseudoInstructionsComputeTheirNames : Prop :=
  ∀ (r : Reg) (a b : Operand) (s : State),
    (∃ t, runAll (Pseudo.mov r a).expand s = .next t ∧ t.reg r = s.value a ∧ RegsBut s t [r]) ∧
    (∃ t, runAll (Pseudo.inc r).expand s = .next t ∧ t.reg r = s.reg r + 1 ∧ RegsBut s t [r]) ∧
    (∃ t, runAll (Pseudo.dec r).expand s = .next t ∧ t.reg r = s.reg r - 1 ∧ RegsBut s t [r]) ∧
    (∃ t, runAll (Pseudo.neg r a).expand s = .next t ∧ t.reg r = -(s.value a) ∧ RegsBut s t [r]) ∧
    (∃ t, runAll (Pseudo.sal r a b).expand s = .next t ∧ exec (.shl r a b none0 none0) s = .next t ∧
      (t.reg r).toNat = (if 0 ≤ (s.value b).toInt then (s.value a).toNat * 2 ^ (s.value b).toInt.natAbs % 2 ^ 64
        else (s.value a).toNat / 2 ^ (s.value b).toInt.natAbs) ∧ RegsBut s t [r]) ∧
    (∃ t, runAll (Pseudo.ge r a b).expand s = .next t ∧ RegsBut s t [r] ∧
      (t.reg r).toNat = if (s.value b).toInt < (s.value a).toInt then 1 else 0) ∧
    (∃ t, runAll (Pseudo.geq r a b).expand s = .next t ∧ RegsBut s t [r] ∧
      (t.reg r).toNat = if (s.value b).toInt ≤ (s.value a).toInt then 1 else 0) ∧
    (∃ t, runAll (Pseudo.geu r a b).expand s = .next t ∧ RegsBut s t [r] ∧
      (t.reg r).toNat = if (s.value b).toNat < (s.value a).toNat then 1 else 0) ∧
    (∃ t, runAll (Pseudo.gequ r a b).expand s = .next t ∧ RegsBut s t [r] ∧
      (t.reg r).toNat = if (s.value b).toNat ≤ (s.value a).toNat then 1 else 0) ∧
    (∃ t, runAll (Pseudo.jmp a).expand s = .next t ∧ t.pc = s.value a ∧ RegsBut s t [])

/-- Derived (30_encoding.md §6; D15, D16): `push` then `pop` of the same pointer gives the value back and leaves every
other register, the pointer among them (unless it is the one popped into), with the cost of the four real instructions. -/
def Obligations.PushThenPopGivesTheValueBack : Prop :=
  ∀ (p r : Reg) (b : Operand) (s : State), Admitted s (s.reg p) 8 →
    ∃ t, runAll ((Pseudo.push p b).expand ++ (Pseudo.pop r p).expand) s = .next t ∧
      t.reg r = s.value b ∧ RegsBut s t [r] ∧
      (∀ x, ¬ ((s.reg p).toNat ≤ x ∧ x < (s.reg p).toNat + 8) → t.readByte x = s.readByte x) ∧
      t.cycles = s.cycles + (Pseudo.push p b).cost + (Pseudo.pop r p).cost

/-- Derived (30_encoding.md §6; D27 for the mask; log entry 18 for the width): a constant, read as its signed 64-bit pattern,
which is the model's choice of two readings (log entry 18), gets the minimal width that holds it, and `ret r1, .., rk`
restores exactly the registers it does not list. -/
def Obligations.AssemblerWidthsAreMinimalAndRetMasksComplement : Prop :=
  (∀ v : Word, (minimalWidth v).fits v = true ∧
    ∀ w : ImmWidth, w.fits v = true → (minimalWidth v).bytes ≤ w.bytes) ∧
  (∀ (returned : List (Fin 25)) (j : Fin 25), (retMask returned).getLsbD j.val = decide (j ∉ returned))
end

