-- ==== Sys2Proof/Laws/Decode.lean ====
section
/-! SUPPORT. Lemmas about the decoder's and encoder's parts: byte lists, the opcode map, kind codes, immediates and the
operand shapes. -/

namespace Sys2Proof

/-! ## Byte lists -/

theorem splitBytes_append (front rest : List Byte) : splitBytes front.length (front ++ rest) = some (front, rest) := by
  induction front with
  | nil => rfl
  | cons b front ih => simp [splitBytes, ih]

theorem splitBytes_eq_some {n : Nat} : ∀ {bytes front rest : List Byte},
    splitBytes n bytes = some (front, rest) ↔ bytes = front ++ rest ∧ front.length = n := by
  induction n with
  | zero =>
    intro bytes front rest
    simp only [splitBytes, Option.some.injEq, Prod.mk.injEq, List.length_eq_zero_iff]
    constructor
    · rintro ⟨rfl, rfl⟩; simp
    · rintro ⟨rfl, rfl⟩; simp
  | succ n ih =>
    intro bytes front rest
    cases bytes with
    | nil =>
      simp only [splitBytes, reduceCtorEq, false_iff]
      rintro ⟨h, h2⟩
      have := congrArg List.length h
      simp at this
      omega
    | cons b bytes =>
      constructor
      · intro h
        unfold splitBytes at h
        split at h
        · rename_i f r hfr
          cases h
          obtain ⟨rfl, h2⟩ := ih.mp hfr
          simp [h2]
        · cases h
      · rintro ⟨h, h2⟩
        cases front with
        | nil => simp at h2
        | cons c front =>
          simp only [List.cons_append, List.cons.injEq] at h
          obtain ⟨rfl, rfl⟩ := h
          have := (ih (bytes := front ++ rest)).mpr ⟨rfl, by simpa using h2⟩
          simp [splitBytes, this]

theorem splitBytes_eq_none {n : Nat} {bytes : List Byte} : splitBytes n bytes = none ↔ bytes.length < n := by
  constructor
  · intro h
    by_contra hn
    have h2 := splitBytes_eq_some (n := n).mpr
      ⟨(List.take_append_drop n bytes).symm, by simp; omega⟩
    rw [h] at h2
    cases h2
  · intro h
    cases hs : splitBytes n bytes with
    | none => rfl
    | some p =>
      obtain ⟨h1, h2⟩ := splitBytes_eq_some.mp hs
      rw [h1] at h
      simp at h
      omega

theorem leNat_leBytes (n v : Nat) : leNat (leBytes n v) = v % 256 ^ n := by
  induction n generalizing v with
  | zero => simp [leBytes, leNat, Nat.mod_one]
  | succ n ih =>
    have h8 : (BitVec.ofNat 8 v).toNat = v % 256 := BitVec.toNat_ofNat ..
    rw [leBytes, leNat, ih, h8, Nat.pow_succ, Nat.mul_comm (256 ^ n) 256, Nat.mod_mul]

theorem leNat_lt (bytes : List Byte) : leNat bytes < 256 ^ bytes.length := by
  induction bytes with
  | nil => simp [leNat]
  | cons b bytes ih =>
    have := b.isLt
    simp only [leNat, List.length_cons, Nat.pow_succ]
    omega

theorem leBytes_leNat (bytes : List Byte) : leBytes bytes.length (leNat bytes) = bytes := by
  induction bytes with
  | nil => rfl
  | cons b bytes ih =>
    have hb := b.isLt
    have h1 : (b.toNat + 256 * leNat bytes) / 256 = leNat bytes := by omega
    have h2 : BitVec.ofNat 8 (b.toNat + 256 * leNat bytes) = b := by
      apply BitVec.eq_of_toNat_eq
      simp only [BitVec.toNat_ofNat]
      omega
    simp [leBytes, leNat, h1, h2, ih]

theorem leBytes_mod (n v : Nat) : leBytes n (v % 256 ^ n) = leBytes n v := by
  have h := leBytes_leNat (leBytes n v)
  have hl : (leBytes n v).length = n := by
    clear h
    induction n generalizing v with
    | zero => rfl
    | succ n ih => simp [leBytes, ih]
  rwa [hl, leNat_leBytes] at h

/-! ## The opcode map -/

theorem StdOp.ofIndex_index (op : StdOp) : StdOp.ofIndex op.index = op := by cases op <;> rfl

theorem StdOp.index_ofIndex (i : Fin 35) : (StdOp.ofIndex i).index = i := by revert i; decide

theorem opcodeIdWith_lt (ids : Equiv.Perm (Fin 35)) (op : StdOp) : opcodeIdWith ids op < 35 := (ids op.index).isLt

/-- R8: the map is injective. -/
theorem opcodeIdWith_injective (ids : Equiv.Perm (Fin 35)) {p q : StdOp}
    (h : opcodeIdWith ids p = opcodeIdWith ids q) : p = q := by
  have h2 : p.index = q.index := ids.injective (Fin.ext h)
  rw [← StdOp.ofIndex_index p, h2, StdOp.ofIndex_index]

theorem stdOpWith_opcodeIdWith (ids : Equiv.Perm (Fin 35)) (op : StdOp) (opc : BitVec 7)
    (h : opc.toNat = opcodeIdWith ids op) : stdOpWith ids opc = some op := by
  have hlt : opc.toNat < 35 := h ▸ opcodeIdWith_lt ids op
  have hfin : (⟨opc.toNat, hlt⟩ : Fin 35) = ids op.index := Fin.ext h
  simp [stdOpWith, hlt, hfin, StdOp.ofIndex_index]

theorem stdOpWith_eq_some {ids : Equiv.Perm (Fin 35)} {opc : BitVec 7} {op : StdOp}
    (h : stdOpWith ids opc = some op) : opc.toNat = opcodeIdWith ids op := by
  unfold stdOpWith at h
  split at h
  · cases h
    simp [opcodeIdWith, StdOp.index_ofIndex]
  · cases h

/-- R121: the ids that no mnemonic has are those from 0x23 on. -/
theorem stdOpWith_eq_none {ids : Equiv.Perm (Fin 35)} {opc : BitVec 7} :
    stdOpWith ids opc = none ↔ 0x23 ≤ opc.toNat := by
  unfold stdOpWith
  split <;> simp <;> omega

/-! ## Kind codes and immediates -/

/-- The kind of an operand. -/
def Operand.kind : Operand → Kind
  | .imm w _ => .imm w
  | .reg r => .reg r

theorem Operand.code_le (o : Operand) : o.code ≤ 30 := by
  match o with
  | .imm .w0 _ | .imm .w1 _ | .imm .w2 _ | .imm .w4 _ | .imm .w8 _ => simp [code]
  | .reg r => have := r.isLt; simp only [code]; omega

theorem Kind.ofCode_code (o : Operand) (c : BitVec 5) (h : c.toNat = o.code) : Kind.ofCode c = some o.kind := by
  match o with
  | .imm .w0 _ | .imm .w1 _ | .imm .w2 _ | .imm .w4 _ | .imm .w8 _ => simp [ofCode, h, Operand.code, Operand.kind]
  | .reg r =>
    have hr := r.isLt
    simp only [Operand.code] at h
    have hsub : c.toNat - 5 = r.val := by omega
    simp [ofCode, h, Operand.kind]

/-- The code a kind has. -/
theorem Kind.code_of_ofCode {c : BitVec 5} {o : Operand} (h : Kind.ofCode c = some o.kind) : c.toNat = o.code := by
  unfold ofCode at h
  have hc := c.isLt
  match o with
  | .imm .w0 _ | .imm .w1 _ | .imm .w2 _ | .imm .w4 _ | .imm .w8 _ =>
    simp only [Operand.kind] at h
    repeat' split at h
    all_goals first | (simp at h; done) | simp_all [Operand.code]
  | .reg r =>
    simp only [Operand.kind] at h
    repeat' split at h
    all_goals first | (simp at h; done) | skip
    simp only [Option.some.injEq, Kind.reg.injEq] at h
    have := congrArg Fin.val h
    simp only at this
    simp only [Operand.code]
    omega

/-- R113: code 31 is the one kind code that stands for nothing. -/
theorem Kind.ofCode_eq_none {c : BitVec 5} : Kind.ofCode c = none ↔ c = 31#5 := by
  revert c
  decide

theorem sext_of_fits (n : Nat) (hn : 0 < n) (hn64 : n ≤ 64) (v : Word)
    (h1 : -2 ^ (n - 1) ≤ v.toInt) (h2 : v.toInt < 2 ^ (n - 1)) : sext n v = v := by
  apply BitVec.eq_of_toInt_eq
  have hpow : (2 : Int) ^ n = 2 * 2 ^ (n - 1) := by
    obtain ⟨m, rfl⟩ : ∃ m, n = m + 1 := ⟨n - 1, by omega⟩
    simp [pow_succ, mul_comm]
  rw [sext, BitVec.toInt_signExtend_of_le hn64, BitVec.toInt_setWidth]
  have hmod : ((v.toNat : Int)).bmod (2 ^ n) = v.toInt.bmod (2 ^ n) := by
    rw [BitVec.toInt_eq_toNat_bmod]
    rw [Int.bmod_bmod_of_dvd]
    exact_mod_cast pow_dvd_pow 2 hn64
  rw [hmod, Int.bmod_eq_of_le_mul_two] <;> push_cast <;> omega

theorem ImmWidth.extend_leBytes (w : ImmWidth) (v : Word) (h : w.fits v = true) :
    w.extend (leNat (leBytes w.bytes v.toNat)) = v := by
  have hmod : ∀ k : Nat, k ≤ 8 → (BitVec.ofNat 64 (v.toNat % 256 ^ k)).setWidth (8 * k) = v.setWidth (8 * k) := by
    intro k hk
    apply BitVec.eq_of_toNat_eq
    have hd : 2 ^ (8 * k) ∣ 2 ^ 64 := Nat.pow_dvd_pow 2 (by omega)
    have he : 256 ^ k = 2 ^ (8 * k) := by rw [Nat.pow_mul]
    rw [BitVec.toNat_setWidth, BitVec.toNat_setWidth, BitVec.toNat_ofNat, he, Nat.mod_mod_of_dvd _ hd, Nat.mod_mod]
  have hs : ∀ k : Nat, k ≤ 8 → sext (8 * k) (BitVec.ofNat 64 (v.toNat % 256 ^ k)) = sext (8 * k) v := by
    intro k hk; rw [sext, hmod k hk, sext]
  rw [leNat_leBytes]
  match w with
  | .w0 => exact (by simpa [fits] using h : v = 0).symm
  | .w1 =>
    simp only [fits, decide_eq_true_eq] at h
    exact (hs 1 (by omega)).trans (sext_of_fits 8 (by omega) (by omega) v h.1 h.2)
  | .w2 =>
    simp only [fits, decide_eq_true_eq] at h
    exact (hs 2 (by omega)).trans (sext_of_fits 16 (by omega) (by omega) v h.1 h.2)
  | .w4 =>
    simp only [fits, decide_eq_true_eq] at h
    exact (hs 4 (by omega)).trans (sext_of_fits 32 (by omega) (by omega) v h.1 h.2)
  | .w8 =>
    have hv := v.isLt
    apply BitVec.eq_of_toNat_eq
    simp only [extend, bytes, BitVec.toNat_ofNat]
    omega

theorem sext_toInt_range (n : Nat) (hn64 : n ≤ 64) (v : Word) :
    -2 ^ (n - 1) ≤ (sext n v).toInt ∧ (sext n v).toInt < 2 ^ (n - 1) := by
  rw [sext, BitVec.toInt_signExtend_of_le hn64]
  have h1 := BitVec.le_toInt (v.setWidth n)
  have h2 := BitVec.toInt_lt (x := v.setWidth n)
  exact ⟨h1, h2⟩

/-- R113: a decoded immediate fits its width. -/
theorem ImmWidth.fits_extend (w : ImmWidth) (n : Nat) : w.fits (w.extend n) = true := by
  match w with
  | .w0 => rfl
  | .w1 => exact decide_eq_true (sext_toInt_range 8 (by omega) (BitVec.ofNat 64 n))
  | .w2 => exact decide_eq_true (sext_toInt_range 16 (by omega) (BitVec.ofNat 64 n))
  | .w4 => exact decide_eq_true (sext_toInt_range 32 (by omega) (BitVec.ofNat 64 n))
  | .w8 => rfl

theorem sext_toNat_mod (n : Nat) (hn64 : n ≤ 64) (v : Word) : (sext n v).toNat % 2 ^ n = v.toNat % 2 ^ n := by
  have h : (sext n v).setWidth n = v.setWidth n := by
    apply BitVec.eq_of_getElem_eq
    intro i hi
    simp [sext, BitVec.getElem_setWidth, BitVec.getLsbD_signExtend, hi]
    omega
  simpa using congrArg BitVec.toNat h

/-- R114: the bytes of a decoded immediate are the bytes it was decoded from. -/
theorem ImmWidth.leBytes_extend (w : ImmWidth) (bytes : List Byte) (h : bytes.length = w.bytes) :
    leBytes w.bytes (w.extend (leNat bytes)).toNat = bytes := by
  have hlt := leNat_lt bytes
  have key : ∀ k, k ≤ 8 → bytes.length = k → leBytes k (sext (8 * k) (BitVec.ofNat 64 (leNat bytes))).toNat = bytes := by
    intro k hk hl
    have he : 256 ^ k = 2 ^ (8 * k) := by rw [Nat.pow_mul]
    have h64 : leNat bytes < 2 ^ 64 :=
      Nat.lt_of_lt_of_le hlt (by rw [hl, he]; exact Nat.pow_le_pow_right (by omega) (by omega))
    rw [← leBytes_mod, he, sext_toNat_mod _ (by omega), BitVec.toNat_ofNat, Nat.mod_eq_of_lt h64, ← he, leBytes_mod, ← hl,
      leBytes_leNat]
  match w with
  | .w0 =>
    have : bytes = [] := List.length_eq_zero_iff.mp h
    simp [this, ImmWidth.bytes, leBytes]
  | .w1 => exact key 1 (by omega) h
  | .w2 => exact key 2 (by omega) h
  | .w4 => exact key 4 (by omega) h
  | .w8 =>
    have h8 : bytes.length = 8 := h
    have h64 : leNat bytes < 2 ^ 64 := by rw [h8] at hlt; exact hlt
    show leBytes 8 (BitVec.ofNat 64 (leNat bytes)).toNat = bytes
    rw [BitVec.toNat_ofNat, Nat.mod_eq_of_lt h64]
    have := leBytes_leNat bytes
    rwa [h8] at this

/-! ## Header fields -/

theorem opcodeField_toNat (h : BitVec 32) : (opcodeField h).toNat = h.toNat % 128 := by
  simp [opcodeField]

theorem kindField_toNat (h : BitVec 32) (k : Nat) : (kindField h k).toNat = h.toNat / 2 ^ (7 + 5 * k) % 32 := by
  simp [kindField, Nat.shiftRight_eq_div_pow]

theorem maskField_toNat (h : BitVec 32) : (maskField h).toNat = h.toNat / 128 := by
  have := h.isLt
  simp only [maskField, BitVec.extractLsb'_toNat, Nat.shiftRight_eq_div_pow]
  omega

/-- R111: the fields of a header packed from an opcode id and five codes. -/
theorem packed_header_fields (opc : Nat) (hopc : opc < 128) (o0 o1 o2 o3 o4 : Operand) (h : BitVec 32)
    (hh : h.toNat = opc + 128 * packCodes [o0, o1, o2, o3, o4]) :
    (opcodeField h).toNat = opc ∧ (kindField h 0).toNat = o0.code ∧ (kindField h 1).toNat = o1.code ∧
      (kindField h 2).toNat = o2.code ∧ (kindField h 3).toNat = o3.code ∧ (kindField h 4).toNat = o4.code := by
  have h0 := o0.code_le
  have h1 := o1.code_le
  have h2 := o2.code_le
  have h3 := o3.code_le
  have h4 := o4.code_le
  simp only [packCodes] at hh
  simp only [opcodeField_toNat, kindField_toNat]
  norm_num
  omega

theorem packCodes_lt (o0 o1 o2 o3 o4 : Operand) : packCodes [o0, o1, o2, o3, o4] < 2 ^ 25 := by
  have h0 := o0.code_le
  have h1 := o1.code_le
  have h2 := o2.code_le
  have h3 := o3.code_le
  have h4 := o4.code_le
  simp only [packCodes]
  omega

/-- R117: an instruction of format STD has five slots. -/
theorem slots_five (i : Instr) (op : StdOp) (h : i.mnemonic = .std op) :
    ∃ o0 o1 o2 o3 o4, i.slots = [o0, o1, o2, o3, o4] := by
  cases i <;> first | exact ⟨_, _, _, _, _, rfl⟩ | cases h

/-- The kinds of the slots are read one by one. -/
theorem readKinds_eq_ok {h : BitVec 32} {ks : List Nat} : ∀ {kinds : List Kind},
    readKinds h ks = .ok kinds ↔ ks.map (fun k => Kind.ofCode (kindField h k)) = kinds.map some := by
  induction ks with
  | nil =>
    intro kinds
    cases kinds <;> simp [readKinds]
  | cons k ks ih =>
    intro kinds
    unfold readKinds
    cases hk : Kind.ofCode (kindField h k) with
    | none => cases kinds <;> simp [hk]
    | some kind =>
      cases hr : readKinds h ks with
      | ok rest =>
        have := ih.mp hr
        cases kinds with
        | nil => simp
        | cons d kinds => simp [hk, this, List.map_inj_right (f := some) (fun a b => Option.some.inj)]
      | error e =>
        cases kinds with
        | nil => simp
        | cons d kinds =>
          simp only [reduceCtorEq, List.map_cons, List.cons.injEq, false_iff, not_and]
          intro _ h2
          rw [ih.mpr h2] at hr
          cases hr

/-- The first slot with code 31 is the one refused. -/
theorem readKinds_first31 {h : BitVec 32} {before after : List Nat} {k : Nat} (hk : kindField h k = 31#5)
    (hb : ∀ j ∈ before, kindField h j ≠ 31#5) :
    readKinds h (before ++ k :: after) = .error (.undefinedKindCode k) := by
  induction before with
  | nil => simp [readKinds, Kind.ofCode_eq_none.mpr hk]
  | cons j before ih =>
    have hj : Kind.ofCode (kindField h j) ≠ none := fun e => hb j List.mem_cons_self (Kind.ofCode_eq_none.mp e)
    obtain ⟨kind, hkind⟩ := Option.ne_none_iff_exists'.mp hj
    simp [readKinds, hkind, ih fun x hx => hb x (List.mem_cons_of_mem _ hx)]

/-! ## Operands -/

theorem Operand.immBytes_length (o : Operand) : o.immBytes.length = o.width := by
  have hl : ∀ n v, (leBytes n v).length = n := by
    intro n
    induction n with
    | zero => intro v; rfl
    | succ n ih => intro v; simp [leBytes, ih]
  match o with
  | .imm w v => exact hl _ _
  | .reg r => rfl

theorem readOperand_immBytes (o : Operand) (h : o.wf = true) (rest : List Byte) :
    readOperand o.kind (o.immBytes ++ rest) = some (o, rest) := by
  match o with
  | .reg r => rfl
  | .imm w v =>
    have hl := Operand.immBytes_length (.imm w v)
    have := splitBytes_append (leBytes w.bytes v.toNat) rest
    simp only [Operand.immBytes, Operand.width] at hl
    rw [hl] at this
    simp only [Operand.kind, readOperand, Operand.immBytes, this]
    rw [ImmWidth.extend_leBytes w v h]

theorem readOperands_immBytes (os : List Operand) (h : os.all Operand.wf = true) (rest : List Byte) :
    readOperands (os.map Operand.kind) (os.flatMap Operand.immBytes ++ rest) = some os := by
  induction os with
  | nil => rfl
  | cons o os ih =>
    simp only [List.all_cons, Bool.and_eq_true] at h
    simp [readOperands, List.append_assoc, readOperand_immBytes o h.1, ih h.2]

theorem readOperand_eq_some {kind : Kind} {bytes rest : List Byte} {o : Operand}
    (h : readOperand kind bytes = some (o, rest)) :
    o.kind = kind ∧ o.wf = true ∧ bytes = o.immBytes ++ rest := by
  unfold readOperand at h
  match kind with
  | .reg r =>
    simp only [Option.some.injEq, Prod.mk.injEq] at h
    obtain ⟨rfl, rfl⟩ := h
    exact ⟨rfl, rfl, rfl⟩
  | .imm w =>
    simp only at h
    split at h
    · rename_i front rest' hs
      simp only [Option.some.injEq, Prod.mk.injEq] at h
      obtain ⟨rfl, rfl⟩ := h
      obtain ⟨rfl, hl⟩ := splitBytes_eq_some.mp hs
      exact ⟨rfl, ImmWidth.fits_extend w _, by rw [Operand.immBytes, ImmWidth.leBytes_extend w front hl]⟩
    · cases h

theorem readOperands_eq_some {kinds : List Kind} : ∀ {bytes : List Byte} {os : List Operand},
    readOperands kinds bytes = some os →
      os.map Operand.kind = kinds ∧ os.all Operand.wf = true ∧ ∃ rest, bytes = os.flatMap Operand.immBytes ++ rest := by
  induction kinds with
  | nil =>
    intro bytes os h
    simp only [readOperands, Option.some.injEq] at h
    subst h
    exact ⟨rfl, rfl, bytes, rfl⟩
  | cons kind kinds ih =>
    intro bytes os h
    unfold readOperands at h
    split at h
    · cases h
    · rename_i o rest hr
      split at h
      · rename_i os' hos
        cases h
        obtain ⟨h1, h2, h3⟩ := readOperand_eq_some hr
        obtain ⟨h4, h5, rest', h6⟩ := ih hos
        exact ⟨by simp [h1, h4], by simp [h2, h5], rest', by simp [h3, h6]⟩
      · cases h

/-! ## Shapes -/

/-- R117: the decoder builds back an instruction from its own slots. -/
theorem buildFrom_slots (i : Instr) (op : StdOp) (h : i.mnemonic = .std op) : buildFrom op i.slots = .ok i := by
  cases i <;> simp only [Instr.mnemonic, Mnemonic.std.injEq, reduceCtorEq] at h <;> subst h <;> rfl

theorem buildFrom_eq_ok {op : StdOp} {os : List Operand} {i : Instr} (h : buildFrom op os = .ok i) :
    i.mnemonic = .std op ∧ i.slots = os := by
  unfold buildFrom at h
  split at h
  · rename_i o0 o1 o2 o3 o4
    cases op <;> simp only [buildInstr, withDest] at h <;> (repeat' split at h) <;> cases h <;> exact ⟨rfl, rfl⟩
  · cases h

end Sys2Proof
end

