-- ==== Sys2Proof/Laws/State.lean ====
section
/-! SUPPORT. One lemma per field per update of the state, so that no later proof unfolds a record update; and the same for
the reads that depend on one field. -/

namespace Sys2Proof.Machine.State

variable (s : State)

/-! ## setReg -/

@[simp] theorem setReg_regs (r : Reg) (v : Word) : (s.setReg r v).regs = s.regs.set r.val v := rfl
@[simp] theorem setReg_pc (r : Reg) (v : Word) : (s.setReg r v).pc = s.pc := rfl
@[simp] theorem setReg_cycles (r : Reg) (v : Word) : (s.setReg r v).cycles = s.cycles := rfl
@[simp] theorem setReg_icount (r : Reg) (v : Word) : (s.setReg r v).icount = s.icount := rfl
@[simp] theorem setReg_callStack (r : Reg) (v : Word) : (s.setReg r v).callStack = s.callStack := rfl
@[simp] theorem setReg_run (r : Reg) (v : Word) : (s.setReg r v).run = s.run := rfl
@[simp] theorem setReg_fault (r : Reg) (v : Word) : (s.setReg r v).fault = s.fault := rfl
@[simp] theorem setReg_inpos (r : Reg) (v : Word) : (s.setReg r v).inpos = s.inpos := rfl
@[simp] theorem setReg_out (r : Reg) (v : Word) : (s.setReg r v).out = s.out := rfl
@[simp] theorem setReg_mem (r : Reg) (v : Word) : (s.setReg r v).mem = s.mem := rfl
@[simp] theorem setReg_imem (r : Reg) (v : Word) : (s.setReg r v).imem = s.imem := rfl
@[simp] theorem setReg_trace (r : Reg) (v : Word) : (s.setReg r v).trace = s.trace := rfl
@[simp] theorem setReg_provisioned (r : Reg) (v : Word) : (s.setReg r v).provisioned = s.provisioned := rfl
@[simp] theorem setReg_answers (r : Reg) (v : Word) : (s.setReg r v).answers = s.answers := rfl
@[simp] theorem setReg_randDraws (r : Reg) (v : Word) : (s.setReg r v).randDraws = s.randDraws := rfl
@[simp] theorem setReg_readByte (r : Reg) (v : Word) (x : Nat) :
    (s.setReg r v).readByte x = s.readByte x := rfl
@[simp] theorem setReg_isStorage (r : Reg) (v : Word) (x : Nat) :
    (s.setReg r v).isStorage x = s.isStorage x := rfl
@[simp] theorem setReg_admitted (r : Reg) (v : Word) (x : Word) (k : Nat) :
    (s.setReg r v).admitted x k = s.admitted x k := rfl

/-! ## memWrite -/

@[simp] theorem memWrite_regs (addr : Word) (n : Nat) (v : Word) : (s.memWrite addr n v).regs = s.regs := rfl
@[simp] theorem memWrite_pc (addr : Word) (n : Nat) (v : Word) : (s.memWrite addr n v).pc = s.pc := rfl
@[simp] theorem memWrite_cycles (addr : Word) (n : Nat) (v : Word) : (s.memWrite addr n v).cycles = s.cycles := rfl
@[simp] theorem memWrite_icount (addr : Word) (n : Nat) (v : Word) : (s.memWrite addr n v).icount = s.icount := rfl
@[simp] theorem memWrite_callStack (addr : Word) (n : Nat) (v : Word) :
    (s.memWrite addr n v).callStack = s.callStack := rfl
@[simp] theorem memWrite_run (addr : Word) (n : Nat) (v : Word) : (s.memWrite addr n v).run = s.run := rfl
@[simp] theorem memWrite_fault (addr : Word) (n : Nat) (v : Word) : (s.memWrite addr n v).fault = s.fault := rfl
@[simp] theorem memWrite_inpos (addr : Word) (n : Nat) (v : Word) : (s.memWrite addr n v).inpos = s.inpos := rfl
@[simp] theorem memWrite_out (addr : Word) (n : Nat) (v : Word) : (s.memWrite addr n v).out = s.out := rfl
@[simp] theorem memWrite_mem (addr : Word) (n : Nat) (v : Word) :
    (s.memWrite addr n v).mem = s.mem.writeBytes addr.toNat (leBytes n v.toNat) := rfl
@[simp] theorem memWrite_imem (addr : Word) (n : Nat) (v : Word) : (s.memWrite addr n v).imem = s.imem := rfl
@[simp] theorem memWrite_trace (addr : Word) (n : Nat) (v : Word) : (s.memWrite addr n v).trace = s.trace := rfl
@[simp] theorem memWrite_provisioned (addr : Word) (n : Nat) (v : Word) :
    (s.memWrite addr n v).provisioned = s.provisioned := rfl
@[simp] theorem memWrite_answers (addr : Word) (n : Nat) (v : Word) : (s.memWrite addr n v).answers = s.answers := rfl
@[simp] theorem memWrite_randDraws (addr : Word) (n : Nat) (v : Word) :
    (s.memWrite addr n v).randDraws = s.randDraws := rfl
@[simp] theorem memWrite_reg (addr : Word) (n : Nat) (v : Word) (x : Reg) : (s.memWrite addr n v).reg x = s.reg x := rfl
@[simp] theorem memWrite_value (addr : Word) (n : Nat) (v : Word) (o : Operand) :
    (s.memWrite addr n v).value o = s.value o := by cases o <;> rfl
@[simp] theorem memWrite_isStorage (addr : Word) (n : Nat) (v : Word) (x : Nat) :
    (s.memWrite addr n v).isStorage x = s.isStorage x := rfl
@[simp] theorem memWrite_admitted (addr : Word) (n : Nat) (v : Word) (x : Word) (k : Nat) :
    (s.memWrite addr n v).admitted x k = s.admitted x k := rfl

/-! ## consumeInput -/

@[simp] theorem consumeInput_regs : (s.consumeInput).regs = s.regs := rfl
@[simp] theorem consumeInput_pc : (s.consumeInput).pc = s.pc := rfl
@[simp] theorem consumeInput_cycles : (s.consumeInput).cycles = s.cycles := rfl
@[simp] theorem consumeInput_icount : (s.consumeInput).icount = s.icount := rfl
@[simp] theorem consumeInput_callStack : (s.consumeInput).callStack = s.callStack := rfl
@[simp] theorem consumeInput_run : (s.consumeInput).run = s.run := rfl
@[simp] theorem consumeInput_fault : (s.consumeInput).fault = s.fault := rfl
@[simp] theorem consumeInput_inpos : (s.consumeInput).inpos = s.inpos + 1 := rfl
@[simp] theorem consumeInput_out : (s.consumeInput).out = s.out := rfl
@[simp] theorem consumeInput_mem : (s.consumeInput).mem = s.mem := rfl
@[simp] theorem consumeInput_imem : (s.consumeInput).imem = s.imem := rfl
@[simp] theorem consumeInput_trace : (s.consumeInput).trace = s.trace := rfl
@[simp] theorem consumeInput_provisioned : (s.consumeInput).provisioned = s.provisioned := rfl
@[simp] theorem consumeInput_answers : (s.consumeInput).answers = s.answers := rfl
@[simp] theorem consumeInput_randDraws : (s.consumeInput).randDraws = s.randDraws := rfl
@[simp] theorem consumeInput_reg (x : Reg) : (s.consumeInput).reg x = s.reg x := rfl
@[simp] theorem consumeInput_value (o : Operand) :
    (s.consumeInput).value o = s.value o := by cases o <;> rfl
@[simp] theorem consumeInput_readByte (x : Nat) :
    (s.consumeInput).readByte x = s.readByte x := rfl
@[simp] theorem consumeInput_isStorage (x : Nat) :
    (s.consumeInput).isStorage x = s.isStorage x := rfl
@[simp] theorem consumeInput_admitted (x : Word) (k : Nat) :
    (s.consumeInput).admitted x k = s.admitted x k := rfl

/-! ## emit -/

@[simp] theorem emit_regs (v : Word) : (s.emit v).regs = s.regs := rfl
@[simp] theorem emit_pc (v : Word) : (s.emit v).pc = s.pc := rfl
@[simp] theorem emit_cycles (v : Word) : (s.emit v).cycles = s.cycles := rfl
@[simp] theorem emit_icount (v : Word) : (s.emit v).icount = s.icount := rfl
@[simp] theorem emit_callStack (v : Word) : (s.emit v).callStack = s.callStack := rfl
@[simp] theorem emit_run (v : Word) : (s.emit v).run = s.run := rfl
@[simp] theorem emit_fault (v : Word) : (s.emit v).fault = s.fault := rfl
@[simp] theorem emit_inpos (v : Word) : (s.emit v).inpos = s.inpos := rfl
@[simp] theorem emit_out (v : Word) : (s.emit v).out = s.out ++ [v.setWidth 8] := rfl
@[simp] theorem emit_mem (v : Word) : (s.emit v).mem = s.mem := rfl
@[simp] theorem emit_imem (v : Word) : (s.emit v).imem = s.imem := rfl
@[simp] theorem emit_trace (v : Word) : (s.emit v).trace = s.trace := rfl
@[simp] theorem emit_provisioned (v : Word) : (s.emit v).provisioned = s.provisioned := rfl
@[simp] theorem emit_answers (v : Word) : (s.emit v).answers = s.answers := rfl
@[simp] theorem emit_randDraws (v : Word) : (s.emit v).randDraws = s.randDraws := rfl
@[simp] theorem emit_reg (v : Word) (x : Reg) : (s.emit v).reg x = s.reg x := rfl
@[simp] theorem emit_value (v : Word) (o : Operand) :
    (s.emit v).value o = s.value o := by cases o <;> rfl
@[simp] theorem emit_readByte (v : Word) (x : Nat) :
    (s.emit v).readByte x = s.readByte x := rfl
@[simp] theorem emit_isStorage (v : Word) (x : Nat) :
    (s.emit v).isStorage x = s.isStorage x := rfl
@[simp] theorem emit_admitted (v : Word) (x : Word) (k : Nat) :
    (s.emit v).admitted x k = s.admitted x k := rfl

/-! ## pushFrame -/

@[simp] theorem pushFrame_regs (ra : Word) : (s.pushFrame ra).regs = s.regs := rfl
@[simp] theorem pushFrame_pc (ra : Word) : (s.pushFrame ra).pc = s.pc := rfl
@[simp] theorem pushFrame_cycles (ra : Word) : (s.pushFrame ra).cycles = s.cycles := rfl
@[simp] theorem pushFrame_icount (ra : Word) : (s.pushFrame ra).icount = s.icount := rfl
@[simp] theorem pushFrame_callStack (ra : Word) :
    (s.pushFrame ra).callStack = { saved := s.snapshot, retAddr := ra } :: s.callStack := rfl
@[simp] theorem pushFrame_run (ra : Word) : (s.pushFrame ra).run = s.run := rfl
@[simp] theorem pushFrame_fault (ra : Word) : (s.pushFrame ra).fault = s.fault := rfl
@[simp] theorem pushFrame_inpos (ra : Word) : (s.pushFrame ra).inpos = s.inpos := rfl
@[simp] theorem pushFrame_out (ra : Word) : (s.pushFrame ra).out = s.out := rfl
@[simp] theorem pushFrame_mem (ra : Word) : (s.pushFrame ra).mem = s.mem := rfl
@[simp] theorem pushFrame_imem (ra : Word) : (s.pushFrame ra).imem = s.imem := rfl
@[simp] theorem pushFrame_trace (ra : Word) : (s.pushFrame ra).trace = s.trace := rfl
@[simp] theorem pushFrame_provisioned (ra : Word) : (s.pushFrame ra).provisioned = s.provisioned := rfl
@[simp] theorem pushFrame_answers (ra : Word) : (s.pushFrame ra).answers = s.answers := rfl
@[simp] theorem pushFrame_randDraws (ra : Word) : (s.pushFrame ra).randDraws = s.randDraws := rfl
@[simp] theorem pushFrame_reg (ra : Word) (x : Reg) : (s.pushFrame ra).reg x = s.reg x := rfl
@[simp] theorem pushFrame_value (ra : Word) (o : Operand) :
    (s.pushFrame ra).value o = s.value o := by cases o <;> rfl
@[simp] theorem pushFrame_readByte (ra : Word) (x : Nat) :
    (s.pushFrame ra).readByte x = s.readByte x := rfl
@[simp] theorem pushFrame_isStorage (ra : Word) (x : Nat) :
    (s.pushFrame ra).isStorage x = s.isStorage x := rfl
@[simp] theorem pushFrame_admitted (ra : Word) (x : Word) (k : Nat) :
    (s.pushFrame ra).admitted x k = s.admitted x k := rfl

/-! ## popFrame -/

@[simp] theorem popFrame_regs (mask : BitVec 25) (f : Frame) (rest : List Frame) :
    (s.popFrame mask f rest).regs = restoredRegs mask f.saved s.regs := by simp only [popFrame]
@[simp] theorem popFrame_pc (mask : BitVec 25) (f : Frame) (rest : List Frame) :
    (s.popFrame mask f rest).pc = s.pc := by simp only [popFrame]
@[simp] theorem popFrame_cycles (mask : BitVec 25) (f : Frame) (rest : List Frame) :
    (s.popFrame mask f rest).cycles = s.cycles := by simp only [popFrame]
@[simp] theorem popFrame_icount (mask : BitVec 25) (f : Frame) (rest : List Frame) :
    (s.popFrame mask f rest).icount = s.icount := by simp only [popFrame]
@[simp] theorem popFrame_callStack (mask : BitVec 25) (f : Frame) (rest : List Frame) :
    (s.popFrame mask f rest).callStack = rest := by simp only [popFrame]
@[simp] theorem popFrame_run (mask : BitVec 25) (f : Frame) (rest : List Frame) :
    (s.popFrame mask f rest).run = s.run := by simp only [popFrame]
@[simp] theorem popFrame_fault (mask : BitVec 25) (f : Frame) (rest : List Frame) :
    (s.popFrame mask f rest).fault = s.fault := by simp only [popFrame]
@[simp] theorem popFrame_inpos (mask : BitVec 25) (f : Frame) (rest : List Frame) :
    (s.popFrame mask f rest).inpos = s.inpos := by simp only [popFrame]
@[simp] theorem popFrame_out (mask : BitVec 25) (f : Frame) (rest : List Frame) :
    (s.popFrame mask f rest).out = s.out := by simp only [popFrame]
@[simp] theorem popFrame_mem (mask : BitVec 25) (f : Frame) (rest : List Frame) :
    (s.popFrame mask f rest).mem = s.mem := by simp only [popFrame]
@[simp] theorem popFrame_imem (mask : BitVec 25) (f : Frame) (rest : List Frame) :
    (s.popFrame mask f rest).imem = s.imem := by simp only [popFrame]
@[simp] theorem popFrame_trace (mask : BitVec 25) (f : Frame) (rest : List Frame) :
    (s.popFrame mask f rest).trace = s.trace := by simp only [popFrame]
@[simp] theorem popFrame_provisioned (mask : BitVec 25) (f : Frame) (rest : List Frame) :
    (s.popFrame mask f rest).provisioned = s.provisioned := by simp only [popFrame]
@[simp] theorem popFrame_answers (mask : BitVec 25) (f : Frame) (rest : List Frame) :
    (s.popFrame mask f rest).answers = s.answers := by simp only [popFrame]
@[simp] theorem popFrame_randDraws (mask : BitVec 25) (f : Frame) (rest : List Frame) :
    (s.popFrame mask f rest).randDraws = s.randDraws := by simp only [popFrame]
@[simp] theorem popFrame_readByte (mask : BitVec 25) (f : Frame) (rest : List Frame) (x : Nat) :
    (s.popFrame mask f rest).readByte x = s.readByte x := by simp only [readByte, popFrame]
@[simp] theorem popFrame_isStorage (mask : BitVec 25) (f : Frame) (rest : List Frame) (x : Nat) :
    (s.popFrame mask f rest).isStorage x = s.isStorage x := by simp only [isStorage, popFrame]
@[simp] theorem popFrame_admitted (mask : BitVec 25) (f : Frame) (rest : List Frame) (x : Word) (k : Nat) :
    (s.popFrame mask f rest).admitted x k = s.admitted x k := by simp only [admitted, isStorage, popFrame]

/-! ## drawRand -/

@[simp] theorem drawRand_regs : (s.drawRand).regs = s.regs := rfl
@[simp] theorem drawRand_pc : (s.drawRand).pc = s.pc := rfl
@[simp] theorem drawRand_cycles : (s.drawRand).cycles = s.cycles := rfl
@[simp] theorem drawRand_icount : (s.drawRand).icount = s.icount := rfl
@[simp] theorem drawRand_callStack : (s.drawRand).callStack = s.callStack := rfl
@[simp] theorem drawRand_run : (s.drawRand).run = s.run := rfl
@[simp] theorem drawRand_fault : (s.drawRand).fault = s.fault := rfl
@[simp] theorem drawRand_inpos : (s.drawRand).inpos = s.inpos := rfl
@[simp] theorem drawRand_out : (s.drawRand).out = s.out := rfl
@[simp] theorem drawRand_mem : (s.drawRand).mem = s.mem := rfl
@[simp] theorem drawRand_imem : (s.drawRand).imem = s.imem := rfl
@[simp] theorem drawRand_trace : (s.drawRand).trace = s.trace := rfl
@[simp] theorem drawRand_provisioned : (s.drawRand).provisioned = s.provisioned := rfl
@[simp] theorem drawRand_answers : (s.drawRand).answers = s.answers := rfl
@[simp] theorem drawRand_randDraws : (s.drawRand).randDraws = s.randDraws + 1 := rfl
@[simp] theorem drawRand_reg (x : Reg) : (s.drawRand).reg x = s.reg x := rfl
@[simp] theorem drawRand_value (o : Operand) :
    (s.drawRand).value o = s.value o := by cases o <;> rfl
@[simp] theorem drawRand_readByte (x : Nat) :
    (s.drawRand).readByte x = s.readByte x := rfl
@[simp] theorem drawRand_isStorage (x : Nat) :
    (s.drawRand).isStorage x = s.isStorage x := rfl
@[simp] theorem drawRand_admitted (x : Word) (k : Nat) :
    (s.drawRand).admitted x k = s.admitted x k := rfl

/-! ## raise -/

@[simp] theorem raise_regs (kind : FaultKind) (a : Option Word) : (s.raise kind a).regs = s.regs := rfl
@[simp] theorem raise_pc (kind : FaultKind) (a : Option Word) : (s.raise kind a).pc = s.pc := rfl
@[simp] theorem raise_cycles (kind : FaultKind) (a : Option Word) : (s.raise kind a).cycles = s.cycles := rfl
@[simp] theorem raise_icount (kind : FaultKind) (a : Option Word) : (s.raise kind a).icount = s.icount := rfl
@[simp] theorem raise_callStack (kind : FaultKind) (a : Option Word) : (s.raise kind a).callStack = s.callStack := rfl
@[simp] theorem raise_run (kind : FaultKind) (a : Option Word) : (s.raise kind a).run = .faulted kind := rfl
@[simp] theorem raise_fault (kind : FaultKind) (a : Option Word) :
    (s.raise kind a).fault = some { kind := kind, pc := s.pc, dataAddr := a, cycles := s.cycles, icount := s.icount } := rfl
@[simp] theorem raise_inpos (kind : FaultKind) (a : Option Word) : (s.raise kind a).inpos = s.inpos := rfl
@[simp] theorem raise_out (kind : FaultKind) (a : Option Word) : (s.raise kind a).out = s.out := rfl
@[simp] theorem raise_mem (kind : FaultKind) (a : Option Word) : (s.raise kind a).mem = s.mem := rfl
@[simp] theorem raise_imem (kind : FaultKind) (a : Option Word) : (s.raise kind a).imem = s.imem := rfl
@[simp] theorem raise_trace (kind : FaultKind) (a : Option Word) : (s.raise kind a).trace = s.trace := rfl
@[simp] theorem raise_provisioned (kind : FaultKind) (a : Option Word) :
    (s.raise kind a).provisioned = s.provisioned := rfl
@[simp] theorem raise_answers (kind : FaultKind) (a : Option Word) : (s.raise kind a).answers = s.answers := rfl
@[simp] theorem raise_randDraws (kind : FaultKind) (a : Option Word) : (s.raise kind a).randDraws = s.randDraws := rfl
@[simp] theorem raise_reg (kind : FaultKind) (a : Option Word) (x : Reg) : (s.raise kind a).reg x = s.reg x := rfl
@[simp] theorem raise_value (kind : FaultKind) (a : Option Word) (o : Operand) :
    (s.raise kind a).value o = s.value o := by cases o <;> rfl
@[simp] theorem raise_readByte (kind : FaultKind) (a : Option Word) (x : Nat) :
    (s.raise kind a).readByte x = s.readByte x := rfl
@[simp] theorem raise_isStorage (kind : FaultKind) (a : Option Word) (x : Nat) :
    (s.raise kind a).isStorage x = s.isStorage x := rfl
@[simp] theorem raise_admitted (kind : FaultKind) (a : Option Word) (x : Word) (k : Nat) :
    (s.raise kind a).admitted x k = s.admitted x k := rfl

/-! ## commit -/

@[simp] theorem commit_regs (m : Mnemonic) (slots : List Operand) (npc : Word) (before : State) :
    (s.commit m slots npc before).regs = s.regs := rfl
@[simp] theorem commit_pc (m : Mnemonic) (slots : List Operand) (npc : Word) (before : State) :
    (s.commit m slots npc before).pc = npc := rfl
@[simp] theorem commit_cycles (m : Mnemonic) (slots : List Operand) (npc : Word) (before : State) :
    (s.commit m slots npc before).cycles = s.cycles + cycleCost m := rfl
@[simp] theorem commit_icount (m : Mnemonic) (slots : List Operand) (npc : Word) (before : State) :
    (s.commit m slots npc before).icount = s.icount + 1 := rfl
@[simp] theorem commit_callStack (m : Mnemonic) (slots : List Operand) (npc : Word) (before : State) :
    (s.commit m slots npc before).callStack = s.callStack := rfl
@[simp] theorem commit_run (m : Mnemonic) (slots : List Operand) (npc : Word) (before : State) :
    (s.commit m slots npc before).run = s.run := rfl
@[simp] theorem commit_fault (m : Mnemonic) (slots : List Operand) (npc : Word) (before : State) :
    (s.commit m slots npc before).fault = s.fault := rfl
@[simp] theorem commit_inpos (m : Mnemonic) (slots : List Operand) (npc : Word) (before : State) :
    (s.commit m slots npc before).inpos = s.inpos := rfl
@[simp] theorem commit_out (m : Mnemonic) (slots : List Operand) (npc : Word) (before : State) :
    (s.commit m slots npc before).out = s.out := rfl
@[simp] theorem commit_mem (m : Mnemonic) (slots : List Operand) (npc : Word) (before : State) :
    (s.commit m slots npc before).mem = s.mem := rfl
@[simp] theorem commit_imem (m : Mnemonic) (slots : List Operand) (npc : Word) (before : State) :
    (s.commit m slots npc before).imem = s.imem := rfl
@[simp] theorem commit_trace (m : Mnemonic) (slots : List Operand) (npc : Word) (before : State) :
    (s.commit m slots npc before).trace = s.trace ++ [before.record m slots] := rfl
@[simp] theorem commit_provisioned (m : Mnemonic) (slots : List Operand) (npc : Word) (before : State) :
    (s.commit m slots npc before).provisioned = s.provisioned := rfl
@[simp] theorem commit_answers (m : Mnemonic) (slots : List Operand) (npc : Word) (before : State) :
    (s.commit m slots npc before).answers = s.answers := rfl
@[simp] theorem commit_randDraws (m : Mnemonic) (slots : List Operand) (npc : Word) (before : State) :
    (s.commit m slots npc before).randDraws = s.randDraws := rfl
@[simp] theorem commit_reg (m : Mnemonic) (slots : List Operand) (npc : Word) (before : State) (x : Reg) : (s.commit m slots npc before).reg x = s.reg x := rfl
@[simp] theorem commit_value (m : Mnemonic) (slots : List Operand) (npc : Word) (before : State) (o : Operand) :
    (s.commit m slots npc before).value o = s.value o := by cases o <;> rfl
@[simp] theorem commit_readByte (m : Mnemonic) (slots : List Operand) (npc : Word) (before : State) (x : Nat) :
    (s.commit m slots npc before).readByte x = s.readByte x := rfl
@[simp] theorem commit_isStorage (m : Mnemonic) (slots : List Operand) (npc : Word) (before : State) (x : Nat) :
    (s.commit m slots npc before).isStorage x = s.isStorage x := rfl
@[simp] theorem commit_admitted (m : Mnemonic) (slots : List Operand) (npc : Word) (before : State) (x : Word) (k : Nat) :
    (s.commit m slots npc before).admitted x k = s.admitted x k := rfl

/-! ## Registers after a write (R18, R322) -/

@[simp] theorem setReg_reg_same (r : Reg) (v : Word) : (s.setReg r v).reg r = v := by
  simp [reg, setReg]

theorem setReg_reg_other {r x : Reg} (v : Word) (h : x ≠ r) : (s.setReg r v).reg x = s.reg x := by
  have hne : r.val ≠ x.val := fun e => h (Fin.ext e.symm)
  simp [reg, setReg, hne]

theorem setReg_reg (r x : Reg) (v : Word) : (s.setReg r v).reg x = if x = r then v else s.reg x := by
  by_cases h : x = r
  · subst h; simp
  · simp [h, setReg_reg_other s v h]

theorem snapshot_get (j : Nat) (h : j < 25) : s.snapshot[j] = s.reg ⟨j, by omega⟩ := by
  simp [snapshot, reg]

theorem popFrame_reg (mask : BitVec 25) (f : Frame) (rest : List Frame) (x : Reg) :
    (s.popFrame mask f rest).reg x =
      if h : x.val < 25 then (if mask.getLsbD x.val then f.saved[x.val] else s.reg x) else s.reg x := by
  simp [reg, popFrame, restoredRegs]

@[simp] theorem value_imm (w : ImmWidth) (v : Word) : s.value (.imm w v) = v := rfl
@[simp] theorem value_reg (r : Reg) : s.value (.reg r) = s.reg r := rfl

end Sys2Proof.Machine.State
end

