-- ==== Sys2Proof/Laws/Memory.lean ====
section
/-! SUPPORT. Data memory: read after write, the canonical form kept by every operation, and that canonical memories with the
same bytes are equal data. -/

namespace Sys2Proof.Machine

/-! ## One byte -/

theorem Memory.lookup_write_same (m : Memory) (a : Nat) (b : Byte) : (m.write a b).lookup a = some b := by
  induction m with
  | nil => simp [write, lookup]
  | cons c m ih =>
    unfold write
    split
    · simp [lookup]
    · split
      · simp [lookup]
      · rename_i h1 h2
        simp [lookup, Ne.symm h2, ih]

theorem Memory.lookup_write_other (m : Memory) {a x : Nat} (b : Byte) (h : x ≠ a) :
    (m.write a b).lookup x = m.lookup x := by
  induction m with
  | nil => simp [write, lookup, Ne.symm h]
  | cons c m ih =>
    unfold write
    split
    · simp [lookup, Ne.symm h]
    · split
      · rename_i h1 h2
        simp [lookup, ← h2, Ne.symm h]
      · simp [lookup, ih]

theorem Memory.lookup_write (m : Memory) (a x : Nat) (b : Byte) :
    (m.write a b).lookup x = if x = a then some b else m.lookup x := by
  by_cases h : x = a
  · subst h; simp [lookup_write_same]
  · simp [h, lookup_write_other m b h]

/-! ## Several bytes -/

theorem Memory.lookup_writeBytes (bs : List Byte) :
    ∀ (m : Memory) (a x : Nat), (m.writeBytes a bs).lookup x =
      if a ≤ x ∧ x < a + bs.length then bs[x - a]? else m.lookup x := by
  induction bs with
  | nil => intro m a x; simp [writeBytes]
  | cons b bs ih =>
    intro m a x
    simp only [writeBytes, ih, List.length_cons, lookup_write]
    by_cases h : x = a
    · subst h; simp
    · by_cases h2 : a + 1 ≤ x ∧ x < a + 1 + bs.length
      · have h3 : a ≤ x ∧ x < a + (bs.length + 1) := by omega
        have h4 : x - a = (x - (a + 1)) + 1 := by omega
        simp [h2, h3, h4]
      · have h3 : ¬ (a ≤ x ∧ x < a + (bs.length + 1)) := by omega
        rw [if_neg h2, if_neg h, if_neg h3]

/-! ## The canonical form -/

theorem Memory.wf_tail {c : Host.Cell} {m : Memory} (h : Memory.wf (c :: m) = true) : m.wf = true := by
  cases m with
  | nil => rfl
  | cons d m => simp [wf] at h; exact h.2

theorem Memory.wf_cons {c : Host.Cell} {m : Memory} :
    Memory.wf (c :: m) = true ↔ (∀ d ∈ m, c.1 < d.1) ∧ m.wf = true := by
  induction m generalizing c with
  | nil => simp [wf]
  | cons d m ih =>
    simp only [wf, Bool.and_eq_true, decide_eq_true_eq]
    constructor
    · rintro ⟨h1, h2⟩
      refine ⟨?_, h2⟩
      intro e he
      rcases List.mem_cons.mp he with rfl | he
      · exact h1
      · exact Nat.lt_trans h1 ((ih.mp h2).1 e he)
    · rintro ⟨h1, h2⟩
      exact ⟨h1 d List.mem_cons_self, h2⟩

theorem Memory.mem_write {m : Memory} {a : Nat} {b : Byte} {c : Host.Cell} (h : c ∈ m.write a b) :
    c = (a, b) ∨ c ∈ m := by
  induction m with
  | nil => simpa [write] using h
  | cons d m ih =>
    unfold write at h
    split at h
    · rcases List.mem_cons.mp h with h | h
      · exact .inl h
      · exact .inr h
    · split at h
      · rcases List.mem_cons.mp h with h | h
        · exact .inl h
        · exact .inr (List.mem_cons_of_mem _ h)
      · rcases List.mem_cons.mp h with h | h
        · exact .inr (h ▸ List.mem_cons_self)
        · rcases ih h with h | h
          · exact .inl h
          · exact .inr (List.mem_cons_of_mem _ h)

theorem Memory.write_wf {m : Memory} (h : m.wf = true) (a : Nat) (b : Byte) : (m.write a b).wf = true := by
  induction m with
  | nil => rfl
  | cons c m ih =>
    have hc := wf_cons.mp h
    unfold write
    split
    · rename_i h1
      refine wf_cons.mpr ⟨?_, h⟩
      intro d hd
      rcases List.mem_cons.mp hd with rfl | hd
      · exact h1
      · exact Nat.lt_trans h1 (hc.1 d hd)
    · split
      · rename_i h1 h2
        refine wf_cons.mpr ⟨?_, hc.2⟩
        intro d hd
        exact h2 ▸ hc.1 d hd
      · rename_i h1 h2
        refine wf_cons.mpr ⟨?_, ih hc.2⟩
        intro d hd
        rcases mem_write hd with rfl | hd
        · show c.1 < a
          omega
        · exact hc.1 d hd

theorem Memory.writeBytes_wf (bs : List Byte) :
    ∀ {m : Memory}, m.wf = true → ∀ a, (m.writeBytes a bs).wf = true := by
  induction bs with
  | nil => intro m h a; exact h
  | cons b bs ih => intro m h a; exact ih (write_wf h a b) (a + 1)

theorem Memory.mem_writeBytes (bs : List Byte) : ∀ {m : Memory} {a : Nat} {c : Host.Cell},
    c ∈ m.writeBytes a bs → (a ≤ c.1 ∧ c.1 < a + bs.length) ∨ c ∈ m := by
  induction bs with
  | nil => intro m a c h; exact .inr h
  | cons b bs ih =>
    intro m a c h
    rcases ih h with h | h
    · left; simp only [List.length_cons]; omega
    · rcases mem_write h with rfl | h
      · left; simp
      · exact .inr h

theorem Memory.lookup_none_of_lt {m : Memory} {a : Nat} (h : ∀ c ∈ m, a < c.1) : m.lookup a = none := by
  induction m with
  | nil => rfl
  | cons c m ih =>
    have hc := h c List.mem_cons_self
    have hne : c.1 ≠ a := by omega
    simp [lookup, hne, ih fun d hd => h d (List.mem_cons_of_mem _ hd)]

/-- Canonical memories that know the same bytes are equal data. -/
theorem Memory.ext_of_wf {m n : Memory} (hm : m.wf = true) (hn : n.wf = true)
    (h : ∀ a, m.lookup a = n.lookup a) : m = n := by
  induction m generalizing n with
  | nil =>
    cases n with
    | nil => rfl
    | cons d n => have := h d.1; simp [lookup] at this
  | cons c m ih =>
    cases n with
    | nil => have := h c.1; simp [lookup] at this
    | cons d n =>
      have hc := wf_cons.mp hm
      have hd := wf_cons.mp hn
      have hcd : c.1 = d.1 := by
        rcases Nat.lt_trichotomy c.1 d.1 with hlt | heq | hgt
        · have h1 := h c.1
          rw [lookup_none_of_lt (m := d :: n)] at h1
          · simp [lookup] at h1
          · intro e he
            rcases List.mem_cons.mp he with rfl | he
            · exact hlt
            · exact Nat.lt_trans hlt (hd.1 e he)
        · exact heq
        · have h1 := h d.1
          rw [lookup_none_of_lt (m := c :: m)] at h1
          · simp [lookup] at h1
          · intro e he
            rcases List.mem_cons.mp he with rfl | he
            · exact hgt
            · exact Nat.lt_trans hgt (hc.1 e he)
      have hval : c.2 = d.2 := by
        have := h c.1
        simpa [lookup, ← hcd] using this
      have hrest : m = n := by
        apply ih hc.2 hd.2
        intro a
        by_cases ha : a = c.1
        · rw [ha, lookup_none_of_lt hc.1, lookup_none_of_lt (hcd ▸ hd.1)]
        · have := h a
          simpa [lookup, Ne.symm ha, hcd ▸ Ne.symm ha] using this
      rw [hrest, Prod.ext hcd hval]

/-! ## The state's reads and writes -/

@[simp] theorem leBytes_length (n v : Nat) : (leBytes n v).length = n := by
  induction n generalizing v with
  | zero => rfl
  | succ n ih => simp [leBytes, ih]

/-- R72: byte `k` of the little-endian bytes of a number. -/
theorem leBytes_get (n v k : Nat) (h : k < n) : (leBytes n v)[k]? = some (BitVec.ofNat 8 (v / 256 ^ k)) := by
  induction n generalizing v k with
  | zero => omega
  | succ n ih =>
    cases k with
    | zero => simp [leBytes]
    | succ k => simp [leBytes, ih (v / 256) k (by omega), Nat.div_div_eq_div_mul, Nat.pow_succ, Nat.mul_comm]

/-- R72, R83: a byte read after a store. -/
theorem State.memWrite_readByte (s : State) (addr : Word) (n : Nat) (v : Word) (x : Nat) :
    (s.memWrite addr n v).readByte x =
      if addr.toNat ≤ x ∧ x < addr.toNat + n then BitVec.ofNat 8 (v.toNat / 256 ^ (x - addr.toNat)) else s.readByte x := by
  simp only [readByte, memWrite, Memory.lookup_writeBytes, leBytes_length]
  split
  · rename_i h
    rw [leBytes_get _ _ _ (by omega)]
    rfl
  · rfl

theorem State.admitted_iff (s : State) (addr : Word) (n : Nat) :
    s.admitted addr n = true ↔ ∀ k < n, s.isStorage (addr.toNat + k) = true := by
  simp [admitted]

end Sys2Proof.Machine
end

