-- ==== Sys2Proof/Laws/Exec.lean ====
section
/-! SUPPORT. What a meaning can do, said once: one lemma per shared operation, and `exec_cases` over all instructions, from
which the whole-machine statements follow without unfolding a meaning again. -/

namespace Sys2Proof.Machine

/-- An instruction's own writes, before its commit. -/
inductive Writes (s : State) : State → Prop where
  | nothing : Writes s s
  | oneRegister (r : Reg) (v : Word) : Writes s (s.setReg r v)
  | twoRegisters (r q : Reg) (v w : Word) : Writes s ((s.setReg r v).setReg q w)
  | storage (addr : Word) (n : Nat) (v : Word) (h : s.admitted addr n = true) : Writes s (s.memWrite addr n v)
  | input (r : Reg) (v : Word) : Writes s (s.consumeInput.setReg r v)
  | output (v : Word) : Writes s (s.emit v)
  | push (retAddr : Word) : Writes s (s.pushFrame retAddr)
  | pop (mask : BitVec 25) (frame : Frame) (rest : List Frame) (h : s.callStack = frame :: rest) :
      Writes s (s.popFrame mask frame rest)
  | halt (code : Word) : Writes s { s with run := .halted code }
  | draw (r : Reg) (v : Word) : Writes s (s.drawRand.setReg r v)

/-- An instruction either faults, or commits its own writes. -/
inductive Ends (m : Mnemonic) (slots : List Operand) (s : State) : State → Prop where
  | faults (kind : FaultKind) (addr : Option Word) (h : kind ≠ .outOfBoundsExecution) : Ends m slots s (s.raise kind addr)
  | commits (after : State) (nextPc : Word) (h : Writes s after) : Ends m slots s (after.commit m slots nextPc s)

/-! ## The shared operations -/

variable {m : Mnemonic} {slots : List Operand} {s t : State}

theorem fallThrough_next {after : State} :
    fallThrough m slots s after = .next t ↔ t = after.commit m slots (s.pcAfter slots) s := by
  simp only [fallThrough, Host.Outcome.next.injEq]
  exact eq_comm

theorem jumpTo_next {target : Word} {after : State} :
    jumpTo m slots target s after = .next t ↔ t = after.commit m slots target s := by
  simp only [jumpTo, Host.Outcome.next.injEq]
  exact eq_comm

theorem faultNow_next {kind : FaultKind} {a : Option Word} : faultNow s kind a = .next t ↔ t = s.raise kind a := by
  simp only [faultNow, Host.Outcome.next.injEq]
  exact eq_comm

theorem fallThrough_ends {after : State} (hw : Writes s after) (h : fallThrough m slots s after = .next t) :
    Ends m slots s t := fallThrough_next.mp h ▸ .commits after _ hw

theorem jumpTo_ends {target : Word} {after : State} (hw : Writes s after)
    (h : jumpTo m slots target s after = .next t) : Ends m slots s t := jumpTo_next.mp h ▸ .commits after _ hw

theorem writeResult_ends {r : Reg} {v : Word} (h : writeResult m slots r v s = .next t) : Ends m slots s t :=
  fallThrough_ends (.oneRegister r v) h

theorem writeTwo_ends {r q : Reg} {v w : Word} (h : writeTwo m slots r q v w s = .next t) : Ends m slots s t :=
  fallThrough_ends (.twoRegisters r q v w) h

theorem faultNow_ends {kind : FaultKind} {a : Option Word} (hk : kind ≠ .outOfBoundsExecution)
    (h : faultNow s kind a = .next t) : Ends m slots s t := faultNow_next.mp h ▸ .faults kind a hk

theorem loadStorage_ends {n : Nat} {ext : Word → Word} {r : Reg} {addr : Word}
    (h : loadStorage m slots n ext r addr s = .next t) : Ends m slots s t := by
  unfold loadStorage at h
  split at h
  · exact fallThrough_ends (.oneRegister r _) h
  · exact faultNow_ends (by decide) h

theorem storeStorage_ends {n : Nat} {addr v : Word} (h : storeStorage m slots n addr v s = .next t) :
    Ends m slots s t := by
  unfold storeStorage at h
  split at h
  · rename_i ha
    exact fallThrough_ends (.storage addr n v ha) h
  · exact faultNow_ends (by decide) h

theorem loadNarrow_ends {n : Nat} {ext : Word → Word} {r : Reg} {addr : Word}
    (h : loadNarrow m slots n ext r addr s = .next t) : Ends m slots s t := by
  unfold loadNarrow at h
  split at h
  · exact faultNow_ends (by decide) h
  · exact loadStorage_ends h

theorem storeNarrow_ends {n : Nat} {addr v : Word} (h : storeNarrow m slots n addr v s = .next t) :
    Ends m slots s t := by
  unfold storeNarrow at h
  split at h
  · exact faultNow_ends (by decide) h
  · exact storeStorage_ends h

theorem loadInput_ends {r : Reg} (h : loadInput m slots r s = .next t) : Ends m slots s t :=
  fallThrough_ends (.input r _) h

theorem storeOutput_ends {v : Word} (h : storeOutput m slots v s = .next t) : Ends m slots s t :=
  fallThrough_ends (.output v) h

/-! ## All instructions -/

/-- Every meaning answers a next state. -/
theorem exec_isNext (i : Instr) (s : State) : ∃ t, exec i s = .next t := by
  have hload : ∀ (m : Mnemonic) (slots : List Operand) (n : Nat) (ext : Word → Word) (r : Reg) (addr : Word),
      ∃ t, loadStorage m slots n ext r addr s = .next t := by
    intros; unfold loadStorage; split <;> exact ⟨_, rfl⟩
  have hstore : ∀ (m : Mnemonic) (slots : List Operand) (n : Nat) (addr v : Word),
      ∃ t, storeStorage m slots n addr v s = .next t := by
    intros; unfold storeStorage; split <;> exact ⟨_, rfl⟩
  have hloadN : ∀ (m : Mnemonic) (slots : List Operand) (n : Nat) (ext : Word → Word) (r : Reg) (addr : Word),
      ∃ t, loadNarrow m slots n ext r addr s = .next t := by
    intros; unfold loadNarrow; split
    · exact ⟨_, rfl⟩
    · exact hload ..
  have hstoreN : ∀ (m : Mnemonic) (slots : List Operand) (n : Nat) (addr v : Word),
      ∃ t, storeNarrow m slots n addr v s = .next t := by
    intros; unfold storeNarrow; split
    · exact ⟨_, rfl⟩
    · exact hstore ..
  cases i with
  | div r q a b u4 => simp only [exec, execDiv]; split <;> exact ⟨_, rfl⟩
  | divu r q a b u4 => simp only [exec, execDivu]; split <;> exact ⟨_, rfl⟩
  | lb | lbu | ls | lsu | li | liu => exact hloadN ..
  | sb | ss | si => exact hstoreN ..
  | lw r a u2 u3 u4 =>
    simp only [exec, execLw]; split
    · exact ⟨_, rfl⟩
    · exact hload ..
  | sw a b u2 u3 u4 =>
    simp only [exec, execSw]; split
    · exact ⟨_, rfl⟩
    · exact hstore ..
  | jz => simp only [exec, execJz]; split <;> exact ⟨_, rfl⟩
  | jnz => simp only [exec, execJnz]; split <;> exact ⟨_, rfl⟩
  | ret mask => simp only [exec, execRet]; split <;> exact ⟨_, rfl⟩
  | _ => exact ⟨_, rfl⟩

/-- Every meaning faults without a partial effect, or commits its own writes under its own mnemonic and slots. -/
theorem exec_cases {i : Instr} (h : exec i s = .next t) : Ends i.mnemonic i.slots s t := by
  cases i with
  | add | sub | or | xor | and | not | cmp | neq | le | leq | leu | lequ | shl | shr | sar => exact writeResult_ends h
  | mul | mulu => exact writeTwo_ends h
  | div =>
    simp only [exec, execDiv] at h
    split at h
    · exact faultNow_ends (by decide) h
    · exact writeTwo_ends h
  | divu =>
    simp only [exec, execDivu] at h
    split at h
    · exact faultNow_ends (by decide) h
    · exact writeTwo_ends h
  | lb | lbu | ls | lsu | li | liu => exact loadNarrow_ends h
  | sb | ss | si => exact storeNarrow_ends h
  | lw =>
    simp only [exec, execLw] at h
    split at h
    · exact loadInput_ends h
    · exact loadStorage_ends h
  | sw =>
    simp only [exec, execSw] at h
    split at h
    · exact storeOutput_ends h
    · exact storeStorage_ends h
  | call => exact jumpTo_ends (.push _) h
  | jz =>
    simp only [exec, execJz] at h
    split at h
    · exact jumpTo_ends .nothing h
    · exact fallThrough_ends .nothing h
  | jnz =>
    simp only [exec, execJnz] at h
    split at h
    · exact fallThrough_ends .nothing h
    · exact jumpTo_ends .nothing h
  | halt => exact jumpTo_ends (.halt _) h
  | rand => exact fallThrough_ends (.draw _ _) h
  | ret mask =>
    simp only [exec, execRet] at h
    split at h
    · exact faultNow_ends (by decide) h
    · rename_i frame rest hs
      exact jumpTo_ends (.pop mask frame rest hs) h

end Sys2Proof.Machine
end

