-- ==== Sys2Proof/Laws/PerInstr.lean ====
section
/-! SUPPORT. Laws stated per instruction: the encoded length (30_encoding.md R115). -/

namespace Sys2Proof.Laws.EncodedLength

/-- R115: an instruction encodes to as many bytes as its length says, between 4 and 44. -/
def Statement (i : Instr) : Prop := (encode i).length = i.length ∧ 4 ≤ i.length ∧ i.length ≤ 44

theorem width_le (o : Operand) : o.width ≤ 8 := by
  match o with
  | .imm .w0 _ | .imm .w1 _ | .imm .w2 _ | .imm .w4 _ | .imm .w8 _ => simp [Operand.width, ImmWidth.bytes]
  | .reg _ => simp [Operand.width]

theorem immBytes_total (os : List Operand) : (os.flatMap Operand.immBytes).length = (os.map Operand.width).sum := by
  induction os with
  | nil => rfl
  | cons o os ih => simp [ih, Operand.immBytes_length]

theorem width_total_le (os : List Operand) : (os.map Operand.width).sum ≤ 8 * os.length := by
  induction os with
  | nil => simp
  | cons o os ih =>
    have := width_le o
    simp only [List.map_cons, List.sum_cons, List.length_cons]
    omega

/-- The law for any instruction with at most five slots. -/
theorem of_slots (i : Instr) (h : i.slots.length ≤ 5) : Statement i := by
  have h1 := width_total_le i.slots
  refine ⟨?_, by simp [Instr.length, slotsLength], ?_⟩
  · rw [encode, encodeWith, List.length_append, immBytes_total]
    rfl
  · simp only [Instr.length, slotsLength]
    omega

theorem add (r : Reg) (a b u3 u4 : Operand) : Statement (.add r a b u3 u4) :=
  of_slots _ (Nat.le_refl 5)

theorem sub (r : Reg) (a b u3 u4 : Operand) : Statement (.sub r a b u3 u4) :=
  of_slots _ (Nat.le_refl 5)

theorem or (r : Reg) (a b u3 u4 : Operand) : Statement (.or r a b u3 u4) :=
  of_slots _ (Nat.le_refl 5)

theorem xor (r : Reg) (a b u3 u4 : Operand) : Statement (.xor r a b u3 u4) :=
  of_slots _ (Nat.le_refl 5)

theorem and (r : Reg) (a b u3 u4 : Operand) : Statement (.and r a b u3 u4) :=
  of_slots _ (Nat.le_refl 5)

theorem not (r : Reg) (a u2 u3 u4 : Operand) : Statement (.not r a u2 u3 u4) :=
  of_slots _ (Nat.le_refl 5)

theorem mul (r q : Reg) (a b u4 : Operand) : Statement (.mul r q a b u4) :=
  of_slots _ (Nat.le_refl 5)

theorem mulu (r q : Reg) (a b u4 : Operand) : Statement (.mulu r q a b u4) :=
  of_slots _ (Nat.le_refl 5)

theorem div (r q : Reg) (a b u4 : Operand) : Statement (.div r q a b u4) :=
  of_slots _ (Nat.le_refl 5)

theorem divu (r q : Reg) (a b u4 : Operand) : Statement (.divu r q a b u4) :=
  of_slots _ (Nat.le_refl 5)

theorem cmp (r : Reg) (a b u3 u4 : Operand) : Statement (.cmp r a b u3 u4) :=
  of_slots _ (Nat.le_refl 5)

theorem neq (r : Reg) (a b u3 u4 : Operand) : Statement (.neq r a b u3 u4) :=
  of_slots _ (Nat.le_refl 5)

theorem le (r : Reg) (a b u3 u4 : Operand) : Statement (.le r a b u3 u4) :=
  of_slots _ (Nat.le_refl 5)

theorem leq (r : Reg) (a b u3 u4 : Operand) : Statement (.leq r a b u3 u4) :=
  of_slots _ (Nat.le_refl 5)

theorem leu (r : Reg) (a b u3 u4 : Operand) : Statement (.leu r a b u3 u4) :=
  of_slots _ (Nat.le_refl 5)

theorem lequ (r : Reg) (a b u3 u4 : Operand) : Statement (.lequ r a b u3 u4) :=
  of_slots _ (Nat.le_refl 5)

theorem shl (r : Reg) (a b u3 u4 : Operand) : Statement (.shl r a b u3 u4) :=
  of_slots _ (Nat.le_refl 5)

theorem shr (r : Reg) (a b u3 u4 : Operand) : Statement (.shr r a b u3 u4) :=
  of_slots _ (Nat.le_refl 5)

theorem sar (r : Reg) (a b u3 u4 : Operand) : Statement (.sar r a b u3 u4) :=
  of_slots _ (Nat.le_refl 5)

theorem lb (r : Reg) (a u2 u3 u4 : Operand) : Statement (.lb r a u2 u3 u4) :=
  of_slots _ (Nat.le_refl 5)

theorem lbu (r : Reg) (a u2 u3 u4 : Operand) : Statement (.lbu r a u2 u3 u4) :=
  of_slots _ (Nat.le_refl 5)

theorem ls (r : Reg) (a u2 u3 u4 : Operand) : Statement (.ls r a u2 u3 u4) :=
  of_slots _ (Nat.le_refl 5)

theorem lsu (r : Reg) (a u2 u3 u4 : Operand) : Statement (.lsu r a u2 u3 u4) :=
  of_slots _ (Nat.le_refl 5)

theorem li (r : Reg) (a u2 u3 u4 : Operand) : Statement (.li r a u2 u3 u4) :=
  of_slots _ (Nat.le_refl 5)

theorem liu (r : Reg) (a u2 u3 u4 : Operand) : Statement (.liu r a u2 u3 u4) :=
  of_slots _ (Nat.le_refl 5)

theorem lw (r : Reg) (a u2 u3 u4 : Operand) : Statement (.lw r a u2 u3 u4) :=
  of_slots _ (Nat.le_refl 5)

theorem sb (a b u2 u3 u4 : Operand) : Statement (.sb a b u2 u3 u4) :=
  of_slots _ (Nat.le_refl 5)

theorem ss (a b u2 u3 u4 : Operand) : Statement (.ss a b u2 u3 u4) :=
  of_slots _ (Nat.le_refl 5)

theorem si (a b u2 u3 u4 : Operand) : Statement (.si a b u2 u3 u4) :=
  of_slots _ (Nat.le_refl 5)

theorem sw (a b u2 u3 u4 : Operand) : Statement (.sw a b u2 u3 u4) :=
  of_slots _ (Nat.le_refl 5)

theorem call (a u1 u2 u3 u4 : Operand) : Statement (.call a u1 u2 u3 u4) :=
  of_slots _ (Nat.le_refl 5)

theorem jz (a b u2 u3 u4 : Operand) : Statement (.jz a b u2 u3 u4) :=
  of_slots _ (Nat.le_refl 5)

theorem jnz (a b u2 u3 u4 : Operand) : Statement (.jnz a b u2 u3 u4) :=
  of_slots _ (Nat.le_refl 5)

theorem halt (a u1 u2 u3 u4 : Operand) : Statement (.halt a u1 u2 u3 u4) :=
  of_slots _ (Nat.le_refl 5)

theorem rand (r : Reg) (u1 u2 u3 u4 : Operand) : Statement (.rand r u1 u2 u3 u4) :=
  of_slots _ (Nat.le_refl 5)

theorem ret (mask : BitVec 25) : Statement (.ret mask) := of_slots _ (Nat.zero_le 5)

end Sys2Proof.Laws.EncodedLength
end

