-- ==== Sys2Proof/Laws/Step.lean ====
section
/-! SUPPORT. What a step can do, said once, and the packaged induction over a run. -/

namespace Sys2Proof.Machine

variable {s t : State}

theorem step_running (h : s.run = .running) : step s = runInstruction s := by
  unfold step
  rw [h]

/-- A step that answers a next state ran an instruction, or faulted because a byte of it lies outside instruction memory. -/
theorem step_cases (h : step s = .next t) :
    s.run = .running ∧
      ((∃ i, s.fetch = .ok i ∧ exec i s = .next t) ∨ t = s.raise .outOfBoundsExecution none) := by
  unfold step at h
  split at h
  · rename_i hr
    refine ⟨hr, ?_⟩
    unfold runInstruction at h
    split at h
    · rename_i i hi
      exact .inl ⟨i, hi, h⟩
    · rename_i e he
      unfold noInstruction at h
      split at h
      · exact .inr (faultNow_next.mp h)
      · exact .inr (faultNow_next.mp h)
      · cases h
      · cases h
      · cases h
  · cases h
  · cases h

/-- What holds of the start and is kept by every step holds after any number of steps. -/
theorem run_induction (P : State → Prop) (hstep : ∀ a b, P a → step a = .next b → P b) (n : Nat) :
    ∀ a b, P a → (Host.Core.run ⟨State, Fault, Refusal, step, State.reset⟩ n a = .next b) → P b := by
  induction n with
  | zero => intro a b ha h; cases h; exact ha
  | succ n ih =>
    intro a b ha h
    simp only [Host.Core.run] at h
    split at h
    · rename_i c hc
      exact ih c b (hstep a c ha hc) h
    · cases h
    · cases h

end Sys2Proof.Machine
end

