-- ==== Sys2Proof/Tests/Slice0.lean ====
section
/-! SUPPORT. Tests: ill-formed terms refused; words written out from the spec's encoding (30_encoding.md §1, 95_test_vectors.md
§2); one-step results taken from 95_test_vectors.md §3; and, for every obligation with hypotheses, a concrete witness
that meets them. -/

namespace Sys2Proof.Tests

open Sys2Proof Sys2Proof.Machine Sys2Proof.Spec

/-! ## WellFormed -/

theorem test_wf_good : (Instr.add 0 (.imm .w1 0xFFFFFFFFFFFFFF80#64) (.imm .w8 allOnes) none0 none0).wf = true := by decide

/-- Code 0 stands for zero only (R113). -/
theorem test_wf_refuses_w0 : (Instr.halt (.imm .w0 1) none0 none0 none0 none0).wf = false := by decide

/-- 128 is not a signed byte (R146). -/
theorem test_wf_refuses_w1 : (Instr.add 0 (.imm .w1 128) none0 none0 none0).wf = false := by decide

theorem test_wf_refuses_w2 : (Instr.jz none0 (.imm .w2 0x8000) none0 none0 none0).wf = false := by decide

theorem test_wf_refuses_w4 : (Instr.sw (.reg 0) (.imm .w4 0x80000000) none0 none0 none0).wf = false := by decide

/-- An unused slot is checked too. -/
theorem test_wf_refuses_unused_slot : (Instr.rand 0 none0 none0 none0 (.imm .w0 1)).wf = false := by decide

/-! ## Decode

The bytes are written with the sample opcode map that numbers the mnemonics in the source's order, 0x00 .. 0x22; the map
is open (R8), so the machine's own map is tested through `opcodeByte`. -/

/-- The bytes decode to the instruction under the sample map. -/
def decodesTo (bytes : List Byte) (i : Instr) : Bool :=
  match decodeWith (Equiv.refl (Fin 35)) bytes with
  | .ok j => decide (j = i)
  | .error _ => false

/-- The bytes are refused for this reason under the sample map. -/
def refusedFor (bytes : List Byte) (e : DecodeError) : Bool :=
  match decodeWith (Equiv.refl (Fin 35)) bytes with
  | .ok _ => false
  | .error d => decide (d = e)

theorem test_decode_add : decodesTo [0x80, 0x52, 0x02, 0x00, 0x01]
    (.add 0 (.reg 0) (.imm .w1 0x1#64) (.imm .w0 0) (.imm .w0 0)) = true := by decide

theorem test_decode_sub : decodesTo [0x81, 0x13, 0x02, 0x00, 0x05, 0x07]
    (.sub 2 (.imm .w1 0x5#64) (.imm .w1 0x7#64) (.imm .w0 0) (.imm .w0 0)) = true := by decide

theorem test_decode_or : decodesTo [0x02, 0xE3, 0x05, 0x00, 0xF0, 0x00]
    (.or 1 (.reg 25) (.imm .w2 0xF0#64) (.imm .w0 0) (.imm .w0 0)) = true := by decide

theorem test_decode_xor : decodesTo [0x03, 0x24, 0x12, 0x00, 0x00, 0xFF]
    (.xor 3 (.imm .w2 0xFFFFFFFFFFFFFF00#64) (.reg 4) (.imm .w0 0) (.imm .w0 0)) = true := by decide

theorem test_decode_and : decodesTo [0x04, 0xB5, 0x04, 0x00, 0xFF, 0x00]
    (.and 5 (.reg 6) (.imm .w2 0xFF#64) (.imm .w0 0) (.imm .w0 0)) = true := by decide

theorem test_decode_not : decodesTo [0x85, 0xCE, 0x02, 0x00, 0x09]
    (.not 24 (.reg 7) (.imm .w1 0x9#64) (.imm .w0 0) (.imm .w0 0)) = true := by decide

theorem test_decode_mul : decodesTo [0x86, 0x62, 0x42, 0x00, 0xFF, 0xFF]
    (.mul 0 1 (.imm .w1 0xFFFFFFFFFFFFFFFF#64) (.imm .w1 0xFFFFFFFFFFFFFFFF#64) (.imm .w0 0)) = true := by decide

theorem test_decode_mulu : decodesTo [0x87, 0x83, 0x82, 0x03, 0xFF]
    (.mulu 2 3 (.imm .w1 0xFFFFFFFFFFFFFFFF#64) (.reg 9) (.imm .w0 0)) = true := by decide

theorem test_decode_div : decodesTo [0x88, 0x6A, 0x0B, 0x00]
    (.div 16 17 (.reg 0) (.imm .w0 0) (.imm .w0 0)) = true := by decide

theorem test_decode_divu : decodesTo [0x89, 0xC5, 0x42, 0x00, 0xF9, 0x02]
    (.divu 6 7 (.imm .w1 0xFFFFFFFFFFFFFFF9#64) (.imm .w1 0x2#64) (.imm .w0 0)) = true := by decide

theorem test_decode_cmp : decodesTo [0x0A, 0x53, 0x02, 0x00, 0xFF]
    (.cmp 1 (.reg 0) (.imm .w1 0xFFFFFFFFFFFFFFFF#64) (.imm .w0 0) (.imm .w0 0)) = true := by decide

theorem test_decode_neq : decodesTo [0x8B, 0x16, 0x1E, 0x00, 0x05]
    (.neq 8 (.imm .w1 0x5#64) (.reg 10) (.imm .w0 0) (.imm .w0 0)) = true := by decide

theorem test_decode_le : decodesTo [0x0C, 0x18, 0x25, 0x00]
    (.le 11 (.reg 12) (.reg 13) (.imm .w0 0) (.imm .w0 0)) = true := by decide

theorem test_decode_leq : decodesTo [0x8D, 0x09, 0x02, 0x00, 0xFF]
    (.leq 14 (.imm .w0 0) (.imm .w1 0xFFFFFFFFFFFFFFFF#64) (.imm .w0 0) (.imm .w0 0)) = true := by decide

theorem test_decode_leu : decodesTo [0x0E, 0x3A, 0x2E, 0x00, 0x00, 0x00, 0x01, 0x00]
    (.leu 15 (.imm .w4 0x10000#64) (.reg 18) (.imm .w0 0) (.imm .w0 0)) = true := by decide

theorem test_decode_lequ : decodesTo [0x0F, 0x1C, 0x04, 0x00, 0x05, 0x2C, 0x01]
    (.lequ 19 (.imm .w1 0x5#64) (.imm .w2 0x12C#64) (.imm .w0 0) (.imm .w0 0)) = true := by decide

theorem test_decode_shl : decodesTo [0x10, 0x47, 0x02, 0x00, 0x01, 0x00, 0x00, 0x00, 0x00, 0x00, 0x00, 0x80, 0xFF]
    (.shl 9 (.imm .w8 0x8000000000000001#64) (.imm .w1 0xFFFFFFFFFFFFFFFF#64) (.imm .w0 0) (.imm .w0 0)) = true := by decide

theorem test_decode_shr : decodesTo [0x91, 0xAC, 0x03, 0x00, 0x3F]
    (.shr 20 (.reg 21) (.imm .w1 0x3F#64) (.imm .w0 0) (.imm .w0 0)) = true := by decide

theorem test_decode_sar : decodesTo [0x92, 0x17, 0x02, 0x00, 0xF9, 0x01]
    (.sar 10 (.imm .w1 0xFFFFFFFFFFFFFFF9#64) (.imm .w1 0x1#64) (.imm .w0 0) (.imm .w0 0)) = true := by decide

theorem test_decode_lb : decodesTo [0x13, 0xE3, 0x01, 0x00]
    (.lb 1 (.reg 25) (.imm .w0 0) (.imm .w0 0) (.imm .w0 0)) = true := by decide

theorem test_decode_lbu : decodesTo [0x94, 0x42, 0x00, 0x00, 0x00, 0x00, 0x00, 0x00, 0x00, 0x00, 0x00, 0x20]
    (.lbu 0 (.imm .w8 0x2000000000000000#64) (.imm .w0 0) (.imm .w0 0) (.imm .w0 0)) = true := by decide

theorem test_decode_ls : decodesTo [0x15, 0x74, 0x00, 0x00]
    (.ls 3 (.reg 2) (.imm .w0 0) (.imm .w0 0) (.imm .w0 0)) = true := by decide

theorem test_decode_lsu : decodesTo [0x96, 0x2D, 0x00, 0x00, 0xFE, 0xFF]
    (.lsu 22 (.imm .w2 0xFFFFFFFFFFFFFFFE#64) (.imm .w0 0) (.imm .w0 0) (.imm .w0 0)) = true := by decide

theorem test_decode_li : decodesTo [0x17, 0xDE, 0x01, 0x00]
    (.li 23 (.reg 24) (.imm .w0 0) (.imm .w0 0) (.imm .w0 0)) = true := by decide

theorem test_decode_liu : decodesTo [0x98, 0xE4, 0x01, 0x00]
    (.liu 4 (.reg 25) (.imm .w0 0) (.imm .w0 0) (.imm .w0 0)) = true := by decide

theorem test_decode_lw : decodesTo [0x99, 0x12, 0x00, 0x00, 0xFF]
    (.lw 0 (.imm .w1 0xFFFFFFFFFFFFFFFF#64) (.imm .w0 0) (.imm .w0 0) (.imm .w0 0)) = true := by decide

theorem test_decode_sb : decodesTo [0x1A, 0x72, 0x00, 0x00, 0x02, 0x00, 0x00, 0x00, 0x00, 0x00, 0x00, 0x20]
    (.sb (.imm .w8 0x2000000000000002#64) (.reg 2) (.imm .w0 0) (.imm .w0 0) (.imm .w0 0)) = true := by decide

theorem test_decode_ss : decodesTo [0x1B, 0x2F, 0x00, 0x00, 0xCD, 0xAB]
    (.ss (.reg 25) (.imm .w2 0xFFFFFFFFFFFFABCD#64) (.imm .w0 0) (.imm .w0 0) (.imm .w0 0)) = true := by decide

theorem test_decode_si : decodesTo [0x9C, 0x32, 0x00, 0x00, 0x00, 0x00, 0x00, 0x80]
    (.si (.reg 0) (.imm .w4 0xFFFFFFFF80000000#64) (.imm .w0 0) (.imm .w0 0) (.imm .w0 0)) = true := by decide

theorem test_decode_sw : decodesTo [0x1D, 0x4F, 0x00, 0x00, 0x88, 0x77, 0x66, 0x55, 0x44, 0x33, 0x22, 0x11]
    (.sw (.reg 25) (.imm .w8 0x1122334455667788#64) (.imm .w0 0) (.imm .w0 0) (.imm .w0 0)) = true := by decide

theorem test_decode_call : decodesTo [0x9E, 0x00, 0x00, 0x00, 0x0E]
    (.call (.imm .w1 0xE#64) (.imm .w0 0) (.imm .w0 0) (.imm .w0 0) (.imm .w0 0)) = true := by decide

theorem test_decode_jz : decodesTo [0x9F, 0x50, 0x00, 0x00, 0x20]
    (.jz (.imm .w1 0x20#64) (.reg 0) (.imm .w0 0) (.imm .w0 0) (.imm .w0 0)) = true := by decide

theorem test_decode_jnz : decodesTo [0xA0, 0x50, 0x00, 0x00, 0x09]
    (.jnz (.imm .w1 0x9#64) (.reg 0) (.imm .w0 0) (.imm .w0 0) (.imm .w0 0)) = true := by decide

theorem test_decode_halt : decodesTo [0xA1, 0x03, 0x00, 0x00]
    (.halt (.reg 2) (.imm .w0 0) (.imm .w0 0) (.imm .w0 0) (.imm .w0 0)) = true := by decide

theorem test_decode_rand : decodesTo [0x22, 0x1F, 0xC4, 0x20, 0x01, 0x02, 0x00, 0x03, 0x00, 0x00, 0x00, 0x04, 0x00, 0x00, 0x00, 0x00, 0x00, 0x00, 0x00]
    (.rand 25 (.imm .w1 0x1#64) (.imm .w2 0x2#64) (.imm .w4 0x3#64) (.imm .w8 0x4#64)) = true := by decide

/-- R112: `ret c`, whose mask leaves bit 2 clear. -/
theorem test_decode_ret : decodesTo [0xFF, 0xFD, 0xFF, 0xFF] (.ret 0x1FFFFFB#25) = true := by decide

theorem test_decode_table_ret : decodeTableWord 32 0x0000007F = some (.ret 0) := by decide

theorem test_decode_open_map :
    decode [opcodeByte 0x80 .add, 0x12, 0x00, 0x00, 0x0A] = .ok (.add 0 (.imm .w1 10) none0 none0 none0) := by
  have h : ∀ n : Fin 35, (BitVec.ofNat 32 (leNat [BitVec.ofNat 8 (0x80 + n.val), 0x12, 0x00, 0x00])).toNat =
      0x1280 + n.val := by decide
  have hid := opcodeIdWith_lt machineIds .add
  have h1 := h ⟨opcodeId .add, hid⟩
  have hop : (opcodeField (BitVec.ofNat 32 (leNat [opcodeByte 0x80 .add, 0x12, 0x00, 0x00]))).toNat =
      opcodeIdWith machineIds .add := by
    rw [opcodeField_toNat, opcodeByte, h1]
    simp only [opcodeId] at hid ⊢
    omega
  have hk : ∀ n : Fin 35, readKinds (BitVec.ofNat 32 (leNat [BitVec.ofNat 8 (0x80 + n.val), 0x12, 0x00, 0x00]))
      [0, 1, 2, 3, 4] = .ok [.reg 0, .imm .w1, .imm .w0, .imm .w0, .imm .w0] := by
    intro n; fin_cases n <;> rfl
  have hne : opcodeField (BitVec.ofNat 32 (leNat [opcodeByte 0x80 .add, 0x12, 0x00, 0x00])) ≠ retId := by
    intro e
    rw [e] at hop
    have : retId.toNat = 127 := rfl
    omega
  simp only [decode, decodeWith, splitBytes, if_neg hne, stdOpWith_opcodeIdWith machineIds .add _ hop]
  rw [opcodeByte, hk ⟨opcodeId .add, hid⟩]
  rfl

/-- R121: the first and the last id without a mnemonic. -/
theorem test_decode_refuses_0x23 : refusedFor [0x23, 0, 0, 0] (.undefinedOpcode 0x23) = true := by decide

theorem test_decode_refuses_0x7e : refusedFor [0x7E, 0, 0, 0] (.undefinedOpcode 0x7E) = true := by decide

/-- R113, R407: kind code 31 in slot 2, judged before the missing immediates of slot 4. -/
theorem test_decode_refuses_code_31 : refusedFor [0x80, 0x02, 0x3E, 0x40] (.undefinedKindCode 2) = true := by decide

/-- R119: the assembler never writes an immediate in a destination slot. -/
theorem test_decode_refuses_immediate_destination : refusedFor [0x80, 0, 0, 0, 1] (.immediateDestination 0) = true := by
  decide

/-- R130: header and immediates that end early. -/
theorem test_decode_short_header : refusedFor [0x00, 0x00, 0x00] .shortHeader = true := by decide

theorem test_decode_short_immediates : refusedFor [0x80, 0x12, 0, 0] .shortImmediates = true := by decide

/-! ## One step -/

/-- A state with 16 bytes of storage at `STACK_BASE`. -/
def base : State := { State.reset with provisioned := [⟨0x1000000000000000, 16⟩] }

/-- The start of 95_test_vectors.md §3.6: the bytes 88 77 66 55 44 33 22 11 at `STACK_BASE`. -/
def stored : State := base.memWrite stackBase 8 0x1122334455667788#64

/-- An immediate operand. -/
def word (v : Word) : Operand := .imm .w8 v

/-- A register after an instruction. -/
def regAfter (i : Instr) (s : State) (r : Reg) : Option Word :=
  match exec i s with
  | .next t => some (t.reg r)
  | _ => none

/-- The state after an instruction. -/
def stateAfter (i : Instr) (s : State) : State :=
  match exec i s with
  | .next t => t
  | _ => s

theorem exec_stateAfter (i : Instr) (s : State) : exec i s = .next (stateAfter i s) := by
  obtain ⟨t, h⟩ := exec_isNext i s
  rw [stateAfter, h]

/-- The state a step leads to, when it answers one. -/
def afterStep (s : State) : Option State :=
  match step s with
  | .next t => some t
  | _ => none

theorem test_add_wraps : regAfter (.add 2 (word 0xFFFFFFFFFFFFFFFF) (word 0x1) unused unused) base 2 = some 0x0 := by
  decide

theorem test_sub_borrows : regAfter (.sub 2 (word 0x5) (word 0x7) unused unused) base 2 = some 0xFFFFFFFFFFFFFFFE := by
  decide

theorem test_sub_min : regAfter (.sub 2 (word 0x8000000000000000) (word 0x1) unused unused) base 2 = some 0x7FFFFFFFFFFFFFFF := by
  decide

theorem test_or : regAfter (.or 2 (word 0xF0) (word 0xF) unused unused) base 2 = some 0xFF := by
  decide

theorem test_xor : regAfter (.xor 2 (word 0xFF) (word 0xF) unused unused) base 2 = some 0xF0 := by
  decide

theorem test_and : regAfter (.and 2 (word 0xFF00) (word 0xFF0) unused unused) base 2 = some 0xF00 := by
  decide

theorem test_not : regAfter (.not 2 (word 0xFF) unused unused unused) base 2 = some 0xFFFFFFFFFFFFFF00 := by decide

theorem test_add_reads_before_writing :
    regAfter (.add 0 (.reg 0) (.reg 0) unused unused) (base.setReg 0 3) 0 = some 6 := by decide

theorem test_mul_minus_one :
    (regAfter (.mul 0 1 (word 0xFFFFFFFFFFFFFFFF) (word 0xFFFFFFFFFFFFFFFF) unused) base 0,
      regAfter (.mul 0 1 (word 0xFFFFFFFFFFFFFFFF) (word 0xFFFFFFFFFFFFFFFF) unused) base 1) =
    (some 0x1, some 0x0) := by decide

theorem test_mulu_all_ones :
    (regAfter (.mulu 0 1 (word 0xFFFFFFFFFFFFFFFF) (word 0xFFFFFFFFFFFFFFFF) unused) base 0,
      regAfter (.mulu 0 1 (word 0xFFFFFFFFFFFFFFFF) (word 0xFFFFFFFFFFFFFFFF) unused) base 1) =
    (some 0x1, some 0xFFFFFFFFFFFFFFFE) := by decide

theorem test_mulu_high :
    (regAfter (.mulu 0 1 (word 0x7) (word 0xFFFFFFFFFFFFFFFD) unused) base 0,
      regAfter (.mulu 0 1 (word 0x7) (word 0xFFFFFFFFFFFFFFFD) unused) base 1) =
    (some 0xFFFFFFFFFFFFFFEB, some 0x6) := by decide

theorem test_mul_one_register :
    regAfter (.mul 0 0 (word 0x4000000000000000) (word 4) unused) base 0 = some 1 := by decide

theorem test_div_floor :
    (regAfter (.div 0 1 (word 0xFFFFFFFFFFFFFFF9) (word 0x2) unused) base 0,
      regAfter (.div 0 1 (word 0xFFFFFFFFFFFFFFF9) (word 0x2) unused) base 1) =
    (some 0xFFFFFFFFFFFFFFFC, some 0x1) := by decide

theorem test_div_min :
    (regAfter (.div 0 1 (word 0x8000000000000000) (word 0xFFFFFFFFFFFFFFFF) unused) base 0,
      regAfter (.div 0 1 (word 0x8000000000000000) (word 0xFFFFFFFFFFFFFFFF) unused) base 1) =
    (some 0x8000000000000000, some 0x0) := by decide

theorem test_divu_large :
    (regAfter (.divu 0 1 (word 0xFFFFFFFFFFFFFFF9) (word 0x2) unused) base 0,
      regAfter (.divu 0 1 (word 0xFFFFFFFFFFFFFFF9) (word 0x2) unused) base 1) =
    (some 0x7FFFFFFFFFFFFFFC, some 0x1) := by decide

theorem test_divu_small :
    (regAfter (.divu 0 1 (word 0x7) (word 0xFFFFFFFFFFFFFFFE) unused) base 0,
      regAfter (.divu 0 1 (word 0x7) (word 0xFFFFFFFFFFFFFFFE) unused) base 1) =
    (some 0x0, some 0x7) := by decide

theorem test_cmp_equal : regAfter (.cmp 2 (word 0x5) (word 0x5) unused unused) base 2 = some 0x1 := by
  decide

theorem test_cmp_different : regAfter (.cmp 2 (word 0x5) (word 0x6) unused unused) base 2 = some 0x0 := by
  decide

theorem test_neq_equal : regAfter (.neq 2 (word 0x5) (word 0x5) unused unused) base 2 = some 0x0 := by
  decide

theorem test_neq_different : regAfter (.neq 2 (word 0xFFFFFFFFFFFFFFFF) (word 0x0) unused unused) base 2 = some 0x1 := by
  decide

theorem test_le_equal : regAfter (.le 2 (word 0x5) (word 0x5) unused unused) base 2 = some 0x0 := by
  decide

theorem test_le_signed : regAfter (.le 2 (word 0xFFFFFFFFFFFFFFFF) (word 0x0) unused unused) base 2 = some 0x1 := by
  decide

theorem test_leq_equal : regAfter (.leq 2 (word 0x5) (word 0x5) unused unused) base 2 = some 0x1 := by
  decide

theorem test_leq_signed : regAfter (.leq 2 (word 0x0) (word 0xFFFFFFFFFFFFFFFF) unused unused) base 2 = some 0x0 := by
  decide

theorem test_leu_unsigned : regAfter (.leu 2 (word 0xFFFFFFFFFFFFFFFF) (word 0x0) unused unused) base 2 = some 0x0 := by
  decide

theorem test_leu_less : regAfter (.leu 2 (word 0x0) (word 0xFFFFFFFFFFFFFFFF) unused unused) base 2 = some 0x1 := by
  decide

theorem test_lequ_equal : regAfter (.lequ 2 (word 0xFFFFFFFFFFFFFFFF) (word 0xFFFFFFFFFFFFFFFF) unused unused) base 2 = some 0x1 := by
  decide

theorem test_lequ_unsigned : regAfter (.lequ 2 (word 0x8000000000000000) (word 0x7FFFFFFFFFFFFFFF) unused unused) base 2 = some 0x0 := by
  decide

theorem test_shl_over : regAfter (.shl 2 (word 0x1) (word 0x41) unused unused) base 2 = some 0x0 := by
  decide

theorem test_shl_negative : regAfter (.shl 2 (word 0x8000000000000001) (word 0xFFFFFFFFFFFFFFFF) unused unused) base 2 = some 0x4000000000000000 := by
  decide

theorem test_shr_63 : regAfter (.shr 2 (word 0xFFFFFFFFFFFFFFFF) (word 0x3F) unused unused) base 2 = some 0x1 := by
  decide

theorem test_shr_negative : regAfter (.shr 2 (word 0x5) (word 0xFFFFFFFFFFFFFFFD) unused unused) base 2 = some 0x28 := by
  decide

theorem test_sar_floor : regAfter (.sar 2 (word 0xFFFFFFFFFFFFFFF9) (word 0x1) unused unused) base 2 = some 0xFFFFFFFFFFFFFFFC := by
  decide

theorem test_sar_fill : regAfter (.sar 2 (word 0x8000000000000000) (word 0x40) unused unused) base 2 = some 0xFFFFFFFFFFFFFFFF := by
  decide

theorem test_lb : regAfter (.lb 2 (word 0x1000000000000000) unused unused unused) stored 2 = some 0xFFFFFFFFFFFFFF88 := by decide

theorem test_lbu : regAfter (.lbu 2 (word 0x1000000000000000) unused unused unused) stored 2 = some 0x88 := by decide

theorem test_ls : regAfter (.ls 2 (word 0x1000000000000006) unused unused unused) stored 2 = some 0x1122 := by decide

theorem test_lsu : regAfter (.lsu 2 (word 0x1000000000000001) unused unused unused) stored 2 = some 0x6677 := by decide

theorem test_li : regAfter (.li 2 (word 0x1000000000000001) unused unused unused) stored 2 = some 0x44556677 := by decide

theorem test_liu : regAfter (.liu 2 (word 0x1000000000000004) unused unused unused) stored 2 = some 0x11223344 := by decide

theorem test_lw : regAfter (.lw 2 (word 0x1000000000000000) unused unused unused) stored 2 = some 0x1122334455667788 := by decide

theorem test_sb :
    regAfter (.lb 2 (word 0x1000000000000007) unused unused unused)
      (stateAfter (.sb (word 0x1000000000000007) (word 0xFFFFFFFFFFFFFFFF) unused unused unused) stored) 2 =
    some 0xFFFFFFFFFFFFFFFF := by decide

theorem test_ss :
    regAfter (.lw 2 (word 0x1000000000000000) unused unused unused)
      (stateAfter (.ss (word 0x1000000000000000) (word 0xABCD) unused unused unused) stored) 2 =
    some 0x112233445566ABCD := by decide

theorem test_si :
    regAfter (.li 2 (word 0x1000000000000000) unused unused unused)
      (stateAfter (.si (word 0x1000000000000000) (word 0x80000000) unused unused unused) stored) 2 =
    some 0xFFFFFFFF80000000 := by decide

theorem test_sw :
    regAfter (.ls 2 (word 0x100000000000000E) unused unused unused)
      (stateAfter (.sw (word 0x1000000000000008) (word 0x1122334455667788) unused unused unused) stored) 2 =
    some 0x1122 := by decide

/-- 95_test_vectors.md §3.6: storage ends at `A + 16`, so the load at `A + 9` faults with its address. -/
theorem test_lw_not_admitted :
    ((stateAfter (.lw 2 (word 0x1000000000000009) unused unused unused) stored).run,
      (stateAfter (.lw 2 (word 0x1000000000000009) unused unused unused) stored).fault.map FaultRecord.dataAddr) =
    (.faulted .invalidMemoryAccess, some (some 0x1000000000000009#64)) := by decide

theorem test_sb_io_cell_faults :
    ((stateAfter (.sb (word ioAddr) (word 1) unused unused unused) base).run,
      (stateAfter (.sb (word ioAddr) (word 1) unused unused unused) base).out) =
    (.faulted .invalidMemoryAccess, []) := by decide

theorem test_lw_end_of_stream :
    regAfter (.lw 2 (word ioAddr) unused unused unused) { base with answers := [none] } 2 = some allOnes := by decide

theorem test_sw_output :
    (stateAfter (.sw (word ioAddr) (word 0x1241) unused unused unused) base).out = [0x41] := by decide

/-- 95_test_vectors.md §3.3: no write on a zero divisor. -/
theorem test_divu_zero :
    ((stateAfter (.divu 0 1 (word 7) (word 0) unused) base).run,
      (stateAfter (.divu 0 1 (word 7) (word 0) unused) base).reg 0) = (.faulted .divisionByZero, 0) := by decide

/-- 95_test_vectors.md §3.7: `call 0x40` at 0x10, 5 bytes long. -/
theorem test_call :
    ((stateAfter (.call (.imm .w1 0x40) unused unused unused unused) { base with pc := 0x10 }).pc,
      (stateAfter (.call (.imm .w1 0x40) unused unused unused unused)
        { base with pc := 0x10 }).callStack.map Frame.retAddr) = (0x40, [0x15]) := by decide

/-- 95_test_vectors.md P4a, P4b: the callee's `c` = 2 over the saved 1, and `z` never restored. -/
def inCallee : State :=
  let called := stateAfter (.call (.imm .w1 0x0E) unused unused unused unused) ((base.setReg 2 1).setReg 25 8)
  (called.setReg 2 2).setReg 25 16

theorem test_ret_restores :
    ((stateAfter (.ret 0x1FFFFFF#25) inCallee).reg 2, (stateAfter (.ret 0x1FFFFFF#25) inCallee).reg 25) = (1, 16) := by
  decide

theorem test_ret_returns :
    ((stateAfter (.ret 0x1FFFFFB#25) inCallee).reg 2, (stateAfter (.ret 0x1FFFFFB#25) inCallee).pc) = (2, 5) := by
  decide

/-- 95_test_vectors.md §3.7. -/
theorem test_jz :
    ((stateAfter (.jz (.imm .w1 0x20) unused unused unused unused) { base with pc := 8 }).pc,
      (stateAfter (.jz (.imm .w1 0x20) (.imm .w1 5) unused unused unused) { base with pc := 8 }).pc) = (0x20, 0x0E) := by
  decide

theorem test_jnz :
    ((stateAfter (.jnz (.imm .w1 0x20) (word 0x8000000000000000) unused unused unused) { base with pc := 8 }).pc,
      (stateAfter (.jnz (.imm .w1 0x20) (.reg 0) unused unused unused) { base with pc := 8 }).pc) = (0x20, 0x0D) := by
  decide

theorem test_halt :
    ((stateAfter (.halt (.imm .w1 allOnes) unused unused unused unused) { base with pc := 8 }).run,
      (stateAfter (.halt (.imm .w1 allOnes) unused unused unused unused) { base with pc := 8 }).pc,
      (stateAfter (.halt (.imm .w1 allOnes) unused unused unused unused) { base with pc := 8 }).cycles) =
    (.halted allOnes, 8, 9) := by decide

/-- R13: the value is free; that the execution uses it up is not. -/
theorem test_rand : (stateAfter (.rand 3 unused unused unused unused) base).randDraws = 1 := by decide

/-- 95_test_vectors.md P8: `ret` with nothing called. -/
def retState : State := { State.reset with imem := [0x7F, 0, 0, 0] }

theorem test_step_ret_empty :
    ((afterStep retState).map State.run, (afterStep retState).map State.pc, (afterStep retState).map State.icount) =
    (some (.faulted .invalidMemoryAccess), some 0, some 0) := by decide

/-- The word stands where the next step fetches. -/
theorem test_step_fetch_word :
    (afterStep (State.reset.withFetchWord 32 0x0000007F)).map State.run = some (.faulted .invalidMemoryAccess) := by decide

/-- R37: nothing is fetched past the end, and `pc` does not wrap. -/
theorem test_step_past_the_end :
    (afterStep { retState with pc := 0xFFFFFFFFFFFFFFFF#64 }).map State.run = some (.faulted .outOfBoundsExecution) := by
  decide

theorem test_step_halted : afterStep { retState with run := .halted 0 } = none := by decide

/-- 95_test_vectors.md P7: the data section's bytes and the instruction memory's length. -/
def dataImage : List Byte := [3, 0, 0, 0, 0x41, 0x43, 0, 0x7F, 0, 0, 0]

def dataHost : List Region := [⟨0x2000000000000000, 3⟩]

theorem test_load :
    (load dataImage dataHost []).map (fun s => (s.mem, s.imem)) =
      some ([(0x2000000000000000, 0x41), (0x2000000000000001, 0x43), (0x2000000000000002, 0)], [0x7F, 0, 0, 0]) := by
  decide

/-- R451: an image shorter than it says. -/
theorem test_load_short : load [4, 0, 0, 0, 1] dataHost [] = none := by decide

/-- R455: the data section is not provisioned. -/
theorem test_load_unprovisioned : load dataImage [⟨0x2000000000000000, 2⟩] [] = none := by decide

/-! ## Witnesses: a state and operands that meet each obligation's hypotheses, clause by clause -/

theorem witness_LoadPlacesTheImageAndSetsTheResetState :
    (load dataImage dataHost []).isSome = true ∧ 2 < leNat (dataImage.take 4) ∧
      ¬ (0x2000000000000000 ≤ 0x2000000000000003 ∧ 0x2000000000000003 < 0x2000000000000000 + leNat (dataImage.take 4)) := by
  decide

theorem witness_LoadStartsExactlyTheValidImages :
    (load dataImage dataHost []).isSome = true ∧ load [0, 0, 0] dataHost [] = none := by decide

theorem witness_DecodeOfEncodeIsTheInstruction :
    (Instr.sw (.reg 25) (.imm .w8 0x1122334455667788#64) none0 none0 none0).wf = true ∧ (Instr.ret 5).wf = true := by decide

theorem witness_EncodeOfDecodeIsTheBytesRead :
    decodeWith (Equiv.refl (Fin 35)) [0x7F, 0, 0, 0] = .ok (.ret 0) := rfl

theorem witness_StepRunsTheDecodedInstruction :
    retState.run = .running ∧ decode (retState.imem.drop retState.pc.toNat) = .ok (.ret 0) := ⟨rfl, rfl⟩

theorem witness_StepRunsTheInstructionEncodedAtPc :
    let s : State := { State.reset with imem := [1, 2] ++ encode (.ret 5) ++ [3], pc := 2 }
    s.run = .running ∧ (Instr.ret 5).wf = true ∧ s.imem = [1, 2] ++ encode (.ret 5) ++ [3] ∧
      s.pc.toNat = [1, 2].length := ⟨rfl, rfl, rfl, rfl⟩

/-- A running engine at `pc` 0 with this instruction memory. -/
def running (imem : List Byte) : State := { State.reset with imem := imem }

theorem witness_FetchOutsideInstructionMemoryFaults :
    ((running [0, 0, 0]).run = .running ∧ (running [0, 0, 0]).imem.length < (running [0, 0, 0]).pc.toNat + 4) ∧
    ((running [0, 0x10, 0, 0]).run = .running ∧
      (running [0, 0x10, 0, 0]).pc.toNat + 4 ≤ (running [0, 0x10, 0, 0]).imem.length ∧
      opcodeAt (running [0, 0x10, 0, 0]) < 0x23 ∧ (∀ k < 5, codeAt (running [0, 0x10, 0, 0]) k ≠ 31) ∧
      (running [0, 0x10, 0, 0]).imem.length < (running [0, 0x10, 0, 0]).pc.toNat + lengthAt (running [0, 0x10, 0, 0])) := by
  decide

theorem witness_UndefinedOpcodesAreRefused :
    ∀ n ∈ [0x23, 0x7E], let s := running [BitVec.ofNat 8 n, 0, 0, 0]
      s.run = .running ∧ s.pc.toNat + 4 ≤ s.imem.length ∧ 0x23 ≤ opcodeAt s ∧ opcodeAt s ≤ 0x7E := by decide

/-- Slot 0 and slot 4, the ends of the range. -/
theorem witness_KindCode31IsRefused :
    (let s := running [0x80, 0x0F, 0, 0];
      s.run = .running ∧ s.pc.toNat + 4 ≤ s.imem.length ∧ opcodeAt s < 0x23 ∧ codeAt s 0 = 31) ∧
    (let s := running [0, 0, 0, 0xF8];
      s.run = .running ∧ s.pc.toNat + 4 ≤ s.imem.length ∧ opcodeAt s < 0x23 ∧ codeAt s 4 = 31 ∧
        ∀ j < 4, codeAt s j ≠ 31) := by decide

/-- Slot 0 of `add` with code 1, and slot 1 of `mul` with code 4 after a register in slot 0, whatever their opcode ids. -/
theorem witness_ImmediateDestinationsAreRefused :
    (∃ s : State, s.run = .running ∧ opcodeAt s = opcodeId .add ∧ 0 < destCount .add ∧ (∀ j < 5, codeAt s j ≠ 31) ∧
      s.pc.toNat + 4 ≤ s.imem.length ∧ s.pc.toNat + lengthAt s ≤ s.imem.length ∧ codeAt s 0 < 5) ∧
    (∃ s : State, s.run = .running ∧ opcodeAt s = opcodeId .mul ∧ 1 < destCount .mul ∧ (∀ j < 5, codeAt s j ≠ 31) ∧
      s.pc.toNat + 4 ≤ s.imem.length ∧ s.pc.toNat + lengthAt s ≤ s.imem.length ∧ codeAt s 1 < 5 ∧
      ∀ j < 1, 5 ≤ codeAt s j) := by
  constructor
  · have h : ∀ n : Fin 35, let s := running [BitVec.ofNat 8 (0x80 + n.val), 0, 0, 0, 1]
        s.run = .running ∧ opcodeAt s = n.val ∧ 0 < destCount .add ∧ (∀ j < 5, codeAt s j ≠ 31) ∧
        s.pc.toNat + 4 ≤ s.imem.length ∧ s.pc.toNat + lengthAt s ≤ s.imem.length ∧ codeAt s 0 < 5 := by decide
    exact ⟨_, h ⟨opcodeId .add, opcodeIdWith_lt machineIds .add⟩⟩
  · have h : ∀ n : Fin 35, let s := running [BitVec.ofNat 8 (0x80 + n.val), 0x42, 0, 0, 1, 2, 3, 4, 5, 6, 7, 8]
        s.run = .running ∧ opcodeAt s = n.val ∧ 1 < destCount .mul ∧ (∀ j < 5, codeAt s j ≠ 31) ∧
        s.pc.toNat + 4 ≤ s.imem.length ∧ s.pc.toNat + lengthAt s ≤ s.imem.length ∧ codeAt s 1 < 5 ∧
        ∀ j < 1, 5 ≤ codeAt s j := by decide
    exact ⟨_, h ⟨opcodeId .mul, opcodeIdWith_lt machineIds .mul⟩⟩

theorem witness_TerminalStatesTakeNoStep :
    ({ base with run := .halted 7 } : State).run = .halted 7 ∧
    ({ base with run := .faulted .divisionByZero } : State).run = .faulted .divisionByZero := ⟨rfl, rfl⟩

theorem witness_MultiplyWritesLowThenHighHalf : (0 : Reg) ≠ 25 := by decide

theorem witness_ProductHalvesAreTheExactProduct :
    (0 : Reg) ≠ 1 ∧ exec (.mul 0 1 (word 7) (word allOnes) unused) base =
      .next (stateAfter (.mul 0 1 (word 7) (word allOnes) unused) base) ∧
    exec (.mulu 0 1 (word 7) (word allOnes) unused) base =
      .next (stateAfter (.mulu 0 1 (word 7) (word allOnes) unused) base) :=
  ⟨by decide, exec_stateAfter _ _, exec_stateAfter _ _⟩

/-- A positive divisor, a negative one, and both slots naming one register or two. -/
theorem witness_SignedDivisionRoundsTowardNegativeInfinity :
    (base.value (word 2) ≠ 0 ∧ 0 < (base.value (word 2)).toInt) ∧
    (base.value (word allOnes) ≠ 0 ∧ (base.value (word allOnes)).toInt < 0) ∧ (0 : Reg) ≠ 1 := by decide

theorem witness_UnsignedDivisionTruncatesOrFaults :
    (0 : Reg) ≠ 1 ∧ base.value (word 2) ≠ 0 ∧ base.value (.reg 0) = 0 := by decide

theorem witness_NamingOneRegisterTwiceKeepsTheSecondWrite : base.value (word 2) ≠ 0 := by decide

theorem witness_DivisionByZeroFaultsWithoutEffect : base.value (.reg 3) = 0 := by decide

/-- Counts at and around the places where the clauses meet: 0, 64 and the most negative. -/
theorem witness_ShiftsFollowTheSignedCount :
    0 ≤ (base.value (word 0)).toInt ∧ 0 ≤ (base.value (word 64)).toInt ∧
      (base.value (word 0x8000000000000000)).toInt < 0 := by decide

/-- Each width at the last address where it is admitted. -/
theorem witness_AdmittedLoadsWriteTheExtendedBytes :
    Admitted stored (stored.value (word 0x100000000000000F)) 1 ∧ Admitted stored (stored.value (word 0x100000000000000E)) 2 ∧
    Admitted stored (stored.value (word 0x100000000000000C)) 4 ∧
    Admitted stored (stored.value (word 0x1000000000000008)) 8 := by
  unfold Admitted
  decide

/-- The same addresses, on a state with nothing stored. -/
theorem witness_AdmittedStoresWriteExactlyTheirBytes :
    Admitted base (base.value (word 0x100000000000000F)) 1 ∧ Admitted base (base.value (word 0x100000000000000E)) 2 ∧
    Admitted base (base.value (word 0x100000000000000C)) 4 ∧ Admitted base (base.value (.reg 25)) 8 := by
  unfold Admitted
  decide

/-- Each width at the first address past storage, and words at the I/O cell's edge. -/
theorem witness_AccessesNotAdmittedFault :
    ¬ Admitted base (base.value (word 0x1000000000000010)) 1 ∧ ¬ Admitted base (base.value (word 0x100000000000000F)) 2 ∧
    ¬ Admitted base (base.value (word 0x100000000000000D)) 4 ∧ ¬ Admitted base (base.value (word 0x1000000000000009)) 8 ∧
    ¬ Admitted base (base.value (word 0xFFFFFFFFFFFFFFF8)) 8 ∧
    base.value (word 0x1000000000000009) ≠ 0xFFFFFFFFFFFFFFFF#64 ∧
    base.value (word 0xFFFFFFFFFFFFFFF8) ≠ 0xFFFFFFFFFFFFFFFF#64 := by
  unfold Admitted
  decide

/-- The cell itself, and for each width the lowest address whose bytes cover it. -/
theorem witness_TheIoCellAcceptsOnlyLwAndSw :
    base.value (word ioAddr) = 0xFFFFFFFFFFFFFFFF#64 ∧
    (base.value (word 0xFFFFFFFFFFFFFFF8) ≠ 0xFFFFFFFFFFFFFFFF#64 ∧
      (base.value (word 0xFFFFFFFFFFFFFFF8)).toNat + 8 > 0xFFFFFFFFFFFFFFFF) ∧
    (base.value (word 0xFFFFFFFFFFFFFFFC) ≠ 0xFFFFFFFFFFFFFFFF#64 ∧
      (base.value (word 0xFFFFFFFFFFFFFFFC)).toNat + 4 > 0xFFFFFFFFFFFFFFFF) ∧
    (base.value (word 0xFFFFFFFFFFFFFFFE) ≠ 0xFFFFFFFFFFFFFFFF#64 ∧
      (base.value (word 0xFFFFFFFFFFFFFFFE)).toNat + 2 > 0xFFFFFFFFFFFFFFFF) := by decide

/-- The answers: a byte, end-of-stream, and none listed, where P_INPUT is open and is one of the two. -/
theorem witness_InputLoadsTakeTheNextAnswer :
    base.value (.imm .w1 allOnes) = 0xFFFFFFFFFFFFFFFF#64 ∧
    ({ base with answers := [some 0xFF, none], inpos := 0 } : State).answers[0]? = some (some 0xFF) ∧
    ({ base with answers := [some 0xFF, none], inpos := 1 } : State).answers[1]? = some none ∧
    base.answers[base.inpos]? = none ∧
    ((∃ byte, Config.input base.inpos = some byte) ∨ Config.input base.inpos = none) := by
  refine ⟨rfl, rfl, rfl, rfl, ?_⟩
  cases Config.input base.inpos with
  | none => exact .inr rfl
  | some byte => exact .inl ⟨byte, rfl⟩

theorem witness_OutputStoresEmitTheLowByte : base.value (word ioAddr) = 0xFFFFFFFFFFFFFFFF#64 := by decide

theorem witness_LoadsSeeTheBytesOfAnEarlierStore :
    Admitted base (base.value (.reg 25)) 8 ∧ exec (.sw (.reg 25) (word 0x1234) unused unused unused) base =
      .next (stateAfter (.sw (.reg 25) (word 0x1234) unused unused unused) base) := by
  refine ⟨?_, exec_stateAfter _ _⟩
  unfold Admitted
  decide

theorem witness_RetRestoresTheMaskedRegisters : ∃ frame, inCallee.callStack = frame :: [] := ⟨_, rfl⟩

theorem witness_RetOnAnEmptyStackFaults : State.reset.callStack = [] := rfl

theorem witness_RetUndoesCallButForReturnedRegisters :
    let t := stateAfter (.call (word 0x40) unused unused unused unused) base
    exec (.call (word 0x40) unused unused unused unused) base = .next t ∧ (t.setReg 25 8).callStack = t.callStack :=
  ⟨exec_stateAfter _ _, rfl⟩

theorem commits_of_running {i : Instr} {s : State} (h : s.run = .running)
    (hn : ∀ kind ∈ [FaultKind.divisionByZero, .invalidMemoryAccess, .outOfBoundsExecution],
      (stateAfter i s).run ≠ .faulted kind) : Commits i s (stateAfter i s) :=
  ⟨h, exec_stateAfter i s, fun kind => hn kind (by cases kind <;> decide)⟩

/-- An instruction that falls through, the five that do not, and both ways of a conditional jump. -/
theorem witness_EveryCommitMovesPcAsItsInstructionSays :
    (∃ t, Commits (.add 0 unused unused unused unused) base t) ∧
    (∃ t, Commits (.call (word 0x40) unused unused unused unused) base t) ∧
    (∃ t, Commits (.ret 5) inCallee t) ∧
    (∃ t, Commits (.jz (word 0x40) (.reg 0) unused unused unused) base t ∧ base.value (.reg 0) = 0) ∧
    (∃ t, Commits (.jnz (word 0x40) (.reg 25) unused unused unused) base t ∧ base.value (.reg 25) ≠ 0) ∧
    (∃ t, Commits (.halt (.reg 0) unused unused unused unused) base t) :=
  ⟨⟨_, commits_of_running rfl (by decide)⟩, ⟨_, commits_of_running rfl (by decide)⟩,
    ⟨_, commits_of_running rfl (by decide)⟩, ⟨_, commits_of_running rfl (by decide), by decide⟩,
    ⟨_, commits_of_running rfl (by decide), by decide⟩, ⟨_, commits_of_running rfl (by decide)⟩⟩

theorem witness_EveryCommitCountsItsCostAndIsTraced : ∃ t, Commits (.halt (word 3) unused unused unused unused) base t :=
  ⟨_, commits_of_running rfl (by decide)⟩

/-- A step that ends Faulted, from a state that meets the invariant, and one that does not end so. -/
theorem witness_steps :
    (∃ t, step retState = .next t ∧ t.run = .faulted .invalidMemoryAccess) ∧
    (∃ t, step { inCallee with imem := [0x7F, 0, 0, 0], pc := 0 } = .next t ∧ t.run = .running) := by
  have h : ∀ (s : State) (run : RunState), (afterStep s).map State.run = some run → ∃ t, step s = .next t ∧ t.run = run := by
    intro s run h
    unfold afterStep at h
    split at h
    · rename_i t ht
      exact ⟨t, ht, by simpa using h⟩
    · cases h
  exact ⟨h _ _ (by decide), h _ _ (by decide)⟩

theorem witness_FaultsHaveNoPartialEffects : ∃ t, step retState = .next t ∧ t.run = .faulted .invalidMemoryAccess :=
  witness_steps.1

theorem witness_OnlyTheListedCausesFault :
    base.run = .running ∧
    (stateAfter (.div 0 1 unused unused unused) base).run = .faulted .divisionByZero ∧
    (stateAfter (.ret 0) base).run = .faulted .invalidMemoryAccess ∧
    (stateAfter (.ls 0 unused unused unused unused) base).run = .faulted .invalidMemoryAccess ∧
    (stateAfter (.sw unused unused unused unused unused) base).run = .faulted .invalidMemoryAccess := by decide

theorem witness_NoInstructionWritesOrReadsInstructionMemory :
    (∃ t, step retState = .next t) ∧
    exec (.lbu 0 (.reg 25) unused unused unused) base = .next (stateAfter (.lbu 0 (.reg 25) unused unused unused) base) := by
  obtain ⟨t, h, _⟩ := witness_steps.1
  exact ⟨⟨t, h⟩, exec_stateAfter _ _⟩

theorem witness_NoStepChangesTheHostsParameters : ∃ t, step retState = .next t := by
  obtain ⟨t, h, _⟩ := witness_steps.1
  exact ⟨t, h⟩

theorem witness_OnlyStoresChangeDataMemory :
    exec (.lw 0 (.reg 25) unused unused unused) stored = .next (stateAfter (.lw 0 (.reg 25) unused unused unused) stored) ∧
    (Instr.lw 0 (.reg 25) unused unused unused).mnemonic ∉ [.std .sb, .std .ss, .std .si, .std .sw] :=
  ⟨exec_stateAfter _ _, by decide⟩

theorem witness_OnlyIoCellAccessesTouchTheStreams :
    (stateAfter (.lw 0 (word ioAddr) unused unused unused) base).inpos = 1 ∧
    (stateAfter (.sw (word ioAddr) (word 0x41) unused unused unused) base).out = [0x41] ∧
    (stateAfter (.add 0 unused unused unused unused) base).inpos = 0 := by decide

theorem witness_OnlyCallAndRetTouchTheCallStack :
    exec (.call (word 4) unused unused unused unused) base =
      .next (stateAfter (.call (word 4) unused unused unused unused) base) ∧
    exec (.ret 5) inCallee = .next (stateAfter (.ret 5) inCallee) ∧
    exec (.add 0 unused unused unused unused) base = .next (stateAfter (.add 0 unused unused unused unused) base) :=
  ⟨exec_stateAfter _ _, exec_stateAfter _ _, exec_stateAfter _ _⟩

theorem witness_OnlyDestinationRegistersChange :
    exec (.mul 0 1 unused unused unused) base = .next (stateAfter (.mul 0 1 unused unused unused) base) ∧
    (Instr.mul 0 1 unused unused unused).mnemonic = .std .mul ∧
    Operand.reg 2 ∉ (Instr.mul 0 1 unused unused unused).slots.take (destCount .mul) :=
  ⟨exec_stateAfter _ _, rfl, by decide⟩

/-- The hypotheses of `Obligations.WidthsAndUnusedSlotsChangeOnlyTheLength`, for two instructions of different lengths. -/
def SameButWidths (i j : Instr) (op : StdOp) (s : State) : Prop :=
  i.mnemonic = .std op ∧ j.mnemonic = .std op ∧
  i.slots.take (destCount op) = j.slots.take (destCount op) ∧
  ((i.slots.drop (destCount op)).take (sourceCount op)).map s.value =
    ((j.slots.drop (destCount op)).take (sourceCount op)).map s.value ∧
  exec i s = .next (stateAfter i s) ∧ exec j s = .next (stateAfter j s) ∧ i.length ≠ j.length

/-- 95_test_vectors.md §2's `add a, a, 0` with a zero of no byte and of one byte; then one pair for each other clause:
`call`, a jump that is taken and one that is not, `halt`, and an instruction that faults. -/
theorem witness_WidthsAndUnusedSlotsChangeOnlyTheLength :
    SameButWidths (.add 0 (.reg 0) (.imm .w0 0) unused unused) (.add 0 (.reg 0) (.imm .w1 0) (.imm .w4 7) unused) .add base ∧
    SameButWidths (.call (.imm .w1 4) unused unused unused unused) (.call (.imm .w8 4) unused unused unused unused) .call
      base ∧
    (SameButWidths (.jz (.imm .w1 4) (.reg 0) unused unused unused) (.jz (.imm .w2 4) (.reg 0) unused unused unused) .jz
        base ∧
      JumpsOrHalts (.jz (.imm .w1 4) (.reg 0) unused unused unused) .jz base) ∧
    (SameButWidths (.jnz (.imm .w1 4) (.reg 0) unused unused unused) (.jnz (.imm .w2 4) (.reg 0) unused unused unused) .jnz
        base ∧
      ¬ JumpsOrHalts (.jnz (.imm .w1 4) (.reg 0) unused unused unused) .jnz base) ∧
    SameButWidths (.halt (.reg 0) unused unused unused unused) (.halt (.imm .w1 0) unused unused unused unused) .halt base ∧
    (SameButWidths (.div 0 1 (.reg 25) (.reg 0) unused) (.div 0 1 (.reg 25) (.imm .w1 0) unused) .div base ∧
      (stateAfter (.div 0 1 (.reg 25) (.reg 0) unused) base).run = .faulted .divisionByZero) := by
  have w : ∀ {i j : Instr} {op : StdOp} {s : State}, i.mnemonic = .std op → j.mnemonic = .std op →
      i.slots.take (destCount op) = j.slots.take (destCount op) →
      ((i.slots.drop (destCount op)).take (sourceCount op)).map s.value =
        ((j.slots.drop (destCount op)).take (sourceCount op)).map s.value →
      i.length ≠ j.length → SameButWidths i j op s :=
    fun h1 h2 h3 h4 h5 => ⟨h1, h2, h3, h4, exec_stateAfter _ _, exec_stateAfter _ _, h5⟩
  refine ⟨w rfl rfl rfl rfl (by decide), w rfl rfl rfl rfl (by decide), ⟨w rfl rfl rfl rfl (by decide), ?_⟩,
    ⟨w rfl rfl rfl rfl (by decide), ?_⟩, w rfl rfl rfl rfl (by decide), w rfl rfl rfl rfl (by decide), by decide⟩
  · exact .inr (.inr ⟨.reg 0, rfl, .inl ⟨rfl, by decide⟩⟩)
  · rintro (h | h | ⟨tested, h1, h2 | h2⟩)
    · cases h
    · cases h
    · cases h2.1
    · cases h1
      exact h2.2 (by decide)

theorem witness_CountersAndTraceNeverInfluenceExecution : ∃ t, step retState = .next t := by
  obtain ⟨t, h, _⟩ := witness_steps.1
  exact ⟨t, h⟩

theorem retState_inv : retState.Inv :=
  ⟨rfl, fun _ h => absurd h (List.not_mem_nil), by decide, rfl, rfl, rfl⟩

theorem witness_EveryStepKeepsTheInvariant : retState.Inv ∧ ∃ t, step retState = .next t := by
  obtain ⟨t, h, _⟩ := witness_steps.1
  exact ⟨retState_inv, t, h⟩

theorem witness_LoadEstablishesTheInvariant : (load dataImage dataHost [some 1, none]).isSome = true := by decide

theorem running_inv (imem : List Byte) (h : imem.length < 2 ^ 64) : (running imem).Inv :=
  ⟨rfl, fun _ h => absurd h (List.not_mem_nil), h, rfl, rfl, rfl⟩

/-- 95_test_vectors.md §2: `ret`, and `add a, 10, 0`, 5 bytes long, whatever its opcode id. -/
theorem witness_AFetchedInstructionEndsInInstructionMemory :
    (retState.Inv ∧ retState.fetch = .ok (.ret 0) ∧ opcodeAt retState = 0x7F) ∧
    (let s := running [opcodeByte 0x80 .add, 0x12, 0x00, 0x00, 0x0A];
      s.Inv ∧ s.fetch = .ok (.add 0 (.imm .w1 10) none0 none0 none0) ∧ opcodeAt s ≠ 0x7F ∧ lengthAt s = 5) := by
  have h : ∀ n : Fin 35, let s := running [BitVec.ofNat 8 (0x80 + n.val), 0x12, 0x00, 0x00, 0x0A]
      opcodeAt s ≠ 0x7F ∧ lengthAt s = 5 := by decide
  exact ⟨⟨retState_inv, rfl, by decide⟩, running_inv _ (by simp), test_decode_open_map,
    h ⟨opcodeId .add, opcodeIdWith_lt machineIds .add⟩⟩

/-- The pointer itself pushed, and popped into another register or into the pointer. -/
theorem witness_PushThenPopGivesTheValueBack : Admitted base (base.reg 25) 8 := by
  unfold Admitted
  decide

theorem witness_AssemblerWidthsAreMinimalAndRetMasksComplement :
    ImmWidth.w2.fits 300 = true ∧ minimalWidth 300 = .w2 ∧ retMask [2] = 0x1FFFFFB#25 ∧ retMask [] = 0x1FFFFFF#25 := by
  decide

end Sys2Proof.Tests
end

/-! The registers at reset (10_state.md R33), and where `pc` goes at a commit (R35). -/

namespace Sys2Proof.Machine

/-! ## Reset -/

theorem reset_reg (x : Reg) : State.reset.reg x = if x = 25 then stackBase else 0 := by
  have hreset : State.reset = { State.reset with regs := Vector.replicate 26 0 }.setReg 25 stackBase := rfl
  rw [hreset, State.setReg_reg]
  simp [State.reg]

/-! ## The sequential instructions -/

/-- What an instruction that neither transfers control nor halts answers: a fault, or a commit that goes on to the
instruction that follows it. -/
inductive Sequential (m : Mnemonic) (slots : List Operand) (s : State) : Result → Prop where
  | faults (kind : FaultKind) (addr : Option Word) : Sequential m slots s (faultNow s kind addr)
  | goesOn (after : State) : Sequential m slots s (fallThrough m slots s after)

/-- R35(b), (c): the mnemonics that are not sequential. -/
def controlMnemonics : List Mnemonic := [.std .call, .ret, .std .jz, .std .jnz, .std .halt]

section
variable {m : Mnemonic} {slots : List Operand} {s t : State}

theorem fallThrough_pc {after : State} (h : fallThrough m slots s after = .next t) : t.pc = s.pcAfter slots := by
  rw [fallThrough_next.mp h, State.commit_pc]

theorem jumpTo_pc {target : Word} {after : State} (h : jumpTo m slots target s after = .next t) : t.pc = target := by
  rw [jumpTo_next.mp h, State.commit_pc]

theorem faultNow_run {kind : FaultKind} {a : Option Word} (h : faultNow s kind a = .next t) :
    t.run = .faulted kind := by
  rw [faultNow_next.mp h, State.raise_run]

theorem Sequential.pc_eq {r : Result} (hr : Sequential m slots s r) (h : r = .next t)
    (hrun : ∀ kind, t.run ≠ .faulted kind) : t.pc = s.pcAfter slots := by
  cases hr with
  | faults kind addr => exact absurd (faultNow_run h) (hrun kind)
  | goesOn after => exact fallThrough_pc h

theorem loadStorage_sequential (n : Nat) (ext : Word → Word) (r : Reg) (addr : Word) :
    Sequential m slots s (loadStorage m slots n ext r addr s) := by
  unfold loadStorage
  split
  · exact .goesOn _
  · exact .faults _ _

theorem storeStorage_sequential (n : Nat) (addr v : Word) :
    Sequential m slots s (storeStorage m slots n addr v s) := by
  unfold storeStorage
  split
  · exact .goesOn _
  · exact .faults _ _

theorem loadNarrow_sequential (n : Nat) (ext : Word → Word) (r : Reg) (addr : Word) :
    Sequential m slots s (loadNarrow m slots n ext r addr s) := by
  unfold loadNarrow
  split
  · exact .faults _ _
  · exact loadStorage_sequential n ext r addr

theorem storeNarrow_sequential (n : Nat) (addr v : Word) :
    Sequential m slots s (storeNarrow m slots n addr v s) := by
  unfold storeNarrow
  split
  · exact .faults _ _
  · exact storeStorage_sequential n addr v

end

theorem exec_sequential (i : Instr) (s : State) (hi : i.mnemonic ∉ controlMnemonics) :
    Sequential i.mnemonic i.slots s (exec i s) := by
  cases i with
  | add | sub | or | xor | and | not | cmp | neq | le | leq | leu | lequ | shl | shr | sar | mul | mulu | rand =>
    exact .goesOn _
  | div =>
    simp only [exec, execDiv]
    split
    · exact .faults _ _
    · exact .goesOn _
  | divu =>
    simp only [exec, execDivu]
    split
    · exact .faults _ _
    · exact .goesOn _
  | lb | lbu | ls | lsu | li | liu => exact loadNarrow_sequential ..
  | sb | ss | si => exact storeNarrow_sequential ..
  | lw =>
    simp only [exec, execLw]
    split
    · exact .goesOn _
    · exact loadStorage_sequential ..
  | sw =>
    simp only [exec, execSw]
    split
    · exact .goesOn _
    · exact storeStorage_sequential ..
  | call | jz | jnz | halt | ret => exact absurd hi (by simp [controlMnemonics, Instr.mnemonic])

/-! ## The instructions that transfer control or halt -/

variable {s t : State}

theorem isZero_iff (v : Word) : isZero v = true ↔ v = 0 := beq_iff_eq

theorem exec_call_pc {f u1 u2 u3 u4 : Operand} (h : exec (.call f u1 u2 u3 u4) s = .next t) :
    t.pc = s.value f := jumpTo_pc h

theorem exec_halt_pc {a u1 u2 u3 u4 : Operand} (h : exec (.halt a u1 u2 u3 u4) s = .next t) :
    t.pc = s.pc := jumpTo_pc h

theorem exec_jz_pc {l a u2 u3 u4 : Operand} (h : exec (.jz l a u2 u3 u4) s = .next t) :
    t.pc = if s.value a = 0 then s.value l else s.pcAfter [l, a, u2, u3, u4] := by
  simp only [exec, execJz, isZero_iff] at h
  split at h
  next hz => rw [if_pos hz, jumpTo_pc h]
  next hz => rw [if_neg hz, fallThrough_pc h]

theorem exec_jnz_pc {l a u2 u3 u4 : Operand} (h : exec (.jnz l a u2 u3 u4) s = .next t) :
    t.pc = if s.value a = 0 then s.pcAfter [l, a, u2, u3, u4] else s.value l := by
  simp only [exec, execJnz, isZero_iff] at h
  split at h
  next hz => rw [if_pos hz, fallThrough_pc h]
  next hz => rw [if_neg hz, jumpTo_pc h]

/-- A `ret` that does not fault had a frame to pop. -/
theorem exec_ret_pc {mask : BitVec 25} (h : exec (.ret mask) s = .next t) (hrun : ∀ kind, t.run ≠ .faulted kind) :
    ∃ frame rest, s.callStack = frame :: rest ∧ t.pc = frame.retAddr := by
  simp only [exec, execRet] at h
  split at h
  next => exact absurd (faultNow_run h) (hrun _)
  next frame rest hs => exact ⟨frame, rest, hs, jumpTo_pc h⟩

end Sys2Proof.Machine

namespace Sys2Proof.Proofs

open Sys2Proof.Machine

/-- Settles O41, by the sequential instructions' one answer and one lemma for each of the other five. -/
theorem everyCommitMovesPcAsItsInstructionSays : Obligations.EveryCommitMovesPcAsItsInstructionSays := by
  unfold Obligations.EveryCommitMovesPcAsItsInstructionSays
  intro i s t hcommit
  obtain ⟨-, hexec, hrun⟩ := hcommit
  refine ⟨fun hi => (exec_sequential i s hi).pc_eq hexec hrun, ?call, ?ret, ?jz, ?jnz, ?halt⟩
  case call => rintro f u1 u2 u3 u4 rfl; exact exec_call_pc hexec
  case ret => rintro mask rfl; exact exec_ret_pc hexec hrun
  case jz => rintro l a u2 u3 u4 rfl; exact exec_jz_pc hexec
  case jnz => rintro l a u2 u3 u4 rfl; exact exec_jnz_pc hexec
  case halt => rintro a u1 u2 u3 u4 rfl; exact exec_halt_pc hexec

/-- Settles O1: the register file at reset is zeros with the stack base set at `z`. -/
theorem resetRegistersAreZeroButTheStackPointer : Obligations.ResetRegistersAreZeroButTheStackPointer := by
  unfold Obligations.ResetRegistersAreZeroButTheStackPointer
  constructor
  · intro x hx
    rw [reset_reg, if_neg hx]
  · rw [reset_reg, if_pos rfl, stackBase]

end Sys2Proof.Proofs

/-! Instruction memory in data accesses (20_memory.md R89), and the word store at the I/O cell (R81). -/

namespace Sys2Proof.Machine

/-! ## No step writes instruction memory -/

section
variable {m : Mnemonic} {slots : List Operand} {s t : State}

theorem Writes.imem_eq (h : Writes s t) : t.imem = s.imem := by
  cases h with
  | pop mask frame rest => exact State.popFrame_imem ..
  | _ => rfl

theorem Ends.imem_eq (h : Ends m slots s t) : t.imem = s.imem := by
  cases h with
  | faults kind addr => exact State.raise_imem ..
  | commits after nextPc hw => rw [State.commit_imem, hw.imem_eq]

theorem step_imem (h : step s = .next t) : t.imem = s.imem := by
  obtain ⟨-, ⟨i, -, hexec⟩ | rfl⟩ := step_cases h
  · exact (exec_cases hexec).imem_eq
  · exact State.raise_imem ..

end

/-! ## The state with another instruction memory -/

/-- The state with its instruction memory replaced. -/
def State.withImem (s : State) (imem : List Byte) : State := { s with imem := imem }

/-- An outcome with the instruction memory of its next state replaced. -/
def replaceImem (imem : List Byte) : Result → Result
  | .next t => .next (t.withImem imem)
  | .fault e => .fault e
  | .refused e => .refused e

section
variable (s : State) (imem : List Byte)

@[simp] theorem State.withImem_value (o : Operand) : (s.withImem imem).value o = s.value o := by cases o <;> rfl

@[simp] theorem State.withImem_callStack : (s.withImem imem).callStack = s.callStack := rfl

@[simp] theorem State.withImem_admitted (addr : Word) (n : Nat) :
    (s.withImem imem).admitted addr n = s.admitted addr n := rfl

theorem State.withImem_readBytes (a n : Nat) : (s.withImem imem).readBytes a n = s.readBytes a n := by
  induction n generalizing a with
  | zero => rfl
  | succ n ih => exact congrArg (s.readByte a :: ·) (ih (a + 1))

@[simp] theorem State.withImem_memRead (addr : Word) (n : Nat) :
    (s.withImem imem).memRead addr n = s.memRead addr n := by
  rw [memRead, withImem_readBytes, memRead]

@[simp] theorem State.withImem_record (m : Mnemonic) (slots : List Operand) :
    (s.withImem imem).record m slots = s.record m slots := by
  have hvalue : (s.withImem imem).value = s.value := funext (withImem_value s imem)
  simp only [record, values, hvalue]
  rfl

end

/-! ## The shared operations answer the same with another instruction memory -/

section
variable (m : Mnemonic) (slots : List Operand) (s : State) (imem : List Byte)

theorem State.withImem_commit (after : State) (nextPc : Word) :
    (after.withImem imem).commit m slots nextPc (s.withImem imem) =
      (after.commit m slots nextPc s).withImem imem := by
  rw [commit, withImem_record]
  rfl

theorem fallThrough_withImem (after : State) :
    fallThrough m slots (s.withImem imem) (after.withImem imem) =
      replaceImem imem (fallThrough m slots s after) :=
  congrArg Host.Outcome.next (State.withImem_commit ..)

theorem jumpTo_withImem (target : Word) (after : State) :
    jumpTo m slots target (s.withImem imem) (after.withImem imem) =
      replaceImem imem (jumpTo m slots target s after) :=
  congrArg Host.Outcome.next (State.withImem_commit ..)

theorem faultNow_withImem (kind : FaultKind) (addr : Option Word) :
    faultNow (s.withImem imem) kind addr = replaceImem imem (faultNow s kind addr) := rfl

theorem writeResult_withImem (r : Reg) (v : Word) :
    writeResult m slots r v (s.withImem imem) = replaceImem imem (writeResult m slots r v s) :=
  fallThrough_withImem m slots s imem (s.setReg r v)

theorem writeTwo_withImem (r q : Reg) (v w : Word) :
    writeTwo m slots r q v w (s.withImem imem) = replaceImem imem (writeTwo m slots r q v w s) :=
  fallThrough_withImem m slots s imem ((s.setReg r v).setReg q w)

theorem loadStorage_withImem (n : Nat) (ext : Word → Word) (r : Reg) (addr : Word) :
    loadStorage m slots n ext r addr (s.withImem imem) =
      replaceImem imem (loadStorage m slots n ext r addr s) := by
  simp only [loadStorage, State.withImem_admitted, State.withImem_memRead]
  split
  · exact fallThrough_withImem m slots s imem (s.setReg r _)
  · exact faultNow_withImem ..

theorem storeStorage_withImem (n : Nat) (addr v : Word) :
    storeStorage m slots n addr v (s.withImem imem) =
      replaceImem imem (storeStorage m slots n addr v s) := by
  unfold storeStorage
  rw [State.withImem_admitted]
  split
  · exact fallThrough_withImem m slots s imem (s.memWrite addr n v)
  · exact faultNow_withImem ..

theorem loadNarrow_withImem (n : Nat) (ext : Word → Word) (r : Reg) (addr : Word) :
    loadNarrow m slots n ext r addr (s.withImem imem) =
      replaceImem imem (loadNarrow m slots n ext r addr s) := by
  unfold loadNarrow
  split
  · exact faultNow_withImem ..
  · exact loadStorage_withImem ..

theorem storeNarrow_withImem (n : Nat) (addr v : Word) :
    storeNarrow m slots n addr v (s.withImem imem) =
      replaceImem imem (storeNarrow m slots n addr v s) := by
  unfold storeNarrow
  split
  · exact faultNow_withImem ..
  · exact storeStorage_withImem ..

theorem loadInput_withImem (r : Reg) :
    loadInput m slots r (s.withImem imem) = replaceImem imem (loadInput m slots r s) :=
  fallThrough_withImem m slots s imem (s.consumeInput.setReg r (answerWord s.nextAnswer))

theorem storeOutput_withImem (v : Word) :
    storeOutput m slots v (s.withImem imem) = replaceImem imem (storeOutput m slots v s) :=
  fallThrough_withImem m slots s imem (s.emit v)

end

/-- R89: a meaning never reads instruction memory; only the fetch does. -/
theorem exec_withImem (i : Instr) (s : State) (imem : List Byte) :
    exec i (s.withImem imem) = replaceImem imem (exec i s) := by
  cases i with
  | add | sub | or | xor | and | not | cmp | neq | le | leq | leu | lequ | shl | shr | sar =>
    simp only [exec, execAdd, execSub, execOr, execXor, execAnd, execNot, execCmp, execNeq, execLe, execLeq, execLeu,
      execLequ, execShl, execShr, execSar, State.withImem_value, writeResult_withImem]
  | mul | mulu => simp only [exec, execMul, execMulu, State.withImem_value, writeTwo_withImem]
  | div | divu =>
    simp only [exec, execDiv, execDivu, State.withImem_value]
    split
    · exact faultNow_withImem ..
    · exact writeTwo_withImem ..
  | lb | lbu | ls | lsu | li | liu =>
    simp only [exec, execLb, execLbu, execLs, execLsu, execLi, execLiu, State.withImem_value, loadNarrow_withImem]
  | sb | ss | si => simp only [exec, execSb, execSs, execSi, State.withImem_value, storeNarrow_withImem]
  | lw =>
    simp only [exec, execLw, State.withImem_value]
    split
    · exact loadInput_withImem ..
    · exact loadStorage_withImem ..
  | sw =>
    simp only [exec, execSw, State.withImem_value]
    split
    · exact storeOutput_withImem ..
    · exact storeStorage_withImem ..
  | jz =>
    simp only [exec, execJz, State.withImem_value]
    split
    · exact jumpTo_withImem ..
    · exact fallThrough_withImem ..
  | jnz =>
    simp only [exec, execJnz, State.withImem_value]
    split
    · exact fallThrough_withImem ..
    · exact jumpTo_withImem ..
  | call a u1 u2 u3 u4 =>
    simp only [exec, execCall, State.withImem_value]
    exact jumpTo_withImem _ _ s imem _ (s.pushFrame (s.pcAfter [a, u1, u2, u3, u4]))
  | halt a =>
    simp only [exec, execHalt, State.withImem_value]
    exact jumpTo_withImem _ _ s imem s.pc { s with run := .halted (s.value a) }
  | rand r => exact fallThrough_withImem _ _ s imem (s.drawRand.setReg r s.nextRand)
  | ret mask =>
    simp only [exec, execRet, State.withImem_callStack]
    split
    · exact faultNow_withImem ..
    · rename_i frame rest _
      exact jumpTo_withImem _ _ s imem _ (s.popFrame mask frame rest)

/-! ## The word store at the I/O cell -/

/-- R81, R132: the store emits the source's low byte and commits. -/
theorem exec_sw_ioAddr {a b u2 u3 u4 : Operand} {s : State} (h : s.value a = ioAddr) :
    exec (.sw a b u2 u3 u4) s =
      .next ((s.emit (s.value b)).commit (.std .sw) [a, b, u2, u3, u4] (s.pcAfter [a, b, u2, u3, u4]) s) := by
  simp only [exec, execSw, if_pos h]
  rfl

theorem setWidth_eight_eq_ofNat (v : Word) : v.setWidth 8 = BitVec.ofNat 8 (v.toNat % 2 ^ 8) := by
  apply BitVec.eq_of_toNat_eq
  simp

end Sys2Proof.Machine

namespace Sys2Proof.Proofs

open Sys2Proof.Machine

/-- Settles O45: a step only raises or commits an instruction's own writes, none of them to instruction memory, and
every meaning commutes with replacing that memory. -/
theorem noInstructionWritesOrReadsInstructionMemory : Obligations.NoInstructionWritesOrReadsInstructionMemory := by
  unfold Obligations.NoInstructionWritesOrReadsInstructionMemory
  refine ⟨fun s t => step_imem, ?_⟩
  intro i s t imem hexec
  calc exec i (s.withImem imem) = replaceImem imem (exec i s) := exec_withImem i s imem
    _ = .next (t.withImem imem) := by rw [hexec, replaceImem]

/-- Settles O32: the store is one emission and its commit, and each part of the frame is a field of that state. -/
theorem outputStoresEmitTheLowByte : Obligations.OutputStoresEmitTheLowByte := by
  unfold Obligations.OutputStoresEmitTheLowByte
  intro a b u2 u3 u4 s ha
  refine ⟨_, exec_sw_ioAddr ha, ?out, rfl, ?goesOn, ?regs, ?memory, rfl, ⟨rfl, rfl⟩, ⟨rfl, rfl, rfl⟩, rfl⟩
  case out => rw [State.commit_out, State.emit_out, setWidth_eight_eq_ofNat]
  case goesOn => exact State.commit_pc ..
  case regs => intro x _; rw [State.commit_reg, State.emit_reg]
  case memory => intro x; rw [State.commit_readByte, State.emit_readByte]

end Sys2Proof.Proofs

/-! Arithmetic and logic (40_arith_logic.md): the instructions that write one result to one register. -/

namespace Sys2Proof.Machine

open Sys2Proof.Spec

/-- R16: `wrap` is the residue modulo 2^64. -/
theorem wrap_toNat (z : Int) : ((wrap z).toNat : Int) = z % 2 ^ 64 := by
  have hnonneg : 0 ≤ z % 2 ^ 64 := Int.emod_nonneg z (by decide)
  rw [wrap, BitVec.toNat_ofInt]
  exact Int.toNat_of_nonneg hnonneg

theorem wrap_natCast_toNat (n : Nat) : (wrap n).toNat = n % 2 ^ 64 := by
  exact_mod_cast wrap_toNat n

/-- R131, R132: an instruction whose meaning is to write one result `v` to `r` completes, `r` holds `v`, and only `r`
changes. -/
theorem completes_of_writeResult {i : Instr} {r : Reg} {v : Word} {s : State}
    (h : exec i s = writeResult i.mnemonic i.slots r v s) :
    ∃ t, exec i s = .next t ∧ t.reg r = v ∧ RegisterOnly i s t [r] := by
  refine ⟨_, h, ?result, ?goesOn, ?regs, ?memory, rfl, ⟨rfl, rfl⟩, ⟨rfl, rfl⟩, ⟨rfl, rfl, rfl⟩, rfl⟩
  case result => rw [State.commit_reg, State.setReg_reg_same]
  case goesOn => exact State.commit_pc ..
  case regs =>
    intro x hx
    rw [State.commit_reg, State.setReg_reg_other s v (List.ne_of_not_mem_cons hx)]
  case memory => intro x; rw [State.commit_readByte, State.setReg_readByte]

end Sys2Proof.Machine

namespace Sys2Proof.Proofs

open Sys2Proof.Machine

/-- Settles O16: both meanings write one result, the wrap of an integer, which is its residue modulo 2^64. -/
theorem addAndSubWriteTheWrappedResult : Obligations.AddAndSubWriteTheWrappedResult := by
  unfold Obligations.AddAndSubWriteTheWrappedResult
  intro r a b u3 u4 s
  refine ⟨⟨⟨rfl, rfl⟩, ?add⟩, ⟨⟨rfl, rfl⟩, ?sub⟩⟩
  case add =>
    obtain ⟨t, hexec, hresult, hframe⟩ := completes_of_writeResult (i := .add r a b u3 u4) (s := s) rfl
    exact ⟨t, hexec, hresult ▸ wrap_natCast_toNat ((s.value a).toNat + (s.value b).toNat), hframe⟩
  case sub =>
    obtain ⟨t, hexec, hresult, hframe⟩ := completes_of_writeResult (i := .sub r a b u3 u4) (s := s) rfl
    exact ⟨t, hexec, hresult ▸ wrap_toNat ((s.value a).toNat - (s.value b).toNat), hframe⟩

/-- Settles O17: the three meanings write one result, whose bit `k` is the connective of the operands' bits `k`. -/
theorem orXorAndWorkBitByBit : Obligations.OrXorAndWorkBitByBit := by
  unfold Obligations.OrXorAndWorkBitByBit
  intro r a b u3 u4 s
  refine ⟨⟨⟨rfl, rfl⟩, ?or⟩, ⟨⟨rfl, rfl⟩, ?xor⟩, ⟨⟨rfl, rfl⟩, ?and⟩⟩
  case or =>
    obtain ⟨t, hexec, hresult, hframe⟩ := completes_of_writeResult (i := .or r a b u3 u4) (s := s) rfl
    exact ⟨t, hexec, fun k _ => hresult ▸ BitVec.getLsbD_or, hframe⟩
  case xor =>
    obtain ⟨t, hexec, hresult, hframe⟩ := completes_of_writeResult (i := .xor r a b u3 u4) (s := s) rfl
    exact ⟨t, hexec, fun k _ => hresult ▸ BitVec.getLsbD_xor, hframe⟩
  case and =>
    obtain ⟨t, hexec, hresult, hframe⟩ := completes_of_writeResult (i := .and r a b u3 u4) (s := s) rfl
    exact ⟨t, hexec, fun k _ => hresult ▸ BitVec.getLsbD_and, hframe⟩

end Sys2Proof.Proofs

/-! Multiply and divide (41_multiply_divide.md): the instructions that write two results to two registers, and the fault
on a zero divisor. -/

namespace Sys2Proof.Machine

open Sys2Proof.Spec

/-- R219, R131, R132: an instruction whose meaning is to write `v` to `r` and then `w` to `q` completes, `q` holds `w`,
a different `r` holds `v`, and only `r` and `q` change. -/
theorem completes_of_writeTwo {i : Instr} {r q : Reg} {v w : Word} {s : State}
    (h : exec i s = writeTwo i.mnemonic i.slots r q v w s) :
    ∃ t, exec i s = .next t ∧ (r ≠ q → t.reg r = v) ∧ t.reg q = w ∧ RegisterOnly i s t [r, q] := by
  refine ⟨_, h, ?first, ?second, ?goesOn, ?regs, ?memory, rfl, ⟨rfl, rfl⟩, ⟨rfl, rfl⟩, ⟨rfl, rfl, rfl⟩, rfl⟩
  case first =>
    intro hne
    rw [State.commit_reg, State.setReg_reg_other _ w hne, State.setReg_reg_same]
  case second => rw [State.commit_reg, State.setReg_reg_same]
  case goesOn => exact State.commit_pc ..
  case regs =>
    intro x hx
    obtain ⟨hr, hq⟩ : x ≠ r ∧ x ≠ q := by simpa using hx
    rw [State.commit_reg, State.setReg_reg_other _ w hq, State.setReg_reg_other s v hr]
  case memory => intro x; rw [State.commit_readByte, State.setReg_readByte, State.setReg_readByte]

/-- R403, R404: an instruction whose meaning is to fault ends in that fault, with its record and no partial effect. -/
theorem endsInFault_of_faultNow {i : Instr} {s : State} {kind : FaultKind} {addr : Option Word}
    (h : exec i s = faultNow s kind addr) : EndsInFault i s kind addr := by
  refine ⟨s.raise kind addr, h, State.raise_run .., State.raise_fault .., rfl, rfl, rfl, rfl, ?regs, ?memory, rfl,
    ⟨rfl, rfl⟩, ⟨rfl, rfl, rfl⟩, rfl⟩
  case regs => intro x _; exact State.raise_reg ..
  case memory => intro x; exact State.raise_readByte ..

/-! ## The halves of a product -/

theorem lowHalf_toNat (p : Int) : ((lowHalf p).toNat : Int) = p % 2 ^ 64 := wrap_toNat p

theorem lowHalf_natCast_toNat (n : Nat) : (lowHalf n).toNat = n % 2 ^ 64 := wrap_natCast_toNat n

theorem highHalf_toNat (p : Int) : ((highHalf p).toNat : Int) = p / 2 ^ 64 % 2 ^ 64 := by
  rw [highHalf, wrap_toNat, Int.fdiv_eq_ediv_of_nonneg p (by decide)]

/-- A product of two unsigned words has 128 bits, so its high half is the quotient itself. -/
theorem highHalf_mul_toNat (x y : Word) :
    (highHalf (x.toNat * y.toNat : Nat)).toNat = x.toNat * y.toNat / 2 ^ 64 := by
  have hproduct : x.toNat * y.toNat < 2 ^ 64 * 2 ^ 64 := Nat.mul_lt_mul'' x.isLt y.isLt
  have hquotient : x.toNat * y.toNat / 2 ^ 64 < 2 ^ 64 := Nat.div_lt_of_lt_mul hproduct
  have hhigh : (highHalf (x.toNat * y.toNat : Nat)).toNat = x.toNat * y.toNat / 2 ^ 64 % 2 ^ 64 := by
    exact_mod_cast highHalf_toNat (x.toNat * y.toNat : Nat)
  rw [hhigh, Nat.mod_eq_of_lt hquotient]

/-! ## Unsigned division -/

theorem wrap_natCast_toNat_of_le {n : Nat} {x : Word} (h : n ≤ x.toNat) : (wrap n).toNat = n := by
  rw [wrap_natCast_toNat, Nat.mod_eq_of_lt (h.trans_lt x.isLt)]

section
variable {r q : Reg} {a b u4 : Operand} {s : State}

theorem exec_divu_of_ne_zero (hb : s.value b ≠ 0) :
    exec (.divu r q a b u4) s = writeTwo (.std .divu) [.reg r, .reg q, a, b, u4] r q
      (wrap ((s.value a).toNat / (s.value b).toNat : Nat)) (wrap ((s.value a).toNat % (s.value b).toNat : Nat)) s :=
  if_neg fun hzero => hb (BitVec.eq_of_toNat_eq hzero)

theorem exec_divu_of_eq_zero (hb : s.value b = 0) : exec (.divu r q a b u4) s = faultNow s .divisionByZero none :=
  if_pos (congrArg BitVec.toNat hb)

end

end Sys2Proof.Machine

namespace Sys2Proof.Proofs

open Sys2Proof.Machine

/-- Settles O19: both meanings write the two halves of one integer product, the residue and the floor quotient by 2^64;
an unsigned product is below 2^128, so its quotient needs no wrap. -/
theorem multiplyWritesLowThenHighHalf : Obligations.MultiplyWritesLowThenHighHalf := by
  unfold Obligations.MultiplyWritesLowThenHighHalf
  intro r q a b u4 s hne
  refine ⟨⟨⟨rfl, rfl⟩, ?mul⟩, ⟨⟨rfl, rfl⟩, ?mulu⟩⟩
  case mul =>
    obtain ⟨t, hexec, hlow, hhigh, hframe⟩ := completes_of_writeTwo (i := .mul r q a b u4) (s := s) rfl
    exact ⟨t, hexec, hlow hne ▸ lowHalf_toNat _, hhigh ▸ highHalf_toNat _, hframe⟩
  case mulu =>
    obtain ⟨t, hexec, hlow, hhigh, hframe⟩ := completes_of_writeTwo (i := .mulu r q a b u4) (s := s) rfl
    exact ⟨t, hexec, hlow hne ▸ lowHalf_natCast_toNat _, hhigh ▸ highHalf_mul_toNat _ _, hframe⟩

/-- Settles O23: a divisor other than zero gives a quotient and a remainder that are at most the dividend, so neither
wraps; a zero divisor raises the fault, which writes nothing. -/
theorem unsignedDivisionTruncatesOrFaults : Obligations.UnsignedDivisionTruncatesOrFaults := by
  unfold Obligations.UnsignedDivisionTruncatesOrFaults
  intro r q a b u4 s hne
  refine ⟨⟨rfl, rfl⟩, ?divides, ?faults⟩
  case divides =>
    intro hb
    obtain ⟨t, hexec, hquotient, hremainder, hframe⟩ := completes_of_writeTwo (exec_divu_of_ne_zero hb)
    exact ⟨t, hexec, hquotient hne ▸ wrap_natCast_toNat_of_le (Nat.div_le_self ..),
      hremainder ▸ wrap_natCast_toNat_of_le (Nat.mod_le ..), hframe⟩
  case faults =>
    intro hb
    obtain ⟨t, hexec, hrun, hfault, -, -, -, -, hregs, hmemory, -⟩ :=
      endsInFault_of_faultNow (exec_divu_of_eq_zero (r := r) (q := q) (a := a) (u4 := u4) hb)
    exact ⟨t, hexec, hrun, ⟨_, hfault, rfl, rfl⟩, hregs, hmemory⟩

end Sys2Proof.Proofs

/-! Conditional jumps (45_control.md R323, R324): a commit of the state itself, whose next `pc` the test chooses. -/

namespace Sys2Proof.Machine

open Sys2Proof.Spec

section
variable {l a u2 u3 u4 : Operand} {s : State}

theorem isZero_iff_toNat (v : Word) : isZero v = true ↔ v.toNat = 0 :=
  (isZero_iff v).trans BitVec.toNat_inj.symm

theorem exec_jz_eq_commit :
    exec (.jz l a u2 u3 u4) s = .next (s.commit (.std .jz) [l, a, u2, u3, u4]
      (if (s.value a).toNat = 0 then s.value l else s.pcAfter [l, a, u2, u3, u4]) s) := by
  simp only [exec, execJz, isZero_iff_toNat]
  split <;> rfl

theorem exec_jnz_eq_commit :
    exec (.jnz l a u2 u3 u4) s = .next (s.commit (.std .jnz) [l, a, u2, u3, u4]
      (if (s.value a).toNat = 0 then s.pcAfter [l, a, u2, u3, u4] else s.value l) s) := by
  simp only [exec, execJnz, isZero_iff_toNat]
  split <;> rfl

end

/-- R132: an instruction whose meaning is to commit the state as it was completes, goes to `target` at the
cost of its mnemonic, and leaves registers, memory, stack, streams and run state as they were. -/
theorem completes_of_commit_self {i : Instr} {target : Word} {s : State}
    (h : exec i s = .next (s.commit i.mnemonic i.slots target s)) :
    ∃ t, exec i s = .next t ∧ t.pc = target ∧ t.cycles = s.cycles + cycleCost i.mnemonic ∧
      RegsBut s t [] ∧ SameMemory s t ∧ SameStack s t ∧ SameStreams s t ∧ SameRun s t ∧ SameHost s t ∧
      SameDraws s t := by
  refine ⟨_, h, ?goesTo, ?cost, ?regs, ?memory, rfl, ⟨rfl, rfl⟩, ⟨rfl, rfl⟩, ⟨rfl, rfl, rfl⟩, rfl⟩
  case goesTo => exact State.commit_pc ..
  case cost => exact State.commit_cycles ..
  case regs => intro x _; exact State.commit_reg ..
  case memory => intro x; exact State.commit_readByte ..

end Sys2Proof.Machine

namespace Sys2Proof.Proofs

open Sys2Proof.Machine

/-- Settles O38: taken or not, both jumps commit the state as it was, so the cost and the frame are those of one commit
and only its next `pc` depends on the test. -/
theorem conditionalJumpsTestForZero : Obligations.ConditionalJumpsTestForZero := by
  unfold Obligations.ConditionalJumpsTestForZero
  intro l a u2 u3 u4 s
  refine ⟨⟨⟨rfl, rfl⟩, ?jz⟩, ⟨⟨rfl, rfl⟩, ?jnz⟩⟩
  case jz => exact completes_of_commit_self exec_jz_eq_commit
  case jnz => exact completes_of_commit_self exec_jnz_eq_commit

end Sys2Proof.Proofs

/-! The codec (30_encoding.md §1 .. §4): what the decoder answers, branch by branch, and the two round trips. -/

namespace Sys2Proof

/-! ## The decoder's branches -/

/-- R110: the header in the four bytes it is read from. -/
def headerOf (front : List Byte) : BitVec 32 := BitVec.ofNat 32 (leNat front)

section
variable {ids : Equiv.Perm (Fin 35)} {bytes front rest : List Byte}

/-- R112, R121: no mnemonic of format STD has the opcode id of `ret`. -/
theorem stdOpWith_retId : stdOpWith ids retId = none := stdOpWith_eq_none.mpr (by decide)

theorem ne_retId_of_stdOpWith {opc : BitVec 7} {op : StdOp} (hop : stdOpWith ids opc = some op) : opc ≠ retId := by
  rintro rfl
  rw [stdOpWith_retId] at hop
  cases hop

theorem decodeWith_of_short (h : bytes.length < 4) : decodeWith ids bytes = .error .shortHeader := by
  simp only [decodeWith, splitBytes_eq_none.mpr h]

section
variable (hsplit : splitBytes 4 bytes = some (front, rest))
include hsplit

theorem decodeWith_of_retId (hret : opcodeField (headerOf front) = retId) :
    decodeWith ids bytes = .ok (.ret (maskField (headerOf front))) := by
  rw [headerOf] at hret ⊢
  simp only [decodeWith, hsplit, if_pos hret]

theorem decodeWith_of_undefinedOpcode (hret : opcodeField (headerOf front) ≠ retId)
    (hop : stdOpWith ids (opcodeField (headerOf front)) = none) :
    decodeWith ids bytes = .error (.undefinedOpcode (opcodeField (headerOf front))) := by
  rw [headerOf] at hret hop ⊢
  simp only [decodeWith, hsplit, if_neg hret, hop]

section
variable {op : StdOp} (hop : stdOpWith ids (opcodeField (headerOf front)) = some op)
include hop

theorem decodeWith_of_readKinds_error {e : DecodeError}
    (hkinds : readKinds (headerOf front) [0, 1, 2, 3, 4] = .error e) : decodeWith ids bytes = .error e := by
  have hret := ne_retId_of_stdOpWith hop
  rw [headerOf] at hret hop hkinds
  simp only [decodeWith, hsplit, if_neg hret, hop, hkinds]

variable {kinds : List Kind} (hkinds : readKinds (headerOf front) [0, 1, 2, 3, 4] = .ok kinds)
include hkinds

theorem decodeWith_of_shortImmediates (hos : readOperands kinds rest = none) :
    decodeWith ids bytes = .error .shortImmediates := by
  have hret := ne_retId_of_stdOpWith hop
  rw [headerOf] at hret hop hkinds
  simp only [decodeWith, hsplit, if_neg hret, hop, hkinds, hos]

theorem decodeWith_of_operands {os : List Operand} (hos : readOperands kinds rest = some os) :
    decodeWith ids bytes = buildFrom op os := by
  have hret := ne_retId_of_stdOpWith hop
  rw [headerOf] at hret hop hkinds
  simp only [decodeWith, hsplit, if_neg hret, hop, hkinds, hos]

end

end

/-- The two ways to decode: `ret` by its opcode id, and format STD by its mnemonic, kinds and operands. -/
theorem decodeWith_eq_ok {i : Instr} (h : decodeWith ids bytes = .ok i) :
    ∃ front rest, splitBytes 4 bytes = some (front, rest) ∧
      (opcodeField (headerOf front) = retId ∧ i = .ret (maskField (headerOf front)) ∨
        ∃ op kinds os, stdOpWith ids (opcodeField (headerOf front)) = some op ∧
          readKinds (headerOf front) [0, 1, 2, 3, 4] = .ok kinds ∧ readOperands kinds rest = some os ∧
          buildFrom op os = .ok i) := by
  cases hsplit : splitBytes 4 bytes with
  | none => rw [decodeWith_of_short (splitBytes_eq_none.mp hsplit)] at h; cases h
  | some parts =>
    obtain ⟨front, rest⟩ := parts
    refine ⟨front, rest, rfl, ?_⟩
    by_cases hret : opcodeField (headerOf front) = retId
    · rw [decodeWith_of_retId hsplit hret] at h
      cases h
      exact .inl ⟨hret, rfl⟩
    · right
      cases hop : stdOpWith ids (opcodeField (headerOf front)) with
      | none => rw [decodeWith_of_undefinedOpcode hsplit hret hop] at h; cases h
      | some op =>
        cases hkinds : readKinds (headerOf front) [0, 1, 2, 3, 4] with
        | error e => rw [decodeWith_of_readKinds_error hsplit hop hkinds] at h; cases h
        | ok kinds =>
          cases hos : readOperands kinds rest with
          | none => rw [decodeWith_of_shortImmediates hsplit hop hkinds hos] at h; cases h
          | some os =>
            rw [decodeWith_of_operands hsplit hop hkinds hos] at h
            exact ⟨op, kinds, os, rfl, rfl, hos, h⟩

end

/-! ## Headers -/

theorem headerOf_leBytes {n : Nat} (h : n < 2 ^ 32) : (headerOf (leBytes 4 n)).toNat = n := by
  have h256 : n < 256 ^ 4 := h
  rw [headerOf, leNat_leBytes, Nat.mod_eq_of_lt h256, BitVec.toNat_ofNat, Nat.mod_eq_of_lt h]

theorem leBytes_headerOf {front : List Byte} (h : front.length = 4) : leBytes 4 (headerOf front).toNat = front := by
  have h256 : leNat front < 256 ^ 4 := h ▸ leNat_lt front
  have hlt : leNat front < 2 ^ 32 := h256
  rw [headerOf, BitVec.toNat_ofNat, Nat.mod_eq_of_lt hlt, ← h, leBytes_leNat]

/-- R111: a header is its opcode id and its five kind codes. -/
theorem header_eq_fields (h : BitVec 32) :
    h.toNat = (opcodeField h).toNat + 128 * ((kindField h 0).toNat + 32 * ((kindField h 1).toNat +
      32 * ((kindField h 2).toNat + 32 * ((kindField h 3).toNat + 32 * (kindField h 4).toNat)))) := by
  have hlt := h.isLt
  simp only [opcodeField_toNat, kindField_toNat]
  norm_num
  omega

/-- R112: a header is its opcode id and its mask. -/
theorem header_eq_mask (h : BitVec 32) : h.toNat = (opcodeField h).toNat + 128 * (maskField h).toNat := by
  rw [opcodeField_toNat, maskField_toNat, Nat.mod_add_div]

section
variable {ids : Equiv.Perm (Fin 35)} {i : Instr} {op : StdOp}

theorem headerWith_std (h : i.mnemonic = .std op) :
    headerWith ids i = opcodeIdWith ids op + 128 * packCodes i.slots := by
  cases i <;> simp only [Instr.mnemonic, Mnemonic.std.injEq, reduceCtorEq] at h <;> subst h <;> rfl

/-- R117: a slot's kind code in the header of an instruction stands for the kind of the operand there. -/
theorem readKinds_of_header {h : BitVec 32} (hm : i.mnemonic = .std op) (hh : h.toNat = headerWith ids i) :
    stdOpWith ids (opcodeField h) = some op ∧ readKinds h [0, 1, 2, 3, 4] = .ok (i.slots.map Operand.kind) := by
  obtain ⟨o0, o1, o2, o3, o4, hslots⟩ := slots_five i op hm
  have hid : opcodeIdWith ids op < 128 := (opcodeIdWith_lt ids op).trans (by decide)
  obtain ⟨hopc, h0, h1, h2, h3, h4⟩ :=
    packed_header_fields _ hid o0 o1 o2 o3 o4 h (by rw [hh, headerWith_std hm, hslots])
  refine ⟨stdOpWith_opcodeIdWith ids op _ hopc, readKinds_eq_ok.mpr ?_⟩
  simp only [hslots, List.map_cons, List.map_nil, Kind.ofCode_code _ _ h0, Kind.ofCode_code _ _ h1,
    Kind.ofCode_code _ _ h2, Kind.ofCode_code _ _ h3, Kind.ofCode_code _ _ h4]

theorem headerWith_lt (ids : Equiv.Perm (Fin 35)) (i : Instr) : headerWith ids i < 2 ^ 32 := by
  cases hm : i.mnemonic with
  | std op =>
    obtain ⟨o0, o1, o2, o3, o4, hslots⟩ := slots_five i op hm
    have hid := opcodeIdWith_lt ids op
    have hcodes := packCodes_lt o0 o1 o2 o3 o4
    rw [headerWith_std hm, hslots]
    omega
  | ret =>
    cases i with
    | ret mask =>
      have hmask := mask.isLt
      have hid : retId.toNat = 127 := rfl
      simp only [headerWith]
      omega
    | _ => cases hm

theorem eq_five_of_length {os : List Operand} (h : os.length = 5) :
    ∃ o0 o1 o2 o3 o4, os = [o0, o1, o2, o3, o4] := by
  match os, h with
  | [o0, o1, o2, o3, o4], _ => exact ⟨o0, o1, o2, o3, o4, rfl⟩

/-- R111, R113: a header whose kind codes stand for the kinds of five operands packs their codes. -/
theorem packCodes_of_readKinds {h : BitVec 32} {os : List Operand} (hos : os.length = 5)
    (hkinds : readKinds h [0, 1, 2, 3, 4] = .ok (os.map Operand.kind)) :
    h.toNat = (opcodeField h).toNat + 128 * packCodes os := by
  obtain ⟨o0, o1, o2, o3, o4, rfl⟩ := eq_five_of_length hos
  have hcodes := readKinds_eq_ok.mp hkinds
  simp only [List.map_cons, List.map_nil, List.cons.injEq, and_true] at hcodes
  obtain ⟨h0, h1, h2, h3, h4⟩ := hcodes
  rw [header_eq_fields h, Kind.code_of_ofCode h0, Kind.code_of_ofCode h1, Kind.code_of_ofCode h2,
    Kind.code_of_ofCode h3, Kind.code_of_ofCode h4]
  rfl

/-! ## The round trips -/

theorem decodeWith_encodeWith (ids : Equiv.Perm (Fin 35)) {i : Instr} (hwf : i.wf = true) (rest : List Byte) :
    decodeWith ids (encodeWith ids i ++ rest) = .ok i := by
  have hsplit : splitBytes 4 (encodeWith ids i ++ rest) =
      some (leBytes 4 (headerWith ids i), i.slots.flatMap Operand.immBytes ++ rest) :=
    splitBytes_eq_some.mpr ⟨List.append_assoc .., Machine.leBytes_length ..⟩
  have hheader := headerOf_leBytes (headerWith_lt ids i)
  cases hm : i.mnemonic with
  | std op =>
    obtain ⟨hop, hkinds⟩ := readKinds_of_header hm hheader
    rw [decodeWith_of_operands hsplit hop hkinds (readOperands_immBytes i.slots hwf rest), buildFrom_slots i op hm]
  | ret =>
    cases i with
    | ret mask =>
      have hret : headerWith ids (.ret mask) = 127 + 128 * mask.toNat := rfl
      have hopc : opcodeField (headerOf (leBytes 4 (headerWith ids (.ret mask)))) = retId := by
        apply BitVec.eq_of_toNat_eq
        rw [opcodeField_toNat, hheader, hret, Nat.add_mul_mod_self_left]
        rfl
      have hmask : maskField (headerOf (leBytes 4 (headerWith ids (.ret mask)))) = mask := by
        apply BitVec.eq_of_toNat_eq
        rw [maskField_toNat, hheader, hret]
        omega
      rw [decodeWith_of_retId hsplit hopc, hmask]
    | _ => cases hm

theorem buildFrom_length {op : StdOp} {os : List Operand} {i : Instr} (h : buildFrom op os = .ok i) :
    os.length = 5 := by
  obtain ⟨hm, rfl⟩ := buildFrom_eq_ok h
  obtain ⟨o0, o1, o2, o3, o4, hslots⟩ := slots_five i op hm
  rw [hslots]
  rfl

theorem encodeWith_of_decodeWith {bytes : List Byte} (h : decodeWith ids bytes = .ok i) :
    i.wf = true ∧ ∃ rest, bytes = encodeWith ids i ++ rest := by
  obtain ⟨front, rest, hsplit, ⟨hret, rfl⟩ | ⟨op, kinds, os, hop, hkinds, hos, hbuild⟩⟩ := decodeWith_eq_ok h
  · obtain ⟨rfl, hlen⟩ := splitBytes_eq_some.mp hsplit
    have hheader : headerWith ids (.ret (maskField (headerOf front))) = (headerOf front).toNat := by
      rw [header_eq_mask (headerOf front), hret]
      rfl
    refine ⟨rfl, rest, ?_⟩
    rw [encodeWith, hheader, leBytes_headerOf hlen]
    simp only [Instr.slots, List.flatMap_nil, List.append_nil]
  · obtain ⟨rfl, hlen⟩ := splitBytes_eq_some.mp hsplit
    obtain ⟨rfl, hwf, rest', rfl⟩ := readOperands_eq_some hos
    have hfive := buildFrom_length hbuild
    obtain ⟨hm, rfl⟩ := buildFrom_eq_ok hbuild
    have hheader : headerWith ids i = (headerOf front).toNat := by
      rw [headerWith_std hm, packCodes_of_readKinds hfive hkinds, stdOpWith_eq_some hop]
    refine ⟨hwf, rest', ?_⟩
    rw [encodeWith, hheader, leBytes_headerOf hlen, List.append_assoc]

end

end Sys2Proof

namespace Sys2Proof.Proofs

/-- Settles O5: the header fields give back the mnemonic and the kinds, and the immediates their values. -/
theorem decodeOfEncodeIsTheInstruction : Obligations.DecodeOfEncodeIsTheInstruction := by
  unfold Obligations.DecodeOfEncodeIsTheInstruction
  intro ids i rest hwf
  exact decodeWith_encodeWith ids hwf rest

/-- Settles O6: every field of the header and every immediate byte that the decoder reads, the encoder writes. -/
theorem encodeOfDecodeIsTheBytesRead : Obligations.EncodeOfDecodeIsTheBytesRead := by
  unfold Obligations.EncodeOfDecodeIsTheBytesRead
  intro ids bytes i h
  exact encodeWith_of_decodeWith h

end Sys2Proof.Proofs

/-! What every step keeps: the bookkeeping fields outside an instruction's own writes, the invariant, and what a fault
leaves unchanged (60_exceptions.md §1). -/

namespace Sys2Proof.Machine

open Sys2Proof.Spec

section
variable {m : Mnemonic} {slots : List Operand} {s t : State}

/-! ## What an instruction's own writes leave -/

/-- R132: the counters and the trace are the commit's alone; `pc` is too. -/
theorem Writes.bookkeeping_eq (h : Writes s t) :
    t.pc = s.pc ∧ t.cycles = s.cycles ∧ t.icount = s.icount ∧ t.trace = s.trace ∧ t.fault = s.fault := by
  cases h with
  | pop mask frame rest => simp
  | _ => exact ⟨rfl, rfl, rfl, rfl, rfl⟩

theorem Writes.host_eq (h : Writes s t) : t.provisioned = s.provisioned ∧ t.answers = s.answers := by
  cases h with
  | pop mask frame rest => simp
  | _ => exact ⟨rfl, rfl⟩

theorem Writes.run_eq (h : Writes s t) : t.run = s.run ∨ ∃ code, t.run = .halted code := by
  cases h with
  | pop mask frame rest => left; simp
  | halt code => exact .inr ⟨code, rfl⟩
  | _ => exact .inl rfl

theorem Writes.run_ne_faulted (h : Writes s t) (hs : s.run = .running) (kind : FaultKind) : t.run ≠ .faulted kind := by
  rcases h.run_eq with hrun | ⟨code, hrun⟩
  · rw [hrun, hs]; nofun
  · rw [hrun]; nofun

/-- R74, R83: only an admitted store changes data memory, and it writes to storage only. -/
theorem Writes.mem_eq (h : Writes s t) :
    t.mem = s.mem ∨ ∃ addr n v, s.admitted addr n = true ∧ t.mem = (s.memWrite addr n v).mem := by
  cases h with
  | pop mask frame rest => left; simp
  | storage addr n v hadmitted => exact .inr ⟨addr, n, v, hadmitted, rfl⟩
  | _ => exact .inl rfl

/-! ## The invariant's clauses under an instruction's own writes -/

theorem isStorage_congr (h : t.provisioned = s.provisioned) (x : Nat) : t.isStorage x = s.isStorage x := by
  rw [State.isStorage, h, State.isStorage]

theorem Writes.keeps_wf (h : Writes s t) (hwf : s.mem.wf = true) : t.mem.wf = true := by
  rcases h.mem_eq with hmem | ⟨addr, n, v, -, hmem⟩
  · rwa [hmem]
  · rw [hmem, State.memWrite_mem]
    exact Memory.writeBytes_wf _ hwf _

theorem Writes.keeps_onStorage (h : Writes s t) (hs : ∀ cell ∈ s.mem, s.isStorage cell.1 = true) :
    ∀ cell ∈ t.mem, t.isStorage cell.1 = true := by
  intro cell hcell
  rw [isStorage_congr h.host_eq.1]
  rcases h.mem_eq with hmem | ⟨addr, n, v, hadmitted, hmem⟩
  · exact hs cell (hmem ▸ hcell)
  · rw [hmem, State.memWrite_mem] at hcell
    rcases Memory.mem_writeBytes _ hcell with ⟨hlo, hhi⟩ | hold
    · rw [leBytes_length] at hhi
      have hbyte := (State.admitted_iff s addr n).mp hadmitted (cell.1 - addr.toNat) (by omega)
      rwa [Nat.add_sub_of_le hlo] at hbyte
    · exact hs cell hold

/-! ## The fault record and the run state -/

theorem faultMatchesRun_of_not_faulted (hrun : ∀ kind, s.run ≠ .faulted kind) :
    s.faultMatchesRun ↔ s.fault = none := by
  unfold State.faultMatchesRun
  split
  next kind hkind => exact absurd hkind (hrun kind)
  next => exact Iff.rfl

theorem raise_faultMatchesRun (kind : FaultKind) (addr : Option Word) : (s.raise kind addr).faultMatchesRun :=
  ⟨addr, rfl⟩

/-! ## The invariant under a fault and under a commit -/

theorem State.Inv.raise (hs : s.Inv) (kind : FaultKind) (addr : Option Word) : (s.raise kind addr).Inv where
  memCanonical := hs.memCanonical
  memOnStorage := hs.memOnStorage
  imemBounded := hs.imemBounded
  faultRecord := raise_faultMatchesRun kind addr
  icountIsTrace := hs.icountIsTrace
  cyclesIsTrace := hs.cyclesIsTrace

/-- R132: the commit adds to the counters what its trace record stands for. -/
theorem Writes.commit_inv {after : State} {nextPc : Word} (h : Writes s after) (hs : s.Inv) (hrun : s.run = .running) :
    (after.commit m slots nextPc s).Inv := by
  obtain ⟨-, hcycles, hicount, htrace, hfault⟩ := h.bookkeeping_eq
  have hnone : s.fault = none := (faultMatchesRun_of_not_faulted (by rw [hrun]; nofun)).mp hs.faultRecord
  refine ⟨h.keeps_wf hs.memCanonical, h.keeps_onStorage hs.memOnStorage, ?imem, ?fault, ?icount, ?cycles⟩
  case imem => rw [State.commit_imem, h.imem_eq]; exact hs.imemBounded
  case fault =>
    refine (faultMatchesRun_of_not_faulted (s := after.commit m slots nextPc s) (h.run_ne_faulted hrun)).mpr ?_
    rw [State.commit_fault, hfault, hnone]
  case icount =>
    rw [State.commit_icount, State.commit_trace, hicount, htrace, hs.icountIsTrace, List.length_append]
    rfl
  case cycles =>
    rw [State.commit_cycles, State.commit_trace, hcycles, htrace, hs.cyclesIsTrace, List.map_append, List.sum_append]
    rfl

theorem Ends.keeps_inv (h : Ends m slots s t) (hs : s.Inv) (hrun : s.run = .running) : t.Inv := by
  cases h with
  | faults kind addr => exact hs.raise kind addr
  | commits after nextPc hw => exact hw.commit_inv hs hrun

theorem step_keeps_inv (hs : s.Inv) (h : step s = .next t) : t.Inv := by
  obtain ⟨hrun, ⟨i, -, hexec⟩ | rfl⟩ := step_cases h
  · exact (exec_cases hexec).keeps_inv hs hrun
  · exact hs.raise _ _

/-! ## Faults and commits of a step -/

/-- R403, R404: raising a fault writes the record and changes nothing else. -/
theorem raise_faults (kind : FaultKind) (addr : Option Word) : Faults s (s.raise kind addr) kind addr :=
  ⟨rfl, rfl, rfl, rfl, rfl, rfl, fun _ _ => rfl, fun _ => rfl, rfl, ⟨rfl, rfl⟩, ⟨rfl, rfl, rfl⟩, rfl⟩

/-- A running engine that ends Faulted raised the fault: no commit does. -/
theorem Ends.eq_raise_of_faulted (h : Ends m slots s t) (hs : s.run = .running) {kind : FaultKind}
    (ht : t.run = .faulted kind) : ∃ addr, t = s.raise kind addr := by
  cases h with
  | faults kind' addr =>
    rw [State.raise_run, RunState.faulted.injEq] at ht
    exact ⟨addr, by rw [ht]⟩
  | commits after nextPc hw => exact absurd ht (hw.run_ne_faulted hs kind)

theorem step_eq_raise_of_faulted (h : step s = .next t) {kind : FaultKind} (ht : t.run = .faulted kind) :
    s.run = .running ∧ ∃ addr, t = s.raise kind addr := by
  obtain ⟨hrun, ⟨i, -, hexec⟩ | rfl⟩ := step_cases h
  · exact ⟨hrun, (exec_cases hexec).eq_raise_of_faulted hrun ht⟩
  · rw [State.raise_run, RunState.faulted.injEq] at ht
    exact ⟨hrun, none, by rw [ht]⟩

/-- R132: what a commit counts and gives to the trace sink. -/
theorem Ends.counts_of_not_faulted (h : Ends m slots s t) (ht : ∀ kind, t.run ≠ .faulted kind) :
    t.cycles = s.cycles + cycleCost m ∧ t.icount = s.icount + 1 ∧ t.trace = s.trace ++ [s.record m slots] := by
  cases h with
  | faults kind addr => exact absurd rfl (ht kind)
  | commits after nextPc hw =>
    obtain ⟨-, hcycles, hicount, htrace, -⟩ := hw.bookkeeping_eq
    rw [State.commit_cycles, State.commit_icount, State.commit_trace, hcycles, hicount, htrace]
    exact ⟨rfl, rfl, rfl⟩

theorem Ends.host_eq (h : Ends m slots s t) : t.provisioned = s.provisioned ∧ t.answers = s.answers := by
  cases h with
  | faults kind addr => exact ⟨rfl, rfl⟩
  | commits after nextPc hw => exact hw.host_eq

end

end Sys2Proof.Machine

namespace Sys2Proof.Proofs

open Sys2Proof.Machine

/-- Settles O54: a fault changes no clause's subject but the record, and a commit adds one trace record to memory that
only an admitted store may have changed. -/
theorem everyStepKeepsTheInvariant : Obligations.EveryStepKeepsTheInvariant := by
  unfold Obligations.EveryStepKeepsTheInvariant
  intro s t hs hstep
  exact step_keeps_inv hs hstep

/-- Settles O53: at reset the memories and the trace are empty, the counters 0 and no fault is recorded. -/
theorem resetMeetsTheInvariant : Obligations.ResetMeetsTheInvariant := by
  unfold Obligations.ResetMeetsTheInvariant
  exact ⟨rfl, List.forall_mem_nil _, Nat.two_pow_pos 64, rfl, rfl, rfl⟩

/-- Settles O42: a commit's counters and its trace record, whose cycle count is the new one. -/
theorem everyCommitCountsItsCostAndIsTraced : Obligations.EveryCommitCountsItsCostAndIsTraced := by
  unfold Obligations.EveryCommitCountsItsCostAndIsTraced
  intro i s t hcommit
  obtain ⟨-, hexec, hrun⟩ := hcommit
  obtain ⟨hcycles, hicount, htrace⟩ := (exec_cases hexec).counts_of_not_faulted hrun
  refine ⟨hcycles, if_pos rfl, hicount, ?_⟩
  rw [htrace, hcycles]
  rfl

/-- Settles O43: a step that ends Faulted only raised the fault. -/
theorem faultsHaveNoPartialEffects : Obligations.FaultsHaveNoPartialEffects := by
  unfold Obligations.FaultsHaveNoPartialEffects
  intro s t kind hstep ht
  obtain ⟨hrun, addr, rfl⟩ := step_eq_raise_of_faulted hstep ht
  exact ⟨hrun, addr, raise_faults kind addr⟩

/-- Settles O46: neither an instruction's own writes, nor a commit, nor a fault touches them. -/
theorem noStepChangesTheHostsParameters : Obligations.NoStepChangesTheHostsParameters := by
  unfold Obligations.NoStepChangesTheHostsParameters
  intro s t hstep
  obtain ⟨-, ⟨i, -, hexec⟩ | rfl⟩ := step_cases hstep
  · exact (exec_cases hexec).host_eq
  · exact ⟨rfl, rfl⟩

end Sys2Proof.Proofs

/-! Fetch and step (30_encoding.md §4): the header at `pc`, the lengths and codes it gives, and what a step answers for
each outcome of the decoder. -/

namespace Sys2Proof

open Sys2Proof.Spec

/-! ## Widths -/

/-- R113: the immediate bytes of a kind. -/
def Kind.width : Kind → Nat
  | .imm w => w.bytes
  | .reg _ => 0

theorem Operand.kind_width (o : Operand) : o.kind.width = o.width := by cases o <;> rfl

theorem Kind.width_of_ofCode {c : BitVec 5} {kind : Kind} (h : Kind.ofCode c = some kind) :
    kind.width = codeWidth c.toNat := by
  cases kind with
  | imm w =>
    rw [Kind.code_of_ofCode (o := .imm w 0) h]
    cases w <;> rfl
  | reg r =>
    rw [Kind.code_of_ofCode (o := .reg r) h]
    simp [Kind.width, codeWidth, Operand.code]

theorem readKinds_widths {h : BitVec 32} {ks : List Nat} : ∀ {kinds : List Kind}, readKinds h ks = .ok kinds →
    kinds.map Kind.width = ks.map fun k => codeWidth (kindField h k).toNat := by
  induction ks with
  | nil => rintro kinds ⟨⟩; rfl
  | cons k ks ih =>
    intro kinds hkinds
    have hcodes := readKinds_eq_ok.mp hkinds
    cases kinds with
    | nil => cases hcodes
    | cons kind kinds =>
      rw [List.map_cons, List.map_cons, List.cons.injEq] at hcodes
      rw [List.map_cons, List.map_cons, Kind.width_of_ofCode hcodes.1, ih (readKinds_eq_ok.mpr hcodes.2)]

theorem exists_readKinds {h : BitVec 32} {ks : List Nat} (hks : ∀ k ∈ ks, kindField h k ≠ 31#5) :
    ∃ kinds, readKinds h ks = .ok kinds := by
  induction ks with
  | nil => exact ⟨[], rfl⟩
  | cons k ks ih =>
    obtain ⟨kinds, hkinds⟩ := ih fun j hj => hks j (List.mem_cons_of_mem k hj)
    obtain ⟨kind, hkind⟩ := Option.ne_none_iff_exists'.mp (mt Kind.ofCode_eq_none.mp (hks k List.mem_cons_self))
    exact ⟨kind :: kinds, by simp only [readKinds, hkind, hkinds]⟩

theorem readOperand_eq_none {kind : Kind} {bytes : List Byte} :
    readOperand kind bytes = none ↔ bytes.length < kind.width := by
  cases kind with
  | reg r => simp [readOperand, Kind.width]
  | imm w =>
    rw [Kind.width, ← splitBytes_eq_none, readOperand]
    cases splitBytes w.bytes bytes <;> simp

/-- R114, R130: the operands are there unless an immediate byte lies past the last byte. -/
theorem readOperands_eq_none {kinds : List Kind} : ∀ {bytes : List Byte},
    readOperands kinds bytes = none ↔ bytes.length < (kinds.map Kind.width).sum := by
  induction kinds with
  | nil => intro bytes; simp [readOperands]
  | cons kind kinds ih =>
    intro bytes
    rw [List.map_cons, List.sum_cons, readOperands]
    cases hread : readOperand kind bytes with
    | none =>
      have hshort := readOperand_eq_none.mp hread
      simp only [true_iff]
      omega
    | some p =>
      obtain ⟨o, rest⟩ := p
      obtain ⟨rfl, -, rfl⟩ := readOperand_eq_some hread
      have hrest : readOperands kinds rest = none ↔
          (o.immBytes ++ rest).length < o.kind.width + (kinds.map Kind.width).sum := by
        rw [ih, List.length_append, Operand.immBytes_length, Operand.kind_width, Nat.add_lt_add_iff_left]
      rw [← hrest]
      cases hos : readOperands kinds rest <;> simp [hos]

/-! ## Destination slots -/

theorem Operand.code_lt_five_iff (o : Operand) : o.code < 5 ↔ ∃ w v, o = .imm w v := by
  cases o with
  | imm w v =>
    refine iff_of_true ?_ ⟨w, v, rfl⟩
    cases w <;> simp [Operand.code]
  | reg r => simp [Operand.code]

theorem Operand.five_le_code_iff (o : Operand) : 5 ≤ o.code ↔ ∃ r, o = .reg r := by
  rw [← not_lt, Operand.code_lt_five_iff]
  cases o <;> simp

theorem buildInstr_imm_slot0 {op : StdOp} (h : 0 < destCount op) (w : ImmWidth) (v : Word) (o1 o2 o3 o4 : Operand) :
    buildInstr op (.imm w v) o1 o2 o3 o4 = .error (.immediateDestination 0) := by
  cases op with
  | sb | ss | si | sw | call | jz | jnz | halt => exact absurd h (by decide)
  | _ => rfl

theorem buildInstr_imm_slot1 {op : StdOp} (h : 1 < destCount op) (r : Reg) (w : ImmWidth) (v : Word)
    (o2 o3 o4 : Operand) :
    buildInstr op (.reg r) (.imm w v) o2 o3 o4 = .error (.immediateDestination 1) := by
  cases op with
  | mul | mulu | div | divu => rfl
  | _ => exact absurd h (by decide)

theorem destCount_le_two (op : StdOp) : destCount op ≤ 2 := by cases op <;> decide

/-- R119: the first destination slot whose code is an immediate's is refused. -/
theorem buildFrom_immediateDestination {op : StdOp} {k : Nat} {o0 o1 o2 o3 o4 : Operand} {code : Nat → Nat}
    (h0 : o0.code = code 0) (h1 : o1.code = code 1) (hk : k < destCount op) (himm : code k < 5)
    (hreg : ∀ j < k, 5 ≤ code j) :
    buildFrom op [o0, o1, o2, o3, o4] = .error (.immediateDestination k) := by
  have hle := destCount_le_two op
  obtain rfl | rfl : k = 0 ∨ k = 1 := by omega
  · obtain ⟨w, v, rfl⟩ := o0.code_lt_five_iff.mp (h0 ▸ himm)
    exact buildInstr_imm_slot0 hk w v o1 o2 o3 o4
  · obtain ⟨r, rfl⟩ := o0.five_le_code_iff.mp (h0 ▸ hreg 0 Nat.one_pos)
    obtain ⟨w, v, rfl⟩ := o1.code_lt_five_iff.mp (h1 ▸ himm)
    exact buildInstr_imm_slot1 hk r w v o2 o3 o4

end Sys2Proof

namespace Sys2Proof.Machine

open Sys2Proof.Spec

section
variable {s : State}

/-! ## The header at `pc` -/

theorem byteAt_eq (s : State) (k : Nat) : byteAt s k = (s.fetchBytes[k]?).getD 0 := by
  rw [byteAt, State.fetchBytes, List.getElem?_drop]

theorem opcodeAt_eq (s : State) : opcodeAt s = (opcodeField (headerAt s)).toNat := (opcodeField_toNat _).symm

theorem codeAt_eq (s : State) (k : Nat) : codeAt s k = (kindField (headerAt s) k).toNat := (kindField_toNat _ k).symm

/-- R110, R130: the four bytes the decoder takes first are the header at `pc`. -/
theorem headerOf_eq_headerAt {front rest : List Byte} (h : splitBytes 4 s.fetchBytes = some (front, rest)) :
    headerOf front = headerAt s := by
  obtain ⟨hbytes, hlen⟩ := splitBytes_eq_some.mp h
  match front, hlen with
  | [b0, b1, b2, b3], _ =>
    simp only [headerAt, byteAt_eq, hbytes, headerOf]
    refine congrArg (BitVec.ofNat 32) ?_
    simp only [leNat, List.cons_append, List.getElem?_cons_zero, List.getElem?_cons_succ, Option.getD_some]
    omega

theorem imem_length_of_split {front rest : List Byte} (h : splitBytes 4 s.fetchBytes = some (front, rest)) :
    s.imem.length = s.pc.toNat + 4 + rest.length := by
  obtain ⟨hbytes, hlen⟩ := splitBytes_eq_some.mp h
  have hlength := congrArg List.length hbytes
  rw [State.fetchBytes, List.length_drop, List.length_append, hlen] at hlength
  omega

theorem exists_split_of_le (h : s.pc.toNat + 4 ≤ s.imem.length) :
    ∃ front rest, splitBytes 4 s.fetchBytes = some (front, rest) := by
  cases hsplit : splitBytes 4 s.fetchBytes with
  | none =>
    have hshort := splitBytes_eq_none.mp hsplit
    rw [State.fetchBytes, List.length_drop] at hshort
    omega
  | some parts => exact ⟨parts.1, parts.2, rfl⟩

/-- R115: the length a header gives is that of its five kinds. -/
theorem lengthAt_eq_of_readKinds {kinds : List Kind} (h : readKinds (headerAt s) [0, 1, 2, 3, 4] = .ok kinds) :
    lengthAt s = 4 + (kinds.map Kind.width).sum := by
  rw [readKinds_widths h]
  simp only [lengthAt, codeAt_eq, List.map_cons, List.map_nil, List.sum_cons, List.sum_nil]
  omega

theorem exists_readKinds_headerAt (h : ∀ k < 5, codeAt s k ≠ 31) :
    ∃ kinds, readKinds (headerAt s) [0, 1, 2, 3, 4] = .ok kinds := by
  refine exists_readKinds fun k hk hcode => ?_
  have hlt : k < 5 := by simp at hk; omega
  exact h k hlt (by rw [codeAt_eq, hcode]; rfl)

/-! ## What a step answers -/

theorem step_of_fetch_ok {i : Instr} (hrun : s.run = .running) (h : s.fetch = .ok i) : step s = exec i s := by
  rw [step_running hrun]
  simp only [runInstruction, h]

theorem step_of_fetch_error {e : DecodeError} (hrun : s.run = .running) (h : s.fetch = .error e) :
    step s = noInstruction e s := by
  rw [step_running hrun]
  simp only [runInstruction, h]

theorem exists_fault_of_step_eq_faultNow {kind : FaultKind} {addr : Option Word} (h : step s = faultNow s kind addr) :
    ∃ t, step s = .next t ∧ Faults s t kind addr := ⟨_, h, raise_faults kind addr⟩

/-! ## The outcomes of a fetch -/

theorem fetch_of_short (h : s.imem.length < s.pc.toNat + 4) : s.fetch = .error .shortHeader := by
  refine decodeWith_of_short ?_
  rw [State.fetchBytes, List.length_drop]
  omega

theorem exists_stdOp (h : opcodeAt s < 0x23) : ∃ op, stdOpWith machineIds (opcodeField (headerAt s)) = some op := by
  rw [opcodeAt_eq] at h
  exact Option.ne_none_iff_exists'.mp fun hnone => absurd h (not_lt.mpr (stdOpWith_eq_none.mp hnone))

section
variable (hheader : s.pc.toNat + 4 ≤ s.imem.length)
include hheader

theorem fetch_of_undefinedOpcode (hlo : 0x23 ≤ opcodeAt s) (hhi : opcodeAt s ≤ 0x7e) :
    s.fetch = .error (.undefinedOpcode (opcodeField (headerAt s))) := by
  obtain ⟨front, rest, hsplit⟩ := exists_split_of_le hheader
  have hfields := headerOf_eq_headerAt hsplit
  rw [opcodeAt_eq, ← hfields] at hlo hhi
  rw [← hfields]
  refine decodeWith_of_undefinedOpcode hsplit (fun hret => ?_) (stdOpWith_eq_none.mpr hlo)
  rw [hret] at hhi
  exact absurd hhi (by decide)

variable {op : StdOp} (hop : stdOpWith machineIds (opcodeField (headerAt s)) = some op)
include hop

theorem fetch_of_code31 {k : Nat} (hk : k < 5) (hcode : codeAt s k = 31) (hfirst : ∀ j < k, codeAt s j ≠ 31) :
    s.fetch = .error (.undefinedKindCode k) := by
  obtain ⟨front, rest, hsplit⟩ := exists_split_of_le hheader
  rw [← headerOf_eq_headerAt hsplit] at hop
  refine decodeWith_of_readKinds_error hsplit hop ?_
  have hslots : ∀ k < 5, [0, 1, 2, 3, 4] = List.range k ++ k :: List.range' (k + 1) (4 - k) := by decide
  rw [headerOf_eq_headerAt hsplit, hslots k hk]
  refine readKinds_first31 (BitVec.eq_of_toNat_eq (codeAt_eq s k ▸ hcode)) fun j hj hj31 => ?_
  exact hfirst j (List.mem_range.mp hj) (by rw [codeAt_eq, hj31]; rfl)

variable {kinds : List Kind} (hkinds : readKinds (headerAt s) [0, 1, 2, 3, 4] = .ok kinds)
include hkinds

theorem fetch_of_shortImmediates (hlen : s.imem.length < s.pc.toNat + lengthAt s) :
    s.fetch = .error .shortImmediates := by
  obtain ⟨front, rest, hsplit⟩ := exists_split_of_le hheader
  have himem := imem_length_of_split hsplit
  rw [lengthAt_eq_of_readKinds hkinds] at hlen
  rw [← headerOf_eq_headerAt hsplit] at hop hkinds
  exact decodeWith_of_shortImmediates hsplit hop hkinds (readOperands_eq_none.mpr (by omega))

theorem fetch_of_whole (hlen : s.pc.toNat + lengthAt s ≤ s.imem.length) :
    ∃ os, os.map Operand.kind = kinds ∧ s.fetch = buildFrom op os := by
  obtain ⟨front, rest, hsplit⟩ := exists_split_of_le hheader
  have himem := imem_length_of_split hsplit
  rw [lengthAt_eq_of_readKinds hkinds] at hlen
  rw [← headerOf_eq_headerAt hsplit] at hop hkinds
  cases hos : readOperands kinds rest with
  | none =>
    have hshort := readOperands_eq_none.mp hos
    omega
  | some os => exact ⟨os, (readOperands_eq_some hos).1, decodeWith_of_operands hsplit hop hkinds hos⟩

end

/-! ## An instruction that was fetched -/

theorem length_of_fetch {i : Instr} (h : s.fetch = .ok i) :
    (opcodeAt s = 0x7f → i.length = 4) ∧ (opcodeAt s ≠ 0x7f → i.length = lengthAt s) := by
  obtain ⟨front, rest, hsplit, ⟨hret, rfl⟩ | ⟨op, kinds, os, hop, hkinds, hos, hbuild⟩⟩ := decodeWith_eq_ok h
  · refine ⟨fun _ => rfl, fun hne => absurd ?_ hne⟩
    rw [opcodeAt_eq, ← headerOf_eq_headerAt hsplit, hret]
    rfl
  · rw [headerOf_eq_headerAt hsplit] at hop hkinds
    refine ⟨fun heq => absurd (BitVec.eq_of_toNat_eq ?_) (ne_retId_of_stdOpWith hop), fun _ => ?_⟩
    · rw [← opcodeAt_eq, heq]
      rfl
    · obtain ⟨rfl, -, -⟩ := readOperands_eq_some hos
      obtain ⟨-, rfl⟩ := buildFrom_eq_ok hbuild
      have hwidth : Kind.width ∘ Operand.kind = Operand.width := funext Operand.kind_width
      rw [lengthAt_eq_of_readKinds hkinds, List.map_map, hwidth]
      rfl

theorem slots_length_le_five (i : Instr) : i.slots.length ≤ 5 := by
  cases i with
  | ret mask => exact Nat.zero_le 5
  | _ => exact Nat.le_refl 5

/-- What was fetched is followed by the rest of instruction memory, so its encoding lies within it. -/
theorem fetch_ends_within {i : Instr} (h : s.fetch = .ok i) : s.pc.toNat + i.length ≤ s.imem.length := by
  obtain ⟨-, rest, hbytes⟩ := encodeWith_of_decodeWith h
  obtain ⟨hlen, hfour, -⟩ := Laws.EncodedLength.of_slots i (slots_length_le_five i)
  have hlength := congrArg List.length hbytes
  rw [List.length_append, State.fetchBytes, List.length_drop] at hlength
  change _ = (encode i).length + _ at hlength
  omega

end

end Sys2Proof.Machine


/-! Words and immediates written out (30_encoding.md §1), and the statements about fetch and step. -/

namespace Sys2Proof

open Sys2Proof.Spec

/-! ## Immediates from their bytes -/

/-- R114: a byte put above others adds at its place. -/
theorem append_byte_toNat {n : Nat} (x : BitVec n) (b : Byte) : (x ++ b).toNat = b.toNat + 256 * x.toNat := by
  rw [BitVec.toNat_append, ← Nat.shiftLeft_add_eq_or_of_lt b.isLt, Nat.shiftLeft_eq]
  omega

/-- R113: the sign-extended low bits of a number that those bits hold. -/
theorem sext_ofNat {n : Nat} (hn : n ≤ 64) {x : BitVec n} {k : Nat} (h : k = x.toNat) :
    sext n (BitVec.ofNat 64 k) = x.signExtend 64 := by
  refine congrArg (BitVec.signExtend 64) (BitVec.eq_of_toNat_eq ?_)
  have hx : k < 2 ^ n := h ▸ x.isLt
  have hk : k < 2 ^ 64 := hx.trans_le (Nat.pow_le_pow_right (by decide) hn)
  rw [BitVec.toNat_setWidth, BitVec.toNat_ofNat, Nat.mod_eq_of_lt hk, Nat.mod_eq_of_lt hx, h]

theorem ofNat_eq_of_toNat {n k : Nat} {x : BitVec n} (h : k = x.toNat) : BitVec.ofNat n k = x := by
  rw [h, BitVec.ofNat_toNat, BitVec.setWidth_eq]

theorem readOperand_imm {w : ImmWidth} {front rest : List Byte} (h : front.length = w.bytes) :
    readOperand (.imm w) (front ++ rest) = some (.imm w (w.extend (leNat front)), rest) := by
  simp only [readOperand, ← h, splitBytes_append]

/-! ## Encodings written out -/

theorem decode_of_eq_encode {bytes : List Byte} {i : Instr} (hwf : i.wf = true) (h : bytes = encode i) :
    decode bytes = .ok i := by
  have hround := decodeWith_encodeWith machineIds hwf []
  rwa [List.append_nil, ← encode, ← h] at hround

/-- R110, R111: the first byte of a header holds the opcode id and the lowest bit of slot 0's kind code. -/
theorem encode_std {i : Instr} {op : StdOp} (h : i.mnemonic = .std op) :
    encode i = opcodeByte (128 * (packCodes i.slots % 2)) op ::
      (leBytes 3 (packCodes i.slots / 2) ++ i.slots.flatMap Operand.immBytes) := by
  have hid := opcodeIdWith_lt machineIds op
  rw [encode, encodeWith, headerWith_std h, leBytes, List.cons_append]
  congr 1
  · apply BitVec.eq_of_toNat_eq
    rw [opcodeByte, opcodeId, BitVec.toNat_ofNat, BitVec.toNat_ofNat]
    omega
  · congr 2
    omega

/-- A word of format STD is the first byte with the opcode id, three more of the header, and the immediates. -/
theorem decode_std_word {i : Instr} {op : StdOp} {n : Nat} {bytes : List Byte} (hm : i.mnemonic = .std op)
    (hwf : i.wf = true) (hn : n = 128 * (packCodes i.slots % 2))
    (hbytes : bytes = leBytes 3 (packCodes i.slots / 2) ++ i.slots.flatMap Operand.immBytes) :
    decode (opcodeByte n op :: bytes) = .ok i :=
  decode_of_eq_encode hwf (by rw [encode_std hm, hn, hbytes])

end Sys2Proof

namespace Sys2Proof.Proofs

open Sys2Proof.Machine Sys2Proof.Spec

/-- Settles O7: each word is the encoding of its instruction, whatever the opcode id in its first byte. -/
theorem handWrittenWordsDecodeToTheirInstructions : Obligations.HandWrittenWordsDecodeToTheirInstructions := by
  unfold Obligations.HandWrittenWordsDecodeToTheirInstructions
  refine ⟨?add, ?mul, ?div, ?cmp, ?shl, ?lw, ?sw, ?jnz, ?ret⟩
  case ret => exact decode_of_eq_encode (by decide) (by decide)
  all_goals exact decode_std_word rfl (by decide) (by decide) (by decide)

/-- Settles O8: the 32 codes one by one, and each immediate's bytes as one bit string. -/
theorem immediateBytesReadAsTheirKindSays : Obligations.ImmediateBytesReadAsTheirKindSays := by
  unfold Obligations.ImmediateBytesReadAsTheirKindSays
  refine ⟨rfl, rfl, rfl, rfl, rfl, by decide, rfl, fun rest b0 b1 b2 b3 b4 b5 b6 b7 => ⟨rfl, ?w1, ?w2, ?w4, ?w8⟩⟩
  case w1 =>
    refine (readOperand_imm (w := .w1) (front := [b0]) rfl).trans ?_
    rw [ImmWidth.extend, sext_ofNat (by decide)]
    simp only [leNat]
    omega
  case w2 =>
    refine (readOperand_imm (w := .w2) (front := [b0, b1]) rfl).trans ?_
    rw [ImmWidth.extend, sext_ofNat (by decide)]
    simp only [leNat, append_byte_toNat]
    omega
  case w4 =>
    refine (readOperand_imm (w := .w4) (front := [b0, b1, b2, b3]) rfl).trans ?_
    rw [ImmWidth.extend, sext_ofNat (by decide)]
    simp only [leNat, append_byte_toNat]
    omega
  case w8 =>
    refine (readOperand_imm (w := .w8) (front := [b0, b1, b2, b3, b4, b5, b6, b7]) rfl).trans ?_
    refine congrArg (fun v => some (Operand.imm .w8 v, rest)) (ofNat_eq_of_toNat ?_)
    simp only [leNat, append_byte_toNat]
    omega

/-- Settles O9: the bytes at `pc` are those the fetch decodes. -/
theorem stepRunsTheDecodedInstruction : Obligations.StepRunsTheDecodedInstruction := by
  unfold Obligations.StepRunsTheDecodedInstruction
  intro s i hrun hdecode
  exact step_of_fetch_ok hrun hdecode

/-- Settles O10: the bytes from `pc` on begin with the encoding, which decodes to the instruction. -/
theorem stepRunsTheInstructionEncodedAtPc : Obligations.StepRunsTheInstructionEncodedAtPc := by
  unfold Obligations.StepRunsTheInstructionEncodedAtPc
  intro s before after i hrun hwf himem hpc
  refine step_of_fetch_ok hrun ?_
  have hbytes : s.fetchBytes = encode i ++ after := by
    rw [State.fetchBytes, himem, hpc, List.append_assoc, List.drop_left]
  rw [State.fetch, hbytes]
  exact decodeWith_encodeWith machineIds hwf after

/-- Settles O11: the fetch finds no header, or a header of format STD whose immediates run out. -/
theorem fetchOutsideInstructionMemoryFaults : Obligations.FetchOutsideInstructionMemoryFaults := by
  unfold Obligations.FetchOutsideInstructionMemoryFaults
  intro s hrun
  refine ⟨fun hshort => ?header, fun hheader hopcode hcodes hlen => ?immediates⟩
  case header => exact exists_fault_of_step_eq_faultNow (step_of_fetch_error hrun (fetch_of_short hshort))
  case immediates =>
    obtain ⟨op, hop⟩ := exists_stdOp hopcode
    obtain ⟨kinds, hkinds⟩ := exists_readKinds_headerAt hcodes
    exact exists_fault_of_step_eq_faultNow
      (step_of_fetch_error hrun (fetch_of_shortImmediates hheader hop hkinds hlen))

/-- Settles O12: no mnemonic has an opcode id past 0x22, and the ids up to 0x7e are not `ret`'s. -/
theorem undefinedOpcodesAreRefused : Obligations.UndefinedOpcodesAreRefused := by
  unfold Obligations.UndefinedOpcodesAreRefused
  intro s hrun hheader hlo hhi
  rw [step_of_fetch_error hrun (fetch_of_undefinedOpcode hheader hlo hhi), opcodeAt_eq, BitVec.ofNat_toNat,
    BitVec.setWidth_eq]
  rfl

/-- Settles O13: the kinds are read from slot 0 on, before any immediate. -/
theorem kindCode31IsRefused : Obligations.KindCode31IsRefused := by
  unfold Obligations.KindCode31IsRefused
  intro s k hrun hheader hopcode hk hcode hfirst
  obtain ⟨op, hop⟩ := exists_stdOp hopcode
  exact step_of_fetch_error hrun (fetch_of_code31 hheader hop hk hcode hfirst)

/-- Settles O14: an instruction that is read whole is built from operands with the codes of its header, whose first
immediate in a destination slot is refused. -/
theorem immediateDestinationsAreRefused : Obligations.ImmediateDestinationsAreRefused := by
  unfold Obligations.ImmediateDestinationsAreRefused
  intro s op k hrun hopcode hk hcodes hheader hlen himm hreg
  have hop : stdOpWith machineIds (opcodeField (headerAt s)) = some op :=
    stdOpWith_opcodeIdWith machineIds op _ (opcodeAt_eq s ▸ hopcode)
  obtain ⟨kinds, hkinds⟩ := exists_readKinds_headerAt hcodes
  obtain ⟨os, rfl, hfetch⟩ := fetch_of_whole hheader hop hkinds hlen
  have hslots := readKinds_eq_ok.mp hkinds
  obtain ⟨o0, o1, o2, o3, o4, rfl⟩ := eq_five_of_length (by simpa using (congrArg List.length hslots).symm)
  simp only [List.map_cons, List.map_nil, List.cons.injEq, and_true] at hslots
  obtain ⟨h0, h1, -⟩ := hslots
  have hcode0 : o0.code = codeAt s 0 := by rw [codeAt_eq, Kind.code_of_ofCode h0]
  have hcode1 : o1.code = codeAt s 1 := by rw [codeAt_eq, Kind.code_of_ofCode h1]
  rw [buildFrom_immediateDestination hcode0 hcode1 hk himm hreg] at hfetch
  exact step_of_fetch_error hrun hfetch

/-- Settles O15: `step` looks at the run state first. -/
theorem terminalStatesTakeNoStep : Obligations.TerminalStatesTakeNoStep := by
  unfold Obligations.TerminalStatesTakeNoStep
  intro s
  refine ⟨fun code hrun => ?halted, fun kind hrun => ?faulted⟩
  case halted => simp only [step, hrun]
  case faulted => simp only [step, hrun]

/-- Settles O56: the length is that of the kinds read, and the encoding lies in an instruction memory of less than
2^64 bytes. -/
theorem aFetchedInstructionEndsInInstructionMemory : Obligations.AFetchedInstructionEndsInInstructionMemory := by
  unfold Obligations.AFetchedInstructionEndsInInstructionMemory
  intro s i hs hfetch
  obtain ⟨hret, hstd⟩ := length_of_fetch hfetch
  have hend := fetch_ends_within hfetch
  have hbound := hs.imemBounded
  refine ⟨hret, hstd, hend, ?_⟩
  rw [BitVec.toNat_add, BitVec.toNat_ofNat]
  omega

end Sys2Proof.Proofs

/-! Loading an image (70_reset_and_hazards.md §1 .. §3): which images load, and the state a load leaves. -/

namespace Sys2Proof

theorem splitBytes_eq_take_drop {n : Nat} {bytes front rest : List Byte} :
    splitBytes n bytes = some (front, rest) ↔ n ≤ bytes.length ∧ front = bytes.take n ∧ rest = bytes.drop n := by
  rw [splitBytes_eq_some]
  constructor
  · rintro ⟨rfl, rfl⟩
    simp
  · rintro ⟨hlen, rfl, rfl⟩
    exact ⟨(List.take_append_drop n bytes).symm, List.length_take_of_le hlen⟩

end Sys2Proof

namespace Sys2Proof.Machine

/-- R9, R74: an address of storage is one of 64 bits, not the I/O cell, and in a provisioned region. -/
theorem storageIn_iff {provisioned : List Region} {x : Nat} :
    storageIn provisioned x = true ↔ x ≤ 2 ^ 64 - 1 ∧ x ≠ 0xFFFFFFFFFFFFFFFF ∧
      ∃ region ∈ provisioned, region.base ≤ x ∧ x < region.base + region.size := by
  have hio : ioAddr.toNat = 0xFFFFFFFFFFFFFFFF := rfl
  have hbound : x < 2 ^ 64 ↔ x ≤ 2 ^ 64 - 1 := by omega
  simp only [storageIn, regionHas, hio, hbound, Bool.and_eq_true, decide_eq_true_eq, List.any_eq_true, and_assoc]

/-- R450: the number in the first four bytes of an image, the length of its data section. -/
def dataLength (image : List Byte) : Nat := leNat (image.take 4)

theorem dataLength_lt (image : List Byte) : dataLength image < 2 ^ 32 := by
  have hlen : (image.take 4).length ≤ 4 := List.length_take_le 4 image
  exact (leNat_lt _).trans_le (Nat.pow_le_pow_right (by decide) hlen)

/-- R451 .. R453: the state a load leaves, from the image's data section and instruction stream. -/
def loadedState (data stream : List Byte) (provisioned : List Region) (answers : List (Option Byte)) : State :=
  { State.reset with
    mem := Memory.writeBytes [] dataBase data
    imem := stream
    provisioned := provisioned
    answers := answers }

section
variable {image data stream : List Byte} {provisioned : List Region} {answers : List (Option Byte)} {s : State}

theorem splitImage_eq_some : splitImage image = some (data, stream) ↔
    4 + dataLength image ≤ image.length ∧ data = (image.drop 4).take (dataLength image) ∧
      stream = image.drop (4 + dataLength image) := by
  unfold splitImage
  cases hsplit : splitBytes 4 image with
  | none =>
    have hshort := splitBytes_eq_none.mp hsplit
    refine iff_of_false nofun fun h => ?_
    omega
  | some parts =>
    obtain ⟨header, body⟩ := parts
    obtain ⟨hlen, rfl, rfl⟩ := splitBytes_eq_take_drop.mp hsplit
    have hbody : dataLength image ≤ image.length - 4 ↔ 4 + dataLength image ≤ image.length := by omega
    change splitBytes (dataLength image) (image.drop 4) = some (data, stream) ↔ _
    rw [splitBytes_eq_take_drop, List.length_drop, List.drop_drop, hbody]

theorem load_eq_some : load image provisioned answers = some s ↔
    ∃ data stream, splitImage image = some (data, stream) ∧ dataProvisioned provisioned data.length = true ∧
      stream.length < 2 ^ 64 ∧ loadedState data stream provisioned answers = s := by
  unfold load
  cases hsplit : splitImage image with
  | none => simp
  | some parts =>
    obtain ⟨data, stream⟩ := parts
    simp only [Option.ite_none_right_eq_some, Option.some.injEq, Prod.mk.injEq, and_assoc]
    constructor
    · intro h
      exact ⟨data, stream, rfl, rfl, h⟩
    · rintro ⟨_, _, rfl, rfl, h⟩
      exact h

/-- R37, R451, R455: an image loads if it is long enough, its stream is not too long, and its data has storage. -/
theorem exists_load_iff : (∃ s, load image provisioned answers = some s) ↔
    4 + dataLength image ≤ image.length ∧ image.length < 2 ^ 64 + (4 + dataLength image) ∧
      dataProvisioned provisioned (dataLength image) = true := by
  constructor
  · rintro ⟨s, hload⟩
    obtain ⟨data, stream, hsplit, hprovisioned, hstream, -⟩ := load_eq_some.mp hload
    obtain ⟨hlen, rfl, rfl⟩ := splitImage_eq_some.mp hsplit
    rw [List.length_take, List.length_drop, min_eq_left (by omega)] at hprovisioned
    rw [List.length_drop] at hstream
    exact ⟨hlen, by omega, hprovisioned⟩
  · rintro ⟨hlen, hstream, hprovisioned⟩
    refine ⟨_, load_eq_some.mpr ⟨_, _, splitImage_eq_some.mpr ⟨hlen, rfl, rfl⟩, ?_, ?_, rfl⟩⟩
    · rwa [List.length_take, List.length_drop, min_eq_left (by omega)]
    · rw [List.length_drop]
      omega

theorem dataProvisioned_iff {size : Nat} :
    dataProvisioned provisioned size = true ↔ ∀ k < size, storageIn provisioned (dataBase + k) = true := by
  simp only [dataProvisioned, List.all_eq_true, List.mem_range]

/-- R452: a data section ends below the I/O cell, so that provisioning its addresses is enough. -/
theorem storageIn_data_iff {k : Nat} (h : k < 2 ^ 32) : storageIn provisioned (dataBase + k) = true ↔
    ∃ region ∈ provisioned, region.base ≤ dataBase + k ∧ dataBase + k < region.base + region.size := by
  have hbase : dataBase = 0x2000000000000000 := rfl
  have hlow : dataBase + k ≤ 2 ^ 64 - 1 ∧ dataBase + k ≠ 0xFFFFFFFFFFFFFFFF := by omega
  rw [storageIn_iff, and_iff_right hlow.1, and_iff_right hlow.2]

/-! ## The state a load leaves -/

theorem loadedState_readByte (x : Nat) : (loadedState data stream provisioned answers).readByte x =
    (if dataBase ≤ x ∧ x < dataBase + data.length then data[x - dataBase]? else none).getD (Config.initMem x) :=
  congrArg (Option.getD · (Config.initMem x)) (Memory.lookup_writeBytes data [] dataBase x)

theorem loadedState_readByte_data {k : Nat} (h : k < data.length) :
    some ((loadedState data stream provisioned answers).readByte (dataBase + k)) = data[k]? := by
  have hin : dataBase ≤ dataBase + k ∧ dataBase + k < dataBase + data.length := by omega
  rw [loadedState_readByte, if_pos hin, Nat.add_sub_cancel_left, List.getElem?_eq_getElem h, Option.getD_some]

theorem loadedState_readByte_other {x : Nat} (h : ¬ (dataBase ≤ x ∧ x < dataBase + data.length)) :
    (loadedState data stream provisioned answers).readByte x = Config.initMem x := by
  rw [loadedState_readByte, if_neg h, Option.getD_none]

theorem loadedState_reg (x : Reg) :
    (loadedState data stream provisioned answers).reg x = if x = 25 then stackBase else 0 := reset_reg x

theorem loadedState_inv (hdata : dataProvisioned provisioned data.length = true) (hstream : stream.length < 2 ^ 64) :
    (loadedState data stream provisioned answers).Inv where
  memCanonical := Memory.writeBytes_wf data (m := []) rfl dataBase
  memOnStorage := by
    intro cell hcell
    rcases Memory.mem_writeBytes data hcell with ⟨hlo, hhi⟩ | hnil
    · have hbyte := dataProvisioned_iff.mp hdata (cell.1 - dataBase) (by omega)
      rwa [Nat.add_sub_of_le hlo] at hbyte
    · exact absurd hnil List.not_mem_nil
  imemBounded := hstream
  faultRecord := rfl
  icountIsTrace := rfl
  cyclesIsTrace := rfl

end

end Sys2Proof.Machine

namespace Sys2Proof.Proofs

open Sys2Proof.Machine

/-- Settles O2: the image's parts, and the fields of the state made of them. -/
theorem loadPlacesTheImageAndSetsTheResetState : Obligations.LoadPlacesTheImageAndSetsTheResetState := by
  unfold Obligations.LoadPlacesTheImageAndSetsTheResetState
  intro image provisioned answers s hload L
  obtain ⟨data, stream, hsplit, -, -, rfl⟩ := load_eq_some.mp hload
  obtain ⟨hlen, rfl, rfl⟩ := splitImage_eq_some.mp hsplit
  have hL : dataLength image = L := rfl
  rw [hL] at hlen ⊢
  have hdata : ((image.drop 4).take L).length = L := by
    rw [List.length_take, List.length_drop]
    omega
  refine ⟨hlen, rfl, ?data, ?other, ?zeros, ?stack, rfl, rfl, rfl, rfl, rfl, rfl, rfl, rfl, rfl, rfl, rfl⟩
  case data =>
    intro k hk
    have hbyte := loadedState_readByte_data (stream := image.drop (4 + L)) (provisioned := provisioned)
      (answers := answers) (hdata.symm ▸ hk)
    rwa [List.getElem?_take_of_lt hk, List.getElem?_drop] at hbyte
  case other =>
    intro x hx
    exact loadedState_readByte_other (hdata.symm ▸ hx)
  case zeros => intro x hx; rw [loadedState_reg, if_neg hx]
  case stack => rw [loadedState_reg, if_pos rfl, stackBase]

/-- Settles O3: the image's length decides the split, and every address of the data section lies below the I/O cell. -/
theorem loadStartsExactlyTheValidImages : Obligations.LoadStartsExactlyTheValidImages := by
  unfold Obligations.LoadStartsExactlyTheValidImages
  intro image provisioned answers
  have hregions : dataProvisioned provisioned (dataLength image) = true ↔ ∀ k < dataLength image,
      ∃ region ∈ provisioned, region.base ≤ 0x2000000000000000 + k ∧
        0x2000000000000000 + k < region.base + region.size :=
    dataProvisioned_iff.trans (forall₂_congr fun k hk => storageIn_data_iff (hk.trans (dataLength_lt image)))
  rw [exists_load_iff, hregions]
  exact ⟨fun ⟨hlen, hrest⟩ => ⟨(Nat.le_add_right 4 _).trans hlen, hlen, hrest⟩, And.right⟩

/-- Settles O4: the empty image has neither data nor instructions. -/
theorem emptyImageLoadsTheResetState : Obligations.EmptyImageLoadsTheResetState := by
  unfold Obligations.EmptyImageLoadsTheResetState
  exact load_eq_some.mpr ⟨[], [], rfl, rfl, Nat.two_pow_pos 64, rfl⟩

/-- Settles O55: the data section is written byte by byte to storage, and everything else is as at reset. -/
theorem loadEstablishesTheInvariant : Obligations.LoadEstablishesTheInvariant := by
  unfold Obligations.LoadEstablishesTheInvariant
  intro image provisioned answers s hload
  obtain ⟨data, stream, -, hdata, hstream, rfl⟩ := load_eq_some.mp hload
  exact loadedState_inv hdata hstream

end Sys2Proof.Proofs

/-! Complement, products and divisions whose slots name one register, the exact product, floor division, comparisons and
shifts (40_arith_logic.md .. 43_shift.md). -/

namespace Sys2Proof.Machine

open Sys2Proof.Spec

/-! ## Signed results -/

theorem wrap_toInt {z : Int} (hlo : -2 ^ 63 ≤ z) (hhi : z < 2 ^ 63) : (wrap z).toInt = z :=
  BitVec.toInt_ofInt_eq_self (by decide) hlo hhi

theorem toInt_bounds (v : Word) : -2 ^ 63 ≤ v.toInt ∧ v.toInt < 2 ^ 63 := ⟨BitVec.le_toInt v, BitVec.toInt_lt⟩

theorem toInt_ne_zero {v : Word} (h : v ≠ 0) : v.toInt ≠ 0 := fun hzero => h (BitVec.eq_of_toInt_eq hzero)

/-! ## The exact product -/

/-- R220: the high half of a product of signed words is its floor quotient by 2^64. -/
theorem highHalf_mul_toInt (x y : Word) : (highHalf (x.toInt * y.toInt)).toInt = x.toInt * y.toInt / 2 ^ 64 := by
  have hhi : x.toInt * y.toInt ≤ 2 ^ 126 := BitVec.toInt_mul_toInt_le
  have hlo : -2 ^ 126 ≤ x.toInt * y.toInt := BitVec.le_toInt_mul_toInt
  rw [highHalf, Int.fdiv_eq_ediv_of_nonneg _ (by decide)]
  exact wrap_toInt (by omega) (by omega)

theorem halves_mul_toInt (x y : Word) :
    (highHalf (x.toInt * y.toInt)).toInt * 2 ^ 64 + (lowHalf (x.toInt * y.toInt)).toNat = x.toInt * y.toInt := by
  rw [highHalf_mul_toInt, lowHalf_toNat, Int.ediv_mul_add_emod]

theorem halves_mul_toNat (x y : Word) :
    (highHalf (x.toNat * y.toNat : Nat)).toNat * 2 ^ 64 + (lowHalf (x.toNat * y.toNat : Nat)).toNat =
      x.toNat * y.toNat := by
  rw [highHalf_mul_toNat, lowHalf_natCast_toNat, Nat.div_add_mod']

/-! ## Floor division -/

/-- R17: the remainder of a floor division lies between zero and the divisor, on the divisor's side. -/
theorem fmod_bounds (n : Int) {d : Int} (hd : d ≠ 0) :
    (0 < d → 0 ≤ Int.fmod n d ∧ Int.fmod n d < d) ∧ (d < 0 → d < Int.fmod n d ∧ Int.fmod n d ≤ 0) := by
  constructor
  · intro hpos
    exact ⟨Int.fmod_nonneg_of_pos n hpos, Int.fmod_lt_of_pos n hpos⟩
  · intro hneg
    have hlo := Int.emod_nonneg n hd
    have hhi := Int.emod_lt_of_neg n hneg
    rw [Int.fmod_eq_emod]
    split
    next hzero =>
      have hdvd : n % d = 0 := Int.emod_eq_zero_of_dvd (hzero.resolve_left (by omega))
      omega
    next hnot =>
      have hne : n % d ≠ 0 := fun h => hnot (.inr (Int.dvd_of_emod_eq_zero h))
      omega

theorem wrap_fmod_toInt (n : Int) {d : Word} (hd : d ≠ 0) : (wrap (Int.fmod n d.toInt)).toInt = Int.fmod n d.toInt := by
  have hne := toInt_ne_zero hd
  have hd64 := toInt_bounds d
  obtain ⟨hpos, hneg⟩ := fmod_bounds n hne
  apply wrap_toInt <;> omega

section
variable {r q : Reg} {a b u4 : Operand} {s : State}

theorem exec_div_of_ne_zero (hb : s.value b ≠ 0) :
    exec (.div r q a b u4) s = writeTwo (.std .div) [.reg r, .reg q, a, b, u4] r q
      (wrap (Int.fdiv (s.value a).toInt (s.value b).toInt)) (wrap (Int.fmod (s.value a).toInt (s.value b).toInt)) s :=
  if_neg (toInt_ne_zero hb)

theorem exec_div_of_eq_zero (hb : s.value b = 0) : exec (.div r q a b u4) s = faultNow s .divisionByZero none :=
  if_pos (congrArg BitVec.toInt hb)

end

/-- R219: where both slots name one register, only that register changes. -/
theorem registerOnly_of_twice {i : Instr} {s t : State} {r : Reg} (h : RegisterOnly i s t [r, r]) :
    RegisterOnly i s t [r] := by
  obtain ⟨hgoes, hregs, hrest⟩ := h
  exact ⟨hgoes, fun x hx => hregs x (by simpa using hx), hrest⟩

/-! ## Comparisons -/

section
variable {i : Instr} {r : Reg} {s : State} {p : Prop} [Decidable p]

/-- R239: a comparison writes 1 where its relation holds and 0 elsewhere. -/
theorem comparison_completes (h : exec i s = writeResult i.mnemonic i.slots r (boolWord (decide p)) s) :
    ∃ t, exec i s = .next t ∧ (t.reg r).toNat = (if p then 1 else 0) ∧ RegisterOnly i s t [r] := by
  obtain ⟨t, hexec, hresult, hframe⟩ := completes_of_writeResult h
  refine ⟨t, hexec, ?_, hframe⟩
  rw [hresult]
  by_cases hp : p <;> simp [boolWord, hp]

theorem negatedComparison_completes (h : exec i s = writeResult i.mnemonic i.slots r (boolWord (!decide p)) s) :
    ∃ t, exec i s = .next t ∧ (t.reg r).toNat = (if p then 0 else 1) ∧ RegisterOnly i s t [r] := by
  rw [← decide_not] at h
  simpa only [ite_not] using comparison_completes h

end

theorem wordEq_eq (x y : Word) : wordEq x y = decide (x.toNat = y.toNat) := by
  rw [wordEq, Bool.eq_iff_iff, beq_iff_eq, decide_eq_true_iff, BitVec.toNat_inj]

theorem signedLe_eq (x y : Word) : signedLe x y = !decide (y.toInt < x.toInt) := by
  rw [signedLe, ← decide_not, decide_eq_decide, Int.not_lt]

theorem unsignedLe_eq (x y : Word) : unsignedLe x y = !decide (y.toNat < x.toNat) := by
  rw [unsignedLe, ← decide_not, decide_eq_decide, Nat.not_lt]

/-! ## Shifts -/

/-- R259: a left shift by `m` multiplies by 2^m; from 64 on nothing is left modulo 2^64. -/
theorem lsl_toNat (v : Word) (m : Nat) : (lsl v m).toNat = v.toNat * 2 ^ m % 2 ^ 64 := by
  unfold lsl
  split
  next hm => exact (Nat.mod_eq_zero_of_dvd (Dvd.dvd.mul_left (Nat.pow_dvd_pow 2 hm) _)).symm
  next hm => exact_mod_cast wrap_natCast_toNat (v.toNat * 2 ^ m)

theorem lsr_toNat (v : Word) (m : Nat) : (lsr v m).toNat = v.toNat / 2 ^ m := by
  unfold lsr
  split
  next hm =>
    have hlt : v.toNat < 2 ^ m := v.isLt.trans_le (Nat.pow_le_pow_right (by decide) hm)
    exact (Nat.div_eq_of_lt hlt).symm
  next hm => exact wrap_natCast_toNat_of_le (Nat.div_le_self ..)

/-- R259: an arithmetic right shift floors; from 64 on the floor is the sign. -/
theorem asr_toInt (v : Word) (m : Nat) : (asr v m).toInt = v.toInt / 2 ^ m := by
  obtain ⟨hlo, hhi⟩ := toInt_bounds v
  unfold asr
  split
  next hm =>
    have hpow : (2 : Int) ^ 64 ≤ 2 ^ m := by exact_mod_cast Nat.pow_le_pow_right (by decide) hm
    split
    next hneg => exact (Int.ediv_eq_neg_one_of_neg_of_le hneg (by omega)).symm
    next hneg => exact (Int.ediv_eq_zero_of_lt (by omega) (by omega)).symm
  next hm =>
    have hpos : (0 : Int) < 2 ^ m := by positivity
    rw [Int.fdiv_eq_ediv_of_nonneg _ hpos.le]
    exact wrap_toInt (Int.le_ediv_of_mul_le hpos (by omega)) (Int.ediv_lt_of_lt_mul hpos (by omega))

variable {forward backward : Word → Nat → Word} {v count : Word}

theorem byCount_of_nonneg (h : 0 ≤ count.toInt) : byCount forward backward v count = forward v count.toInt.natAbs := by
  have hcount : count.toInt.toNat = count.toInt.natAbs := by omega
  rw [byCount, if_pos h, hcount]

theorem byCount_of_neg (h : count.toInt < 0) : byCount forward backward v count = backward v count.toInt.natAbs := by
  have hcount : (-count.toInt).toNat = count.toInt.natAbs := by omega
  rw [byCount, if_neg (Int.not_le.mpr h), hcount]

/-- R259: a shift by a signed count, whichever way the sign makes it go. -/
theorem byCount_toNat : (byCount forward backward v count).toNat =
    if 0 ≤ count.toInt then (forward v count.toInt.natAbs).toNat else (backward v count.toInt.natAbs).toNat := by
  split
  next h => rw [byCount_of_nonneg h]
  next h => rw [byCount_of_neg (Int.not_le.mp h)]

end Sys2Proof.Machine

namespace Sys2Proof.Proofs

open Sys2Proof.Machine Sys2Proof.Spec

/-- Settles O18: the one result is the complement, whose value is the difference to the largest word. -/
theorem notComplementsEveryBit : Obligations.NotComplementsEveryBit := by
  unfold Obligations.NotComplementsEveryBit
  intro r a u2 u3 u4 s
  obtain ⟨t, hexec, hresult, hframe⟩ := completes_of_writeResult (i := .not r a u2 u3 u4) (s := s) rfl
  refine ⟨t, hexec, fun k hk => ?_, hresult ▸ BitVec.toNat_not, hframe⟩
  rw [hresult, BitVec.getLsbD_not, decide_eq_true hk, Bool.true_and]

/-- Settles O20: with one register in both slots, the second of the two results stands. -/
theorem namingOneRegisterTwiceKeepsTheSecondWrite : Obligations.NamingOneRegisterTwiceKeepsTheSecondWrite := by
  unfold Obligations.NamingOneRegisterTwiceKeepsTheSecondWrite
  intro r a b u4 s
  refine ⟨?mul, ?mulu, fun hb => ⟨?div, ?divu⟩⟩
  case mul =>
    obtain ⟨t, hexec, -, hhigh, hframe⟩ := completes_of_writeTwo (i := .mul r r a b u4) (s := s) rfl
    exact ⟨t, hexec, hhigh ▸ highHalf_toNat _, registerOnly_of_twice hframe⟩
  case mulu =>
    obtain ⟨t, hexec, -, hhigh, hframe⟩ := completes_of_writeTwo (i := .mulu r r a b u4) (s := s) rfl
    exact ⟨t, hexec, hhigh ▸ highHalf_mul_toNat _ _, registerOnly_of_twice hframe⟩
  case div =>
    obtain ⟨t, hexec, -, hremainder, hframe⟩ := completes_of_writeTwo (exec_div_of_ne_zero (r := r) (q := r) hb)
    exact ⟨t, hexec, hremainder ▸ (wrap_fmod_toInt _ hb).trans (Int.fmod_def ..), registerOnly_of_twice hframe⟩
  case divu =>
    obtain ⟨t, hexec, -, hremainder, hframe⟩ := completes_of_writeTwo (exec_divu_of_ne_zero (r := r) (q := r) hb)
    exact ⟨t, hexec, hremainder ▸ wrap_natCast_toNat_of_le (Nat.mod_le ..), registerOnly_of_twice hframe⟩

/-- Settles O21: the halves are the floor quotient and the residue of one product by 2^64, and the quotient fits. -/
theorem productHalvesAreTheExactProduct : Obligations.ProductHalvesAreTheExactProduct := by
  unfold Obligations.ProductHalvesAreTheExactProduct
  intro r q a b u4 s t hne
  refine ⟨fun hexec => ?mul, fun hexec => ?mulu⟩
  case mul =>
    obtain ⟨t', hexec', hlow, hhigh, -⟩ := completes_of_writeTwo (i := .mul r q a b u4) (s := s) rfl
    obtain rfl := Host.Outcome.next.inj (hexec.symm.trans hexec')
    rw [hlow hne, hhigh]
    exact halves_mul_toInt ..
  case mulu =>
    obtain ⟨t', hexec', hlow, hhigh, -⟩ := completes_of_writeTwo (i := .mulu r q a b u4) (s := s) rfl
    obtain rfl := Host.Outcome.next.inj (hexec.symm.trans hexec')
    rw [hlow hne, hhigh]
    exact halves_mul_toNat ..

/-- Settles O22: the quotient is the floor, and a remainder on the divisor's side of zero fits a word. -/
theorem signedDivisionRoundsTowardNegativeInfinity : Obligations.SignedDivisionRoundsTowardNegativeInfinity := by
  unfold Obligations.SignedDivisionRoundsTowardNegativeInfinity
  intro r q a b u4 s hb
  obtain ⟨t, hexec, hquotient, hremainder, hframe⟩ := completes_of_writeTwo (exec_div_of_ne_zero hb)
  obtain ⟨hpos, hneg⟩ := fmod_bounds (s.value a).toInt (toInt_ne_zero hb)
  refine ⟨t, hexec, ?_⟩
  rw [hremainder, wrap_fmod_toInt _ hb]
  exact ⟨⟨_, Int.fdiv_mul_add_fmod .., fun hne => hquotient hne ▸ wrap_toNat _⟩, hpos, hneg, hframe⟩

/-- Settles O24: a zero divisor is tested before anything is written. -/
theorem divisionByZeroFaultsWithoutEffect : Obligations.DivisionByZeroFaultsWithoutEffect := by
  unfold Obligations.DivisionByZeroFaultsWithoutEffect
  intro r q a b u4 s hb
  exact ⟨endsInFault_of_faultNow (exec_div_of_eq_zero hb), endsInFault_of_faultNow (exec_divu_of_eq_zero hb)⟩

/-- Settles O25: each comparison writes the word of its relation. -/
theorem comparisonsWriteOneOrZero : Obligations.ComparisonsWriteOneOrZero := by
  unfold Obligations.ComparisonsWriteOneOrZero
  intro r a b u3 u4 s
  refine ⟨?cmp, ?neq, ?le, ?leq, ?leu, ?lequ⟩
  case cmp => exact comparison_completes (by rw [← wordEq_eq]; rfl)
  case neq => exact negatedComparison_completes (by rw [← wordEq_eq]; rfl)
  case le => exact comparison_completes rfl
  case leq => exact negatedComparison_completes (by rw [← signedLe_eq]; rfl)
  case leu => exact comparison_completes rfl
  case lequ => exact negatedComparison_completes (by rw [← unsignedLe_eq]; rfl)

/-- Settles O26: the sign of the count picks the direction, and each direction's formula holds for every amount. -/
theorem shiftsFollowTheSignedCount : Obligations.ShiftsFollowTheSignedCount := by
  unfold Obligations.ShiftsFollowTheSignedCount
  intro r a b u3 u4 s n left right
  refine ⟨?shl, ?shr, ?sar⟩
  case shl =>
    obtain ⟨t, hexec, hresult, hframe⟩ := completes_of_writeResult (i := .shl r a b u3 u4) (s := s) rfl
    exact ⟨t, hexec, by rw [hresult, byCount_toNat, lsl_toNat, lsr_toNat], hframe⟩
  case shr =>
    obtain ⟨t, hexec, hresult, hframe⟩ := completes_of_writeResult (i := .shr r a b u3 u4) (s := s) rfl
    exact ⟨t, hexec, by rw [hresult, byCount_toNat, lsl_toNat, lsr_toNat], hframe⟩
  case sar =>
    obtain ⟨t, hexec, hresult, hframe⟩ := completes_of_writeResult (i := .sar r a b u3 u4) (s := s) rfl
    refine ⟨t, hexec, fun hn => ?_, fun hn => ?_, hframe⟩
    · rw [hresult, byCount_of_nonneg hn, asr_toInt]
    · rw [hresult, byCount_of_neg hn, lsl_toNat]

end Sys2Proof.Proofs

/-! Loads, stores and the I/O cell (44_load_store.md, 20_memory.md §2 .. §4). -/

namespace Sys2Proof.Machine

open Sys2Proof.Spec

/-! ## Admission -/

section
variable {s : State} {addr : Word} {n : Nat}

theorem admitted_iff_Admitted : s.admitted addr n = true ↔ Admitted s addr n := by
  simp only [State.admitted_iff, State.isStorage, storageIn_iff, Admitted]

/-- R74, R79: no access that covers the I/O cell is admitted. -/
theorem not_admitted_of_covers_ioAddr (h : addr.toNat + n > 0xFFFFFFFFFFFFFFFF) : ¬ Admitted s addr n := by
  intro hadmitted
  have haddr := addr.isLt
  obtain ⟨-, hcell, -⟩ := hadmitted (0xFFFFFFFFFFFFFFFF - addr.toNat) (by omega)
  omega

theorem ne_ioAddr_of_admitted (hn : 0 < n) (h : Admitted s addr n) : addr ≠ ioAddr := by
  rintro rfl
  have hcell : ioAddr.toNat = 0xFFFFFFFFFFFFFFFF := rfl
  exact not_admitted_of_covers_ioAddr (by omega) h

theorem admitted_congr {t : State} (h : Admitted s addr n) (hp : t.provisioned = s.provisioned) :
    Admitted t addr n := by
  rwa [Admitted, hp]

/-- R74: an admitted access ends below 2^64, so that the addresses of its bytes do not wrap. -/
theorem toNat_add_of_admitted {k : Nat} (h : Admitted s addr n) (hk : k < n) :
    (addr + BitVec.ofNat 64 k).toNat = addr.toNat + k := by
  obtain ⟨hbound, -, -⟩ := h k hk
  rw [BitVec.toNat_add, BitVec.toNat_ofNat]
  omega

theorem admitted_byte {k : Nat} (h : Admitted s addr n) (hk : k < n) :
    Admitted s (addr + BitVec.ofNat 64 k) 1 := by
  intro j hj
  rw [toNat_add_of_admitted h hk, Nat.lt_one_iff.mp hj, Nat.add_zero]
  exact h k hk

/-! ## The number in memory -/

theorem leNat_readBytes (s : State) (a n : Nat) :
    leNat (s.readBytes a n) = ∑ k ∈ Finset.range n, (s.readByte (a + k)).toNat * 256 ^ k := by
  induction n generalizing a with
  | zero => rfl
  | succ n ih =>
    rw [State.readBytes, leNat, ih, Finset.sum_range_succ', Finset.mul_sum, Nat.add_comm]
    congr 1
    · refine Finset.sum_congr rfl fun k _ => ?_
      rw [Nat.pow_succ, Nat.add_right_comm, Nat.add_assoc]
      ring
    · simp

theorem readBytes_length (s : State) (a n : Nat) : (s.readBytes a n).length = n := by
  induction n generalizing a with
  | zero => rfl
  | succ n ih => rw [State.readBytes, List.length_cons, ih]

theorem valueAt_eq_leNat : valueAt s addr n = leNat (s.readBytes addr.toNat n) := (leNat_readBytes ..).symm

theorem valueAt_lt : valueAt s addr n < 2 ^ (8 * n) := by
  rw [valueAt_eq_leNat, Nat.pow_mul]
  exact (leNat_lt _).trans_eq (by rw [readBytes_length])

theorem memRead_toNat (hn : n ≤ 8) : (s.memRead addr n).toNat = valueAt s addr n := by
  have hlt : valueAt s addr n < 2 ^ 64 := valueAt_lt.trans_le (Nat.pow_le_pow_right (by decide) (by omega))
  rw [State.memRead, BitVec.toNat_ofNat, ← valueAt_eq_leNat, Nat.mod_eq_of_lt hlt]

theorem zext_memRead_toNat (hn : n ≤ 8) : (zext (8 * n) (s.memRead addr n)).toNat = valueAt s addr n := by
  have hlt : valueAt s addr n < 2 ^ 64 := valueAt_lt.trans_le (Nat.pow_le_pow_right (by decide) (by omega))
  rw [zext, BitVec.toNat_setWidth, BitVec.toNat_setWidth, memRead_toNat hn, Nat.mod_eq_of_lt valueAt_lt,
    Nat.mod_eq_of_lt hlt]

theorem sext_memRead_toInt (hpos : 0 < n) (hn : n ≤ 8) : (sext (8 * n) (s.memRead addr n)).toInt =
    if valueAt s addr n < 2 ^ (8 * n - 1) then (valueAt s addr n : Int) else valueAt s addr n - 2 ^ (8 * n) := by
  have hpow : 2 ^ (8 * n) = 2 * 2 ^ (8 * n - 1) := by
    rw [← Nat.pow_succ', Nat.succ_eq_add_one, Nat.sub_add_cancel (by omega)]
  have hhalf : 2 * valueAt s addr n < 2 ^ (8 * n) ↔ valueAt s addr n < 2 ^ (8 * n - 1) := by omega
  rw [sext, BitVec.toInt_signExtend_of_le (by omega), BitVec.toInt_eq_toNat_cond, BitVec.toNat_setWidth,
    memRead_toNat hn, Nat.mod_eq_of_lt valueAt_lt]
  simp only [hhalf]
  push_cast
  rfl

end

/-! ## Accesses that are admitted -/

section
variable {m : Mnemonic} {slots : List Operand} {s : State} {addr v : Word} {n : Nat} {ext : Word → Word} {r : Reg}

theorem loadStorage_of_admitted (h : Admitted s addr n) :
    loadStorage m slots n ext r addr s = writeResult m slots r (ext (s.memRead addr n)) s :=
  if_pos (admitted_iff_Admitted.mpr h)

theorem loadNarrow_of_admitted (hn : 0 < n) (h : Admitted s addr n) :
    loadNarrow m slots n ext r addr s = writeResult m slots r (ext (s.memRead addr n)) s :=
  (if_neg (ne_ioAddr_of_admitted hn h)).trans (loadStorage_of_admitted h)

theorem storeStorage_of_admitted (h : Admitted s addr n) :
    storeStorage m slots n addr v s = fallThrough m slots s (s.memWrite addr n v) :=
  if_pos (admitted_iff_Admitted.mpr h)

theorem storeNarrow_of_admitted (hn : 0 < n) (h : Admitted s addr n) :
    storeNarrow m slots n addr v s = fallThrough m slots s (s.memWrite addr n v) :=
  (if_neg (ne_ioAddr_of_admitted hn h)).trans (storeStorage_of_admitted h)

/-! ## Accesses that are not admitted -/

theorem loadStorage_of_not_admitted (h : ¬ Admitted s addr n) :
    loadStorage m slots n ext r addr s = faultNow s .invalidMemoryAccess (some addr) :=
  if_neg (mt admitted_iff_Admitted.mp h)

theorem loadNarrow_of_not_admitted (h : ¬ Admitted s addr n) :
    loadNarrow m slots n ext r addr s = faultNow s .invalidMemoryAccess (some addr) := by
  rw [loadNarrow, loadStorage_of_not_admitted h, ite_self]

theorem storeStorage_of_not_admitted (h : ¬ Admitted s addr n) :
    storeStorage m slots n addr v s = faultNow s .invalidMemoryAccess (some addr) :=
  if_neg (mt admitted_iff_Admitted.mp h)

theorem storeNarrow_of_not_admitted (h : ¬ Admitted s addr n) :
    storeNarrow m slots n addr v s = faultNow s .invalidMemoryAccess (some addr) := by
  rw [storeNarrow, storeStorage_of_not_admitted h, ite_self]

end

/-! ## The instructions -/

/-- R79, R281: the instruction is a load or store of `n` bytes at `addr` that faults at the I/O cell. -/
inductive NarrowAccess (s : State) (addr : Word) (n : Nat) (i : Instr) : Prop where
  | load (ext : Word → Word) (r : Reg) (h : exec i s = loadNarrow i.mnemonic i.slots n ext r addr s)
  | store (v : Word) (h : exec i s = storeNarrow i.mnemonic i.slots n addr v s)

section
variable {i : Instr} {s : State} {addr v : Word} {n : Nat} {r : Reg} {a b u2 u3 u4 : Operand}

theorem NarrowAccess.endsInFault (h : NarrowAccess s addr n i) (hadmitted : ¬ Admitted s addr n) :
    EndsInFault i s .invalidMemoryAccess (some addr) := by
  cases h with
  | load ext r h => exact endsInFault_of_faultNow (h.trans (loadNarrow_of_not_admitted hadmitted))
  | store v h => exact endsInFault_of_faultNow (h.trans (storeNarrow_of_not_admitted hadmitted))

theorem exec_lw_of_ne_ioAddr (h : s.value a ≠ ioAddr) : exec (.lw r a u2 u3 u4) s =
    loadStorage (.std .lw) [.reg r, a, u2, u3, u4] 8 id r (s.value a) s := if_neg h

theorem exec_sw_of_ne_ioAddr (h : s.value a ≠ ioAddr) : exec (.sw a b u2 u3 u4) s =
    storeStorage (.std .sw) [a, b, u2, u3, u4] 8 (s.value a) (s.value b) s := if_neg h

theorem exec_lw_of_admitted (h : Admitted s (s.value a) 8) : exec (.lw r a u2 u3 u4) s =
    writeResult (.std .lw) [.reg r, a, u2, u3, u4] r (s.memRead (s.value a) 8) s :=
  (exec_lw_of_ne_ioAddr (ne_ioAddr_of_admitted (by decide) h)).trans (loadStorage_of_admitted h)

theorem exec_sw_of_admitted (h : Admitted s (s.value a) 8) : exec (.sw a b u2 u3 u4) s =
    fallThrough (.std .sw) [a, b, u2, u3, u4] s (s.memWrite (s.value a) 8 (s.value b)) :=
  (exec_sw_of_ne_ioAddr (ne_ioAddr_of_admitted (by decide) h)).trans (storeStorage_of_admitted h)

theorem lw_endsInFault (hio : s.value a ≠ ioAddr) (h : ¬ Admitted s (s.value a) 8) :
    EndsInFault (.lw r a u2 u3 u4) s .invalidMemoryAccess (some (s.value a)) :=
  endsInFault_of_faultNow ((exec_lw_of_ne_ioAddr hio).trans (loadStorage_of_not_admitted h))

theorem sw_endsInFault (hio : s.value a ≠ ioAddr) (h : ¬ Admitted s (s.value a) 8) :
    EndsInFault (.sw a b u2 u3 u4) s .invalidMemoryAccess (some (s.value a)) :=
  endsInFault_of_faultNow ((exec_sw_of_ne_ioAddr hio).trans (storeStorage_of_not_admitted h))

theorem endsInFault_streams {kind : FaultKind} {dataAddr : Option Word} (h : EndsInFault i s kind dataAddr) :
    ∃ t, exec i s = .next t ∧ t.run = .faulted kind ∧ SameStreams s t := by
  obtain ⟨t, hexec, hrun, -, -, -, -, -, -, -, -, hstreams, -⟩ := h
  exact ⟨t, hexec, hrun, hstreams⟩

theorem loadsUnsigned_of_writeResult {w : Word} (h : exec i s = writeResult i.mnemonic i.slots r w s)
    (hw : w.toNat = valueAt s addr n) : LoadsUnsigned i s r addr n := by
  obtain ⟨t, hexec, hresult, hframe⟩ := completes_of_writeResult h
  exact ⟨t, hexec, hresult ▸ hw, hframe⟩

theorem loadsUnsigned_of_loadNarrow (hpos : 0 < n) (hn : n ≤ 8) (hadmitted : Admitted s addr n)
    (h : exec i s = loadNarrow i.mnemonic i.slots n (zext (8 * n)) r addr s) : LoadsUnsigned i s r addr n :=
  loadsUnsigned_of_writeResult (h.trans (loadNarrow_of_admitted hpos hadmitted)) (zext_memRead_toNat hn)

theorem lw_loadsUnsigned (h : Admitted s (s.value a) 8) : LoadsUnsigned (.lw r a u2 u3 u4) s r (s.value a) 8 :=
  loadsUnsigned_of_writeResult (exec_lw_of_admitted h) (memRead_toNat (by decide))

theorem loadsSigned_of_loadNarrow (hpos : 0 < n) (hn : n ≤ 8) (hadmitted : Admitted s addr n)
    (h : exec i s = loadNarrow i.mnemonic i.slots n (sext (8 * n)) r addr s) : LoadsSigned i s r addr n := by
  obtain ⟨t, hexec, hresult, hframe⟩ := completes_of_writeResult (h.trans (loadNarrow_of_admitted hpos hadmitted))
  exact ⟨t, hexec, hresult ▸ sext_memRead_toInt hpos hn, hframe⟩

/-! ## The bytes a store leaves -/

theorem memWrite_readByte_in {k : Nat} (hk : k < n) :
    ((s.memWrite addr n v).readByte (addr.toNat + k)).toNat = v.toNat / 256 ^ k % 256 := by
  have hin : addr.toNat ≤ addr.toNat + k ∧ addr.toNat + k < addr.toNat + n := by omega
  rw [State.memWrite_readByte, if_pos hin, Nat.add_sub_cancel_left, BitVec.toNat_ofNat]

theorem memWrite_readByte_out {x : Nat} (hx : ¬ (addr.toNat ≤ x ∧ x < addr.toNat + n)) :
    (s.memWrite addr n v).readByte x = s.readByte x := by
  rw [State.memWrite_readByte, if_neg hx]

theorem stores_of_fallThrough (h : exec i s = fallThrough i.mnemonic i.slots s (s.memWrite addr n v)) :
    Stores i s addr n v := by
  refine ⟨_, h, ?inside, ?outside, ?goesOn, ?regs, rfl, ⟨rfl, rfl⟩, ⟨rfl, rfl⟩, ⟨rfl, rfl, rfl⟩, rfl⟩
  case inside => intro k hk; rw [State.commit_readByte, memWrite_readByte_in hk]
  case outside => intro x hx; rw [State.commit_readByte, memWrite_readByte_out hx]
  case goesOn => exact State.commit_pc ..
  case regs => intro x _; rw [State.commit_reg, State.memWrite_reg]

theorem stores_of_storeNarrow (hpos : 0 < n) (hadmitted : Admitted s addr n)
    (h : exec i s = storeNarrow i.mnemonic i.slots n addr v s) : Stores i s addr n v :=
  stores_of_fallThrough (h.trans (storeNarrow_of_admitted hpos hadmitted))

theorem sw_stores (h : Admitted s (s.value a) 8) : Stores (.sw a b u2 u3 u4) s (s.value a) 8 (s.value b) :=
  stores_of_fallThrough (exec_sw_of_admitted h)

/-- R72: a number is the sum of its base-256 digits. -/
theorem sum_digits (x n : Nat) : ∑ k ∈ Finset.range n, x / 256 ^ k % 256 * 256 ^ k = x % 256 ^ n := by
  induction n with
  | zero => simp [Nat.mod_one]
  | succ n ih => rw [Finset.sum_range_succ, ih, Nat.mod_pow_succ, Nat.mul_comm (256 ^ n)]

theorem valueAt_of_bytes {t : State} (h : ∀ k < n, (t.readByte (addr.toNat + k)).toNat = v.toNat / 256 ^ k % 256) :
    valueAt t addr n = v.toNat % 256 ^ n := by
  rw [valueAt, ← sum_digits]
  exact Finset.sum_congr rfl fun k hk => by rw [h k (Finset.mem_range.mp hk)]

/-! ## The word load at the I/O cell -/

/-- R80, R132: the load takes the host's answer and commits. -/
theorem exec_lw_ioAddr (h : s.value a = ioAddr) : exec (.lw r a u2 u3 u4) s =
    .next ((s.consumeInput.setReg r (answerWord s.nextAnswer)).commit (.std .lw) [.reg r, a, u2, u3, u4]
      (s.pcAfter [.reg r, a, u2, u3, u4]) s) := if_pos h

theorem nextAnswer_of_listed {answer : Option Byte} (h : s.answers[s.inpos]? = some answer) :
    s.nextAnswer = answer := by
  rw [State.nextAnswer, h, Option.getD_some]

theorem nextAnswer_of_open (h : s.answers[s.inpos]? = none) : s.nextAnswer = Config.input s.inpos := by
  rw [State.nextAnswer, h, Option.getD_none]

theorem answerWord_byte_toNat (byte : Byte) : (answerWord (some byte)).toNat = byte.toNat :=
  BitVec.toNat_setWidth_of_le (by decide)

end

end Sys2Proof.Machine

/-! The statements about loads, stores and the I/O cell. -/

namespace Sys2Proof.Proofs

open Sys2Proof.Machine Sys2Proof.Spec

/-- Settles O27: an admitted load writes the number in memory, extended from its width. -/
theorem admittedLoadsWriteTheExtendedBytes : Obligations.AdmittedLoadsWriteTheExtendedBytes := by
  unfold Obligations.AdmittedLoadsWriteTheExtendedBytes
  intro r a u2 u3 u4 s
  refine ⟨?lb, ?lbu, ?ls, ?lsu, ?li, ?liu, lw_loadsUnsigned⟩
  case lb => exact fun h => loadsSigned_of_loadNarrow (by decide) (by decide) h rfl
  case lbu => exact fun h => loadsUnsigned_of_loadNarrow (by decide) (by decide) h rfl
  case ls => exact fun h => loadsSigned_of_loadNarrow (by decide) (by decide) h rfl
  case lsu => exact fun h => loadsUnsigned_of_loadNarrow (by decide) (by decide) h rfl
  case li => exact fun h => loadsSigned_of_loadNarrow (by decide) (by decide) h rfl
  case liu => exact fun h => loadsUnsigned_of_loadNarrow (by decide) (by decide) h rfl

/-- Settles O28: an admitted store writes the low bytes of its source at its address. -/
theorem admittedStoresWriteExactlyTheirBytes : Obligations.AdmittedStoresWriteExactlyTheirBytes := by
  unfold Obligations.AdmittedStoresWriteExactlyTheirBytes
  intro a b u2 u3 u4 s
  refine ⟨?sb, ?ss, ?si, sw_stores⟩
  case sb => exact fun h => stores_of_storeNarrow (by decide) h rfl
  case ss => exact fun h => stores_of_storeNarrow (by decide) h rfl
  case si => exact fun h => stores_of_storeNarrow (by decide) h rfl

/-- Settles O29: admission is tested before anything is read or written. -/
theorem accessesNotAdmittedFault : Obligations.AccessesNotAdmittedFault := by
  unfold Obligations.AccessesNotAdmittedFault
  intro r a b u2 u3 u4 s
  refine ⟨fun h => ⟨?lb, ?lbu, ?sb⟩, fun h => ⟨?ls, ?lsu, ?ss⟩, fun h => ⟨?li, ?liu, ?si⟩, fun h hio => ⟨?lw, ?sw⟩⟩
  case lb | lbu | ls | lsu | li | liu => exact NarrowAccess.endsInFault (.load _ _ rfl) h
  case sb | ss | si => exact NarrowAccess.endsInFault (.store _ rfl) h
  case lw => exact lw_endsInFault hio h
  case sw => exact sw_endsInFault hio h

/-- Settles O30: at the cell only `lw` and `sw` have a meaning of their own, and no access that covers it is
admitted. -/
theorem theIoCellAcceptsOnlyLwAndSw : Obligations.TheIoCellAcceptsOnlyLwAndSw := by
  unfold Obligations.TheIoCellAcceptsOnlyLwAndSw
  intro r a b u2 u3 u4 s
  have haddr := (s.value a).isLt
  have hnarrow4 : ∀ i ∈ [Instr.li r a u2 u3 u4, .liu r a u2 u3 u4, .si a b u2 u3 u4],
      NarrowAccess s (s.value a) 4 i := by
    simp only [List.forall_mem_cons]
    exact ⟨.load _ _ rfl, .load _ _ rfl, .store _ rfl, List.forall_mem_nil _⟩
  have hnarrow2 : ∀ i ∈ [Instr.ls r a u2 u3 u4, .lsu r a u2 u3 u4, .ss a b u2 u3 u4],
      NarrowAccess s (s.value a) 2 i := by
    simp only [List.forall_mem_cons]
    exact ⟨.load _ _ rfl, .load _ _ rfl, .store _ rfl, List.forall_mem_nil _⟩
  refine ⟨fun hio => ⟨?lw, ?sw, ?others⟩, fun hio => ⟨?wordBelow, ?fourBelow, ?twoBelow⟩⟩
  case lw => exact ⟨_, exec_lw_ioAddr hio, ⟨rfl, rfl⟩, rfl⟩
  case sw => exact ⟨_, exec_sw_ioAddr hio, ⟨rfl, rfl⟩, rfl⟩
  case others =>
    have hnarrow : ∀ i ∈ [Instr.lb r a u2 u3 u4, .lbu r a u2 u3 u4, .ls r a u2 u3 u4, .lsu r a u2 u3 u4,
        .li r a u2 u3 u4, .liu r a u2 u3 u4, .sb a b u2 u3 u4, .ss a b u2 u3 u4, .si a b u2 u3 u4],
        ∃ n > 0, NarrowAccess s (s.value a) n i := by
      simp only [List.forall_mem_cons]
      exact ⟨⟨1, by decide, .load _ _ rfl⟩, ⟨1, by decide, .load _ _ rfl⟩, ⟨2, by decide, .load _ _ rfl⟩,
        ⟨2, by decide, .load _ _ rfl⟩, ⟨4, by decide, .load _ _ rfl⟩, ⟨4, by decide, .load _ _ rfl⟩,
        ⟨1, by decide, .store _ rfl⟩, ⟨2, by decide, .store _ rfl⟩, ⟨4, by decide, .store _ rfl⟩, List.forall_mem_nil _⟩
    intro i hi
    obtain ⟨n, hn, haccess⟩ := hnarrow i hi
    have hcell : (s.value a).toNat = 0xFFFFFFFFFFFFFFFF := congrArg BitVec.toNat hio
    exact endsInFault_streams (haccess.endsInFault (not_admitted_of_covers_ioAddr (by omega)))
  case wordBelow =>
    simp only [List.forall_mem_cons]
    refine ⟨fun h => ?_, fun h => ?_, List.forall_mem_nil _⟩
    · exact endsInFault_streams (lw_endsInFault hio (not_admitted_of_covers_ioAddr h))
    · exact endsInFault_streams (sw_endsInFault hio (not_admitted_of_covers_ioAddr h))
  case fourBelow =>
    intro i hi h
    exact endsInFault_streams ((hnarrow4 i hi).endsInFault (not_admitted_of_covers_ioAddr h))
  case twoBelow =>
    intro i hi h
    exact endsInFault_streams ((hnarrow2 i hi).endsInFault (not_admitted_of_covers_ioAddr h))

/-- Settles O31: the load writes the word of the host's next answer, whichever of the four it is. -/
theorem inputLoadsTakeTheNextAnswer : Obligations.InputLoadsTakeTheNextAnswer := by
  unfold Obligations.InputLoadsTakeTheNextAnswer
  intro r a u2 u3 u4 s hio
  refine ⟨_, exec_lw_ioAddr hio, ?_⟩
  rw [State.commit_reg, State.setReg_reg_same]
  refine ⟨?byte, ?endOfStream, fun hopen => ⟨?openByte, ?openEnd⟩, rfl, rfl, ?goesOn, ?regs, ?memory, rfl,
    ⟨rfl, rfl⟩, ⟨rfl, rfl, rfl⟩, rfl⟩
  case byte => intro byte h; rw [nextAnswer_of_listed h, answerWord_byte_toNat]
  case endOfStream => intro h; rw [nextAnswer_of_listed h]; rfl
  case openByte => intro byte h; rw [nextAnswer_of_open hopen, h, answerWord_byte_toNat]
  case openEnd => intro h; rw [nextAnswer_of_open hopen, h]; rfl
  case goesOn => exact State.commit_pc ..
  case regs =>
    intro x hx
    rw [State.commit_reg, State.setReg_reg_other _ _ (List.ne_of_not_mem_cons hx), State.consumeInput_reg]
  case memory => intro x; rw [State.commit_readByte, State.setReg_readByte, State.consumeInput_readByte]

/-- Settles O33: the store leaves the digits of its source in memory, on storage that stays admitted. -/
theorem loadsSeeTheBytesOfAnEarlierStore : Obligations.LoadsSeeTheBytesOfAnEarlierStore := by
  unfold Obligations.LoadsSeeTheBytesOfAnEarlierStore
  intro a b u2 u3 u4 s t hadmitted hexec r v2 v3 v4 w
  obtain ⟨t', hexec', hbytes, -, -, -, -, -, -, ⟨-, hprovisioned, -⟩, -⟩ := sw_stores hadmitted
  obtain rfl := Host.Outcome.next.inj (hexec.symm.trans hexec')
  have hkept : Admitted t (s.value a) 8 := admitted_congr hadmitted hprovisioned
  refine ⟨?word, ?byte⟩
  case word =>
    obtain ⟨t', hload, hresult, -⟩ := lw_loadsUnsigned (r := r) (a := .imm w (s.value a)) (u2 := v2) (u3 := v3)
      (u4 := v4) hkept
    refine ⟨t', hload, BitVec.eq_of_toNat_eq ?_⟩
    rw [hresult, State.value_imm, valueAt_of_bytes hbytes]
    exact Nat.mod_eq_of_lt (s.value b).isLt
  case byte =>
    intro k hk
    obtain ⟨t', hload, hresult, -⟩ := loadsUnsigned_of_loadNarrow
      (i := .lbu r (.imm w (s.value a + BitVec.ofNat 64 k)) v2 v3 v4) (r := r) (by decide) (by decide)
      (admitted_byte hkept hk) rfl
    refine ⟨t', hload, ?_⟩
    rw [hresult, valueAt, Finset.sum_range_one, toNat_add_of_admitted hkept hk, Nat.add_zero, pow_zero, Nat.mul_one,
      hbytes k hk]

end Sys2Proof.Proofs

/-! Calls and returns, `halt` and `rand` (45_control.md). -/

namespace Sys2Proof.Machine

open Sys2Proof.Spec

section
variable {s : State} {frame : Frame} {rest : List Frame} {mask : BitVec 25}

theorem exec_ret_of_cons (h : s.callStack = frame :: rest) :
    exec (.ret mask) s = .next ((s.popFrame mask frame rest).commit .ret [] frame.retAddr s) := by
  simp only [exec, execRet, h, jumpTo]

theorem exec_ret_of_nil (h : s.callStack = []) : exec (.ret mask) s = faultNow s .invalidMemoryAccess none := by
  simp only [exec, execRet, h]

theorem exec_call_next {f u1 u2 u3 u4 : Operand} {t : State} :
    exec (.call f u1 u2 u3 u4) s = .next t ↔ t = (s.pushFrame (s.pcAfter [f, u1, u2, u3, u4])).commit (.std .call)
      [f, u1, u2, u3, u4] (s.value f) s := jumpTo_next

theorem ne_regZ_iff (x : Reg) : x ≠ 25 ↔ x.val < 25 := by
  have hx := x.isLt
  rw [Ne, Fin.ext_iff]
  change ¬ x.val = 25 ↔ x.val < 25
  omega

/-- R322: a register of `a` .. `y` that the mask selects is restored. -/
theorem popFrame_reg_lt {j : Nat} (h : j < 25) : (s.popFrame mask frame rest).reg ⟨j, by omega⟩ =
    if mask.getLsbD j = true then frame.saved[j] else s.reg ⟨j, by omega⟩ := by
  rw [State.popFrame_reg, dif_pos h]

theorem popFrame_regZ : (s.popFrame mask frame rest).reg 25 = s.reg 25 := by
  rw [State.popFrame_reg, dif_neg (by decide)]

/-- R322: a return changes registers, the call stack and `pc` only. -/
theorem commit_popFrame_frame (s : State) (mask : BitVec 25) (frame : Frame) (rest : List Frame) (m : Mnemonic)
    (slots : List Operand) (target : Word) :
    let t := (s.popFrame mask frame rest).commit m slots target s
    SameMemory s t ∧ SameStreams s t ∧ SameRun s t ∧ SameHost s t ∧ SameDraws s t := by
  simp [SameMemory, SameStreams, SameRun, SameHost, SameDraws]

end

end Sys2Proof.Machine

namespace Sys2Proof.Proofs

open Sys2Proof.Machine Sys2Proof.Spec

/-- Settles O34: the call is one push and its commit. -/
theorem callPushesTheSnapshotAndJumps : Obligations.CallPushesTheSnapshotAndJumps := by
  unfold Obligations.CallPushesTheSnapshotAndJumps
  intro f u1 u2 u3 u4 s
  refine ⟨_, _, exec_call_next.mpr rfl, rfl, fun j h => s.snapshot_get j h, rfl, rfl, ?regs, ?memory, ⟨rfl, rfl⟩,
    ⟨rfl, rfl⟩, ⟨rfl, rfl, rfl⟩, rfl⟩
  case regs => intro x _; rw [State.commit_reg, State.pushFrame_reg]
  case memory => intro x; rw [State.commit_readByte, State.pushFrame_readByte]

/-- Settles O35: the return is one pop, which restores what the mask selects, and its commit. -/
theorem retRestoresTheMaskedRegisters : Obligations.RetRestoresTheMaskedRegisters := by
  unfold Obligations.RetRestoresTheMaskedRegisters
  intro mask s frame rest hstack
  refine ⟨_, exec_ret_of_cons hstack, ?restored, ?z, rfl, ?stack, commit_popFrame_frame ..⟩
  case restored => intro j h; rw [State.commit_reg, popFrame_reg_lt h]
  case z => rw [State.commit_reg, popFrame_regZ]
  case stack => rw [State.commit_callStack, State.popFrame_callStack]

/-- Settles O36: there is no frame to pop, and the fault has no data address. -/
theorem retOnAnEmptyStackFaults : Obligations.RetOnAnEmptyStackFaults := by
  unfold Obligations.RetOnAnEmptyStackFaults
  intro mask s hstack
  exact endsInFault_of_faultNow (exec_ret_of_nil hstack)

/-- Settles O37: the frame that the return pops is the one the call pushed, with the caller's registers in it. -/
theorem retUndoesCallButForReturnedRegisters : Obligations.RetUndoesCallButForReturnedRegisters := by
  unfold Obligations.RetUndoesCallButForReturnedRegisters
  intro f u1 u2 u3 u4 mask s t callee hcall hstack
  obtain rfl := exec_call_next.mp hcall
  rw [State.commit_callStack, State.pushFrame_callStack] at hstack
  refine ⟨_, exec_ret_of_cons hstack, rfl, ?stack, fun x => ?reg⟩
  case stack => rw [State.commit_callStack, State.popFrame_callStack]
  case reg =>
    rw [State.commit_reg]
    by_cases hx : x.val < 25
    · rw [popFrame_reg_lt hx, State.snapshot_get]
      simp only [ne_regZ_iff, hx, true_and]
    · obtain rfl : x = 25 := not_not.mp (mt (ne_regZ_iff x).mp hx)
      rw [popFrame_regZ, if_neg fun h => h.1 rfl]

/-- Settles O39: the halt is one commit at the cost of 9, with `pc` as its own target. -/
theorem haltStopsWithItsCode : Obligations.HaltStopsWithItsCode := by
  unfold Obligations.HaltStopsWithItsCode
  intro a u1 u2 u3 u4 s
  refine ⟨_, jumpTo_next.mpr rfl, rfl, rfl, ?cost, rfl, rfl, fun _ _ => rfl, fun _ => rfl, rfl, ⟨rfl, rfl⟩,
    ⟨rfl, rfl, rfl⟩, rfl⟩
  case cost => exact congrArg (s.cycles + ·) (if_pos rfl)

/-- Settles O40: the word written is the draw of the state before, which is then used up. -/
theorem randWritesAFreshFreeWord : Obligations.RandWritesAFreshFreeWord := by
  unfold Obligations.RandWritesAFreshFreeWord
  intro r u1 u2 u3 u4 s
  refine ⟨_, fallThrough_next.mpr rfl, ?word, rfl, ?goesOn, ?regs, ?memory, rfl, ⟨rfl, rfl⟩, ⟨rfl, rfl⟩,
    ⟨rfl, rfl, rfl⟩⟩
  case word => rw [State.commit_reg, State.setReg_reg_same, State.nextRand]
  case goesOn => exact State.commit_pc ..
  case regs =>
    intro x hx
    rw [State.commit_reg, State.setReg_reg_other _ _ (List.ne_of_not_mem_cons hx), State.drawRand_reg]
  case memory => intro x; rw [State.commit_readByte, State.setReg_readByte, State.drawRand_readByte]

end Sys2Proof.Proofs

/-! What each instruction does, said once: `exec_performs` gives every instruction's action as data, with what its
mnemonic and slots say of it, and shows that the action depends on nothing but the operands' values and the fields an
instruction reads. The whole-machine statements are case analyses of that action. -/

namespace Sys2Proof.Machine

open Sys2Proof.Spec

/-! ## Actions -/

/-- An instruction's own writes as data. -/
inductive Write where
  | nothing
  | result (r : Reg) (v : Word)
  | results (r q : Reg) (v w : Word)
  | store (addr : Word) (n : Nat) (v : Word)
  | input (r : Reg) (v : Word)
  | output (v : Word)
  | push
  | pop (mask : BitVec 25) (frame : Frame) (rest : List Frame)
  | halt (code : Word)
  | draw (r : Reg) (v : Word)

/-- The state after an instruction's own writes; a pushed frame returns to `retAddr`. -/
def Write.apply (w : Write) (retAddr : Word) (s : State) : State :=
  match w with
  | .nothing => s
  | .result r v => s.setReg r v
  | .results r q v w => (s.setReg r v).setReg q w
  | .store addr n v => s.memWrite addr n v
  | .input r v => s.consumeInput.setReg r v
  | .output v => s.emit v
  | .push => s.pushFrame retAddr
  | .pop mask frame rest => s.popFrame mask frame rest
  | .halt code => { s with run := .halted code }
  | .draw r v => s.drawRand.setReg r v

/-- What an instruction does: raise a fault, or write and commit, going on (`none`) or to a target. -/
inductive Action where
  | fault (kind : FaultKind) (addr : Option Word)
  | commit (w : Write) (target : Option Word)

/-- The outcome of an action for an instruction of this mnemonic with these slots. -/
def Action.run (act : Action) (m : Mnemonic) (slots : List Operand) (s : State) : Result :=
  match act with
  | .fault kind addr => faultNow s kind addr
  | .commit w none => fallThrough m slots s (w.apply (s.pcAfter slots) s)
  | .commit w (some target) => jumpTo m slots target s (w.apply (s.pcAfter slots) s)

theorem Action.run_fault_next {kind : FaultKind} {addr : Option Word} {m : Mnemonic} {slots : List Operand}
    {s t : State} : (Action.fault kind addr).run m slots s = .next t ↔ t = s.raise kind addr := faultNow_next

theorem Action.run_commit_next {w : Write} {target : Option Word} {m : Mnemonic} {slots : List Operand} {s t : State} :
    (Action.commit w target).run m slots s = .next t ↔
      t = (w.apply (s.pcAfter slots) s).commit m slots (target.getD (s.pcAfter slots)) s := by
  cases target with
  | none => exact fallThrough_next
  | some target => exact jumpTo_next

/-! ## What an instruction's mnemonic and slots say of its action -/

/-- R117: the destination slots of an instruction. -/
def destinations (i : Instr) : List Operand :=
  match i.mnemonic with
  | .std op => i.slots.take (destCount op)
  | .ret => []

/-- R35(b), (c): the instruction leaves the line of instructions. -/
def Leaves (i : Instr) (s : State) : Prop :=
  i.mnemonic = .ret ∨ ∃ op, i.mnemonic = .std op ∧ JumpsOrHalts i op s

/-- R282 .. R288: the loads and their widths in bytes. -/
def loadWidths : List (Mnemonic × Nat) :=
  [(.std .lb, 1), (.std .lbu, 1), (.std .ls, 2), (.std .lsu, 2), (.std .li, 4), (.std .liu, 4), (.std .lw, 8)]

/-- R289 .. R292: the stores and their widths in bytes. -/
def storeWidths : List (Mnemonic × Nat) := [(.std .sb, 1), (.std .ss, 2), (.std .si, 4), (.std .sw, 8)]

/-- Why an instruction faults. -/
inductive FaultCause (s : State) (i : Instr) : FaultKind → Option Word → Prop where
  | zeroDivisor (b : Operand) (hm : i.mnemonic ∈ [.std .div, .std .divu]) (hslot : i.slots[3]? = some b)
      (hzero : s.value b = 0) : FaultCause s i .divisionByZero none
  | emptyStack (hm : i.mnemonic = .ret) (hstack : s.callStack = []) : FaultCause s i .invalidMemoryAccess none
  | load (a : Operand) (n : Nat) (hslot : i.slots[1]? = some a) (hm : (i.mnemonic, n) ∈ loadWidths)
      (h : ¬ Admitted s (s.value a) n) : FaultCause s i .invalidMemoryAccess (some (s.value a))
  | store (a : Operand) (n : Nat) (hslot : i.slots[0]? = some a) (hm : (i.mnemonic, n) ∈ storeWidths)
      (h : ¬ Admitted s (s.value a) n) : FaultCause s i .invalidMemoryAccess (some (s.value a))

/-- Which instructions write what. -/
inductive OwnWrite (s : State) (i : Instr) : Write → Prop where
  | nothing (hm : i.mnemonic ∈ [.std .jz, .std .jnz]) : OwnWrite s i .nothing
  | result (r : Reg) (v : Word) (hd : destinations i = [.reg r]) : OwnWrite s i (.result r v)
  | results (r q : Reg) (v w : Word) (hd : destinations i = [.reg r, .reg q]) : OwnWrite s i (.results r q v w)
  | store (addr : Word) (n : Nat) (v : Word) (hm : (i.mnemonic, n) ∈ storeWidths) (h : Admitted s addr n) :
      OwnWrite s i (.store addr n v)
  | input (a : Operand) (r : Reg) (v : Word) (hm : i.mnemonic = .std .lw) (hd : destinations i = [.reg r])
      (hslot : i.slots[1]? = some a) (hio : s.value a = ioAddr) : OwnWrite s i (.input r v)
  | output (a b : Operand) (hm : i.mnemonic = .std .sw) (ha : i.slots[0]? = some a) (hb : i.slots[1]? = some b)
      (hio : s.value a = ioAddr) : OwnWrite s i (.output (s.value b))
  | push (hm : i.mnemonic = .std .call) : OwnWrite s i .push
  | pop (mask : BitVec 25) (frame : Frame) (rest : List Frame) (hm : i.mnemonic = .ret)
      (hstack : s.callStack = frame :: rest) : OwnWrite s i (.pop mask frame rest)
  | halt (code : Word) (hm : i.mnemonic = .std .halt) : OwnWrite s i (.halt code)
  | draw (r : Reg) (v : Word) (hd : destinations i = [.reg r]) : OwnWrite s i (.draw r v)

/-- Which instructions do what. -/
inductive Acts (s : State) (i : Instr) : Action → Prop where
  | fault (kind : FaultKind) (addr : Option Word) (h : FaultCause s i kind addr) : Acts s i (.fault kind addr)
  | commit (w : Write) (target : Option Word) (h : OwnWrite s i w) (htarget : target.isSome = true ↔ Leaves i s) :
      Acts s i (.commit w target)

theorem OwnWrite.writes {s : State} {i : Instr} {w : Write} (h : OwnWrite s i w) (retAddr : Word) :
    Writes s (w.apply retAddr s) := by
  cases h with
  | nothing => exact .nothing
  | result r v => exact .oneRegister r v
  | results r q v w => exact .twoRegisters r q v w
  | store addr n v _ h => exact .storage addr n v (admitted_iff_Admitted.mpr h)
  | input a r v => exact .input r v
  | output a b => exact .output _
  | push => exact .push retAddr
  | pop mask frame rest _ hstack => exact .pop mask frame rest hstack
  | halt code => exact .halt code
  | draw r v => exact .draw r v

/-! ## What an instruction depends on -/

/-- The fields an instruction reads are the same. -/
structure SameReads (s s' : State) : Prop where
  regs : s'.regs = s.regs
  pc : s'.pc = s.pc
  callStack : s'.callStack = s.callStack
  inpos : s'.inpos = s.inpos
  mem : s'.mem = s.mem
  provisioned : s'.provisioned = s.provisioned
  answers : s'.answers = s.answers
  randDraws : s'.randDraws = s.randDraws

section
variable {s s' : State} (h : SameReads s s')
include h

theorem SameReads.value (o : Operand) : s'.value o = s.value o := by
  cases o with
  | imm w v => rfl
  | reg r => rw [State.value_reg, State.reg, h.regs, State.value_reg, State.reg]

theorem SameReads.admitted {addr : Word} {n : Nat} : Admitted s' addr n ↔ Admitted s addr n := by
  rw [Admitted, h.provisioned, Admitted]

theorem SameReads.memRead (addr : Word) (n : Nat) : s'.memRead addr n = s.memRead addr n := by
  have hbytes : ∀ a, s'.readBytes a n = s.readBytes a n := by
    induction n with
    | zero => intro a; rfl
    | succ n ih => intro a; rw [State.readBytes, ih, State.readByte, h.mem, State.readBytes, State.readByte]
  rw [State.memRead, hbytes, State.memRead]

theorem SameReads.nextAnswer : s'.nextAnswer = s.nextAnswer := by
  rw [State.nextAnswer, h.answers, h.inpos, State.nextAnswer]

theorem SameReads.nextRand : s'.nextRand = s.nextRand := by
  rw [State.nextRand, h.randDraws, State.nextRand]

end

theorem SameReads.refl (s : State) : SameReads s s := ⟨rfl, rfl, rfl, rfl, rfl, rfl, rfl, rfl⟩

/-- R117, R131: two instructions of one mnemonic with the same destinations and the same source values. -/
structure SameOperands (s : State) (op : StdOp) (i j : Instr) : Prop where
  mnemonic : j.mnemonic = .std op
  dests : j.slots.take (destCount op) = i.slots.take (destCount op)
  sources : ((j.slots.drop (destCount op)).take (sourceCount op)).map s.value =
    ((i.slots.drop (destCount op)).take (sourceCount op)).map s.value

section
variable {s : State} {op : StdOp} {i j : Instr} (h : SameOperands s op i j)
include h

/-- The slots of the second instruction, from which it is built. -/
theorem SameOperands.exists_slots {o0 o1 o2 o3 o4 : Operand} (hi : i.slots = [o0, o1, o2, o3, o4]) :
    ∃ p0 p1 p2 p3 p4, buildInstr op p0 p1 p2 p3 p4 = .ok j ∧
      [p0, p1, p2, p3, p4].take (destCount op) = [o0, o1, o2, o3, o4].take (destCount op) ∧
      (([p0, p1, p2, p3, p4].drop (destCount op)).take (sourceCount op)).map s.value =
        (([o0, o1, o2, o3, o4].drop (destCount op)).take (sourceCount op)).map s.value := by
  obtain ⟨hm, hdests, hsources⟩ := h
  obtain ⟨p0, p1, p2, p3, p4, hslots⟩ := slots_five j op hm
  have hbuild := buildFrom_slots j op hm
  rw [hslots] at hbuild hdests hsources
  rw [hi] at hdests hsources
  exact ⟨p0, p1, p2, p3, p4, hbuild, hdests, hsources⟩

variable {r q : Reg} {a b u1 u2 u3 u4 : Operand}

theorem SameOperands.oneDest_twoSources (hi : i.slots = [.reg r, a, b, u3, u4]) (hd : destCount op = 1)
    (hs : sourceCount op = 2) : ∃ a' b' u3' u4', buildInstr op (.reg r) a' b' u3' u4' = .ok j ∧
      s.value a' = s.value a ∧ s.value b' = s.value b := by
  obtain ⟨p0, a', b', u3', u4', hbuild, hdests, hsources⟩ := h.exists_slots hi
  obtain rfl : p0 = .reg r := by simpa [hd] using hdests
  exact ⟨a', b', u3', u4', hbuild, by simpa [hd, hs] using hsources⟩

theorem SameOperands.oneDest_oneSource (hi : i.slots = [.reg r, a, u2, u3, u4]) (hd : destCount op = 1)
    (hs : sourceCount op = 1) : ∃ a' u2' u3' u4', buildInstr op (.reg r) a' u2' u3' u4' = .ok j ∧
      s.value a' = s.value a := by
  obtain ⟨p0, a', u2', u3', u4', hbuild, hdests, hsources⟩ := h.exists_slots hi
  obtain rfl : p0 = .reg r := by simpa [hd] using hdests
  exact ⟨a', u2', u3', u4', hbuild, by simpa [hd, hs] using hsources⟩

theorem SameOperands.oneDest (hi : i.slots = [.reg r, u1, u2, u3, u4]) (hd : destCount op = 1) :
    ∃ u1' u2' u3' u4', buildInstr op (.reg r) u1' u2' u3' u4' = .ok j := by
  obtain ⟨p0, u1', u2', u3', u4', hbuild, hdests, -⟩ := h.exists_slots hi
  obtain rfl : p0 = .reg r := by simpa [hd] using hdests
  exact ⟨u1', u2', u3', u4', hbuild⟩

theorem SameOperands.twoDests_twoSources (hi : i.slots = [.reg r, .reg q, a, b, u4]) (hd : destCount op = 2)
    (hs : sourceCount op = 2) : ∃ a' b' u4', buildInstr op (.reg r) (.reg q) a' b' u4' = .ok j ∧
      s.value a' = s.value a ∧ s.value b' = s.value b := by
  obtain ⟨p0, p1, a', b', u4', hbuild, hdests, hsources⟩ := h.exists_slots hi
  obtain ⟨rfl, rfl⟩ : p0 = .reg r ∧ p1 = .reg q := by simpa [hd] using hdests
  exact ⟨a', b', u4', hbuild, by simpa [hd, hs] using hsources⟩

theorem SameOperands.twoSources (hi : i.slots = [a, b, u2, u3, u4]) (hd : destCount op = 0)
    (hs : sourceCount op = 2) : ∃ a' b' u2' u3' u4', buildInstr op a' b' u2' u3' u4' = .ok j ∧
      s.value a' = s.value a ∧ s.value b' = s.value b := by
  obtain ⟨a', b', u2', u3', u4', hbuild, -, hsources⟩ := h.exists_slots hi
  exact ⟨a', b', u2', u3', u4', hbuild, by simpa [hd, hs] using hsources⟩

theorem SameOperands.oneSource (hi : i.slots = [a, u1, u2, u3, u4]) (hd : destCount op = 0)
    (hs : sourceCount op = 1) : ∃ a' u1' u2' u3' u4', buildInstr op a' u1' u2' u3' u4' = .ok j ∧
      s.value a' = s.value a := by
  obtain ⟨a', u1', u2', u3', u4', hbuild, -, hsources⟩ := h.exists_slots hi
  exact ⟨a', u1', u2', u3', u4', hbuild, by simpa [hd, hs] using hsources⟩

end

/-- The instruction itself, or one of format STD with the same operands. -/
inductive Similar (s : State) (i j : Instr) : Prop where
  | self (h : j = i)
  | operands (op : StdOp) (hi : i.mnemonic = .std op) (h : SameOperands s op i j)

theorem Similar.sameOperands {s : State} {op : StdOp} {i j : Instr} (h : Similar s i j) (hi : i.mnemonic = .std op) :
    SameOperands s op i j := by
  cases h with
  | self h => subst h; exact ⟨hi, rfl, rfl⟩
  | operands op' hi' h =>
    obtain rfl : op' = op := Mnemonic.std.inj (hi'.symm.trans hi)
    exact h

/-! ## Narrow accesses -/

theorem loadWidths_pos (p : Mnemonic × Nat) (h : p ∈ loadWidths) : 0 < p.2 := by
  revert p
  decide

theorem storeWidths_pos (p : Mnemonic × Nat) (h : p ∈ storeWidths) : 0 < p.2 := by
  revert p
  decide

/-- R79: a narrow load faults at the I/O cell as it would at any address that is not storage. -/
theorem loadNarrow_eq_loadStorage {m : Mnemonic} {slots : List Operand} {n : Nat} {ext : Word → Word} {r : Reg}
    {addr : Word} {s : State} (hn : 0 < n) :
    loadNarrow m slots n ext r addr s = loadStorage m slots n ext r addr s := by
  by_cases h : Admitted s addr n
  · rw [loadNarrow_of_admitted hn h, loadStorage_of_admitted h]
  · rw [loadNarrow_of_not_admitted h, loadStorage_of_not_admitted h]

theorem storeNarrow_eq_storeStorage {m : Mnemonic} {slots : List Operand} {n : Nat} {addr v : Word} {s : State}
    (hn : 0 < n) : storeNarrow m slots n addr v s = storeStorage m slots n addr v s := by
  by_cases h : Admitted s addr n
  · rw [storeNarrow_of_admitted hn h, storeStorage_of_admitted h]
  · rw [storeNarrow_of_not_admitted h, storeStorage_of_not_admitted h]

/-! ## Every instruction performs an action -/

/-- The instruction performs an action of its kind, and so does every similar one in every state that reads the same. -/
def Performs (s : State) (i : Instr) : Prop :=
  ∃ act, Acts s i act ∧
    ∀ j s', SameReads s s' → Similar s i j → exec j s' = act.run j.mnemonic j.slots s'

theorem not_leaves {i : Instr} (s : State) (h : i.mnemonic ∉ controlMnemonics) : ¬ Leaves i s := by
  rintro (hret | ⟨op, hop, rfl | rfl | ⟨tested, -, ⟨rfl, -⟩ | ⟨rfl, -⟩⟩⟩)
  · exact h (hret ▸ by decide)
  all_goals exact h (hop ▸ by decide)

section
variable {s : State} {i : Instr} {kind : FaultKind} {addr : Option Word} {w : Write} {r q : Reg} {v : Word}
  {a b : Operand} {n : Nat} {ext : Word → Word}

theorem faultNow_performs (h : FaultCause s i kind addr)
    (hcongr : ∀ j s', SameReads s s' → Similar s i j → exec j s' = faultNow s' kind addr) : Performs s i :=
  ⟨.fault kind addr, .fault kind addr h, hcongr⟩

theorem fallThrough_performs (h : OwnWrite s i w) (hline : ¬ Leaves i s)
    (hcongr : ∀ j s', SameReads s s' → Similar s i j →
      exec j s' = fallThrough j.mnemonic j.slots s' (w.apply (s'.pcAfter j.slots) s')) : Performs s i :=
  ⟨.commit w none, .commit w none h (iff_of_false Bool.false_ne_true hline), hcongr⟩

theorem jumpTo_performs {target : Word} (h : OwnWrite s i w) (hleaves : Leaves i s)
    (hcongr : ∀ j s', SameReads s s' → Similar s i j →
      exec j s' = jumpTo j.mnemonic j.slots target s' (w.apply (s'.pcAfter j.slots) s')) : Performs s i :=
  ⟨.commit w (some target), .commit w (some target) h (iff_of_true rfl hleaves), hcongr⟩

/-! In the next lemmas `_hexec` names the result, the width and the extension, and `hcongr` says that they are those of
every similar instruction. -/

variable (hm : i.mnemonic ∉ controlMnemonics)
include hm

theorem writeResult_performs (hd : destinations i = [.reg r])
    (_hexec : exec i s = writeResult i.mnemonic i.slots r v s)
    (hcongr : ∀ j s', SameReads s s' → Similar s i j → exec j s' = writeResult j.mnemonic j.slots r v s') :
    Performs s i :=
  fallThrough_performs (.result r v hd) (not_leaves s hm) hcongr

theorem writeTwo_performs {w : Word} (hd : destinations i = [.reg r, .reg q])
    (_hexec : exec i s = writeTwo i.mnemonic i.slots r q v w s)
    (hcongr : ∀ j s', SameReads s s' → Similar s i j → exec j s' = writeTwo j.mnemonic j.slots r q v w s') :
    Performs s i :=
  fallThrough_performs (.results r q v w hd) (not_leaves s hm) hcongr

theorem loadStorage_performs (hd : destinations i = [.reg r]) (ha : i.slots[1]? = some a)
    (hw : (i.mnemonic, n) ∈ loadWidths)
    (hcongr : ∀ j s', SameReads s s' → Similar s i j →
      exec j s' = loadStorage j.mnemonic j.slots n ext r (s.value a) s') : Performs s i := by
  by_cases hadmitted : Admitted s (s.value a) n
  · refine fallThrough_performs (.result r (ext (s.memRead (s.value a) n)) hd) (not_leaves s hm)
      fun j s' hreads hj => ?_
    rw [hcongr j s' hreads hj, loadStorage_of_admitted (hreads.admitted.mpr hadmitted), hreads.memRead]
    rfl
  · refine faultNow_performs (.load a n ha hw hadmitted) fun j s' hreads hj => ?_
    rw [hcongr j s' hreads hj, loadStorage_of_not_admitted (mt hreads.admitted.mp hadmitted)]

theorem storeStorage_performs (ha : i.slots[0]? = some a) (hw : (i.mnemonic, n) ∈ storeWidths)
    (hcongr : ∀ j s', SameReads s s' → Similar s i j →
      exec j s' = storeStorage j.mnemonic j.slots n (s.value a) v s') : Performs s i := by
  by_cases hadmitted : Admitted s (s.value a) n
  · refine fallThrough_performs (.store (s.value a) n v hw hadmitted) (not_leaves s hm) fun j s' hreads hj => ?_
    rw [hcongr j s' hreads hj, storeStorage_of_admitted (hreads.admitted.mpr hadmitted)]
    rfl
  · refine faultNow_performs (.store a n ha hw hadmitted) fun j s' hreads hj => ?_
    rw [hcongr j s' hreads hj, storeStorage_of_not_admitted (mt hreads.admitted.mp hadmitted)]

theorem loadNarrow_performs (hd : destinations i = [.reg r]) (ha : i.slots[1]? = some a)
    (hw : (i.mnemonic, n) ∈ loadWidths) (_hexec : exec i s = loadNarrow i.mnemonic i.slots n ext r (s.value a) s)
    (hcongr : ∀ j s', SameReads s s' → Similar s i j →
      exec j s' = loadNarrow j.mnemonic j.slots n ext r (s.value a) s') : Performs s i := by
  refine loadStorage_performs hm hd ha hw (ext := ext) fun j s' hreads hj => ?_
  rw [hcongr j s' hreads hj, loadNarrow_eq_loadStorage (loadWidths_pos _ hw)]

theorem storeNarrow_performs (ha : i.slots[0]? = some a) (hw : (i.mnemonic, n) ∈ storeWidths)
    (_hexec : exec i s = storeNarrow i.mnemonic i.slots n (s.value a) v s)
    (hcongr : ∀ j s', SameReads s s' → Similar s i j →
      exec j s' = storeNarrow j.mnemonic j.slots n (s.value a) v s') : Performs s i := by
  refine storeStorage_performs hm ha hw (v := v) fun j s' hreads hj => ?_
  rw [hcongr j s' hreads hj, storeNarrow_eq_storeStorage (storeWidths_pos _ hw)]

end

theorem leaves_jz_iff {l a u2 u3 u4 : Operand} {s : State} : Leaves (.jz l a u2 u3 u4) s ↔ s.value a = 0 := by
  simp [Leaves, JumpsOrHalts, Instr.mnemonic, Instr.slots]

theorem leaves_jnz_iff {l a u2 u3 u4 : Operand} {s : State} : Leaves (.jnz l a u2 u3 u4) s ↔ s.value a ≠ 0 := by
  simp [Leaves, JumpsOrHalts, Instr.mnemonic, Instr.slots]

/-! ## Instruction by instruction -/

section
variable {s : State}

theorem div_performs (r q : Reg) (a b u4 : Operand) : Performs s (.div r q a b u4) := by
  have hm : (Instr.div r q a b u4).mnemonic ∉ controlMnemonics := by simp [controlMnemonics, Instr.mnemonic]
  by_cases hzero : s.value b = 0
  · refine faultNow_performs (.zeroDivisor b (by simp [Instr.mnemonic]) rfl hzero) fun j s' hreads hj => ?_
    obtain ⟨a', b', u4', hbuild, -, hb⟩ := (hj.sameOperands rfl).twoDests_twoSources rfl rfl rfl
    obtain rfl := Except.ok.inj hbuild
    exact exec_div_of_eq_zero (by rw [hreads.value, hb, hzero])
  · refine writeTwo_performs hm rfl (exec_div_of_ne_zero hzero) fun j s' hreads hj => ?_
    obtain ⟨a', b', u4', hbuild, ha, hb⟩ := (hj.sameOperands rfl).twoDests_twoSources rfl rfl rfl
    obtain rfl := Except.ok.inj hbuild
    rw [exec_div_of_ne_zero (by rwa [hreads.value, hb]), hreads.value, hreads.value, ha, hb]
    rfl

theorem divu_performs (r q : Reg) (a b u4 : Operand) : Performs s (.divu r q a b u4) := by
  have hm : (Instr.divu r q a b u4).mnemonic ∉ controlMnemonics := by simp [controlMnemonics, Instr.mnemonic]
  by_cases hzero : s.value b = 0
  · refine faultNow_performs (.zeroDivisor b (by simp [Instr.mnemonic]) rfl hzero) fun j s' hreads hj => ?_
    obtain ⟨a', b', u4', hbuild, -, hb⟩ := (hj.sameOperands rfl).twoDests_twoSources rfl rfl rfl
    obtain rfl := Except.ok.inj hbuild
    exact exec_divu_of_eq_zero (by rw [hreads.value, hb, hzero])
  · refine writeTwo_performs hm rfl (exec_divu_of_ne_zero hzero) fun j s' hreads hj => ?_
    obtain ⟨a', b', u4', hbuild, ha, hb⟩ := (hj.sameOperands rfl).twoDests_twoSources rfl rfl rfl
    obtain rfl := Except.ok.inj hbuild
    rw [exec_divu_of_ne_zero (by rwa [hreads.value, hb]), hreads.value, hreads.value, ha, hb]
    rfl

theorem lw_performs (r : Reg) (a u2 u3 u4 : Operand) : Performs s (.lw r a u2 u3 u4) := by
  have hm : (Instr.lw r a u2 u3 u4).mnemonic ∉ controlMnemonics := by simp [controlMnemonics, Instr.mnemonic]
  by_cases hio : s.value a = ioAddr
  · refine fallThrough_performs (.input a r (answerWord s.nextAnswer) rfl rfl rfl hio) (not_leaves s hm)
      fun j s' hreads hj => ?_
    obtain ⟨a', u2', u3', u4', hbuild, ha⟩ := (hj.sameOperands rfl).oneDest_oneSource rfl rfl rfl
    obtain rfl := Except.ok.inj hbuild
    rw [exec_lw_ioAddr (by rw [hreads.value, ha, hio]), hreads.nextAnswer]
    rfl
  · refine loadStorage_performs (n := 8) (ext := id) hm rfl rfl (by simp [loadWidths, Instr.mnemonic])
      fun j s' hreads hj => ?_
    obtain ⟨a', u2', u3', u4', hbuild, ha⟩ := (hj.sameOperands rfl).oneDest_oneSource rfl rfl rfl
    obtain rfl := Except.ok.inj hbuild
    rw [exec_lw_of_ne_ioAddr (by rwa [hreads.value, ha]), hreads.value, ha]
    rfl

theorem sw_performs (a b u2 u3 u4 : Operand) : Performs s (.sw a b u2 u3 u4) := by
  have hm : (Instr.sw a b u2 u3 u4).mnemonic ∉ controlMnemonics := by simp [controlMnemonics, Instr.mnemonic]
  by_cases hio : s.value a = ioAddr
  · refine fallThrough_performs (.output a b rfl rfl rfl hio) (not_leaves s hm) fun j s' hreads hj => ?_
    obtain ⟨a', b', u2', u3', u4', hbuild, ha, hb⟩ := (hj.sameOperands rfl).twoSources rfl rfl rfl
    obtain rfl := Except.ok.inj hbuild
    rw [exec_sw_ioAddr (by rw [hreads.value, ha, hio]), hreads.value, hb]
    rfl
  · refine storeStorage_performs (n := 8) (v := s.value b) hm rfl (by simp [storeWidths, Instr.mnemonic])
      fun j s' hreads hj => ?_
    obtain ⟨a', b', u2', u3', u4', hbuild, ha, hb⟩ := (hj.sameOperands rfl).twoSources rfl rfl rfl
    obtain rfl := Except.ok.inj hbuild
    rw [exec_sw_of_ne_ioAddr (by rwa [hreads.value, ha]), hreads.value, hreads.value, ha, hb]
    rfl

theorem jz_performs (l a u2 u3 u4 : Operand) : Performs s (.jz l a u2 u3 u4) := by
  have hnothing : OwnWrite s (.jz l a u2 u3 u4) .nothing := .nothing (by simp [Instr.mnemonic])
  by_cases hzero : s.value a = 0
  · refine jumpTo_performs (target := s.value l) hnothing (leaves_jz_iff.mpr hzero) fun j s' hreads hj => ?_
    obtain ⟨l', a', u2', u3', u4', hbuild, hl, ha⟩ := (hj.sameOperands rfl).twoSources rfl rfl rfl
    obtain rfl := Except.ok.inj hbuild
    simp only [exec, execJz, isZero_iff, hreads.value, hl, ha, if_pos hzero]
    rfl
  · refine fallThrough_performs hnothing (mt leaves_jz_iff.mp hzero) fun j s' hreads hj => ?_
    obtain ⟨l', a', u2', u3', u4', hbuild, -, ha⟩ := (hj.sameOperands rfl).twoSources rfl rfl rfl
    obtain rfl := Except.ok.inj hbuild
    simp only [exec, execJz, isZero_iff, hreads.value, ha, if_neg hzero]
    rfl

theorem jnz_performs (l a u2 u3 u4 : Operand) : Performs s (.jnz l a u2 u3 u4) := by
  have hnothing : OwnWrite s (.jnz l a u2 u3 u4) .nothing := .nothing (by simp [Instr.mnemonic])
  by_cases hzero : s.value a = 0
  · refine fallThrough_performs hnothing (fun h => leaves_jnz_iff.mp h hzero) fun j s' hreads hj => ?_
    obtain ⟨l', a', u2', u3', u4', hbuild, -, ha⟩ := (hj.sameOperands rfl).twoSources rfl rfl rfl
    obtain rfl := Except.ok.inj hbuild
    simp only [exec, execJnz, isZero_iff, hreads.value, ha, if_pos hzero]
    rfl
  · refine jumpTo_performs (target := s.value l) hnothing (leaves_jnz_iff.mpr hzero) fun j s' hreads hj => ?_
    obtain ⟨l', a', u2', u3', u4', hbuild, hl, ha⟩ := (hj.sameOperands rfl).twoSources rfl rfl rfl
    obtain rfl := Except.ok.inj hbuild
    simp only [exec, execJnz, isZero_iff, hreads.value, hl, ha, if_neg hzero]
    rfl

theorem ret_performs (mask : BitVec 25) : Performs s (.ret mask) := by
  have hself : ∀ j, Similar s (.ret mask) j → j = .ret mask := by
    rintro j (h | ⟨op, hop, -⟩)
    · exact h
    · cases hop
  cases hstack : s.callStack with
  | nil =>
    refine faultNow_performs (.emptyStack rfl hstack) fun j s' hreads hj => ?_
    rw [hself j hj, exec_ret_of_nil (hreads.callStack.trans hstack)]
  | cons frame rest =>
    refine jumpTo_performs (target := frame.retAddr) (.pop mask frame rest rfl hstack) (.inl rfl)
      fun j s' hreads hj => ?_
    rw [hself j hj, exec_ret_of_cons (hreads.callStack.trans hstack)]
    rfl
end

/-- Every instruction performs an action of its kind. -/
theorem exec_performs (i : Instr) (s : State) : Performs s i := by
  cases i with
  | add r a b u3 u4 | sub r a b u3 u4 | or r a b u3 u4 | xor r a b u3 u4 | and r a b u3 u4 | cmp r a b u3 u4
  | neq r a b u3 u4 | le r a b u3 u4 | leq r a b u3 u4 | leu r a b u3 u4 | lequ r a b u3 u4 | shl r a b u3 u4
  | shr r a b u3 u4 | sar r a b u3 u4 =>
    refine writeResult_performs (by simp [controlMnemonics, Instr.mnemonic]) rfl rfl fun j s' hreads hj => ?_
    obtain ⟨a', b', u3', u4', hbuild, ha, hb⟩ := (hj.sameOperands rfl).oneDest_twoSources rfl rfl rfl
    obtain rfl := Except.ok.inj hbuild
    simp only [exec, execAdd, execSub, execOr, execXor, execAnd, execCmp, execNeq, execLe, execLeq, execLeu,
      execLequ, execShl, execShr, execSar, hreads.value, ha, hb]
    rfl
  | not r a u2 u3 u4 =>
    refine writeResult_performs (by simp [controlMnemonics, Instr.mnemonic]) rfl rfl fun j s' hreads hj => ?_
    obtain ⟨a', u2', u3', u4', hbuild, ha⟩ := (hj.sameOperands rfl).oneDest_oneSource rfl rfl rfl
    obtain rfl := Except.ok.inj hbuild
    simp only [exec, execNot, hreads.value, ha]
    rfl
  | mul r q a b u4 | mulu r q a b u4 =>
    refine writeTwo_performs (by simp [controlMnemonics, Instr.mnemonic]) rfl rfl fun j s' hreads hj => ?_
    obtain ⟨a', b', u4', hbuild, ha, hb⟩ := (hj.sameOperands rfl).twoDests_twoSources rfl rfl rfl
    obtain rfl := Except.ok.inj hbuild
    simp only [exec, execMul, execMulu, hreads.value, ha, hb]
    rfl
  | div r q a b u4 => exact div_performs r q a b u4
  | divu r q a b u4 => exact divu_performs r q a b u4
  | lb r a u2 u3 u4 | lbu r a u2 u3 u4 | ls r a u2 u3 u4 | lsu r a u2 u3 u4 | li r a u2 u3 u4 | liu r a u2 u3 u4 =>
    refine loadNarrow_performs (by simp [controlMnemonics, Instr.mnemonic]) rfl rfl
      (by simp [loadWidths, Instr.mnemonic]) rfl fun j s' hreads hj => ?_
    obtain ⟨a', u2', u3', u4', hbuild, ha⟩ := (hj.sameOperands rfl).oneDest_oneSource rfl rfl rfl
    obtain rfl := Except.ok.inj hbuild
    simp only [exec, execLb, execLbu, execLs, execLsu, execLi, execLiu, hreads.value, ha]
    rfl
  | lw r a u2 u3 u4 => exact lw_performs r a u2 u3 u4
  | sb a b u2 u3 u4 | ss a b u2 u3 u4 | si a b u2 u3 u4 =>
    refine storeNarrow_performs (by simp [controlMnemonics, Instr.mnemonic]) rfl (by simp [storeWidths, Instr.mnemonic])
      rfl fun j s' hreads hj => ?_
    obtain ⟨a', b', u2', u3', u4', hbuild, ha, hb⟩ := (hj.sameOperands rfl).twoSources rfl rfl rfl
    obtain rfl := Except.ok.inj hbuild
    simp only [exec, execSb, execSs, execSi, hreads.value, ha, hb]
    rfl
  | sw a b u2 u3 u4 => exact sw_performs a b u2 u3 u4
  | call f u1 u2 u3 u4 =>
    refine jumpTo_performs (target := s.value f) (.push rfl) (.inr ⟨.call, rfl, .inl rfl⟩) fun j s' hreads hj => ?_
    obtain ⟨f', u1', u2', u3', u4', hbuild, hf⟩ := (hj.sameOperands rfl).oneSource rfl rfl rfl
    obtain rfl := Except.ok.inj hbuild
    simp only [exec, execCall, hreads.value, hf]
    rfl
  | jz l a u2 u3 u4 => exact jz_performs l a u2 u3 u4
  | jnz l a u2 u3 u4 => exact jnz_performs l a u2 u3 u4
  | halt a u1 u2 u3 u4 =>
    refine jumpTo_performs (target := s.pc) (.halt (s.value a) rfl) (.inr ⟨.halt, rfl, .inr (.inl rfl)⟩)
      fun j s' hreads hj => ?_
    obtain ⟨a', u1', u2', u3', u4', hbuild, ha⟩ := (hj.sameOperands rfl).oneSource rfl rfl rfl
    obtain rfl := Except.ok.inj hbuild
    simp only [exec, execHalt, hreads.value, hreads.pc, ha]
    rfl
  | rand r u1 u2 u3 u4 =>
    refine fallThrough_performs (.draw r s.nextRand rfl)
      (not_leaves s (by simp [controlMnemonics, Instr.mnemonic])) fun j s' hreads hj => ?_
    obtain ⟨u1', u2', u3', u4', hbuild⟩ := (hj.sameOperands rfl).oneDest rfl rfl
    obtain rfl := Except.ok.inj hbuild
    simp only [exec, execRand, hreads.nextRand]
    rfl
  | ret mask => exact ret_performs mask

end Sys2Proof.Machine

/-! The whole-machine statements that follow from every instruction's action. -/

namespace Sys2Proof.Machine

open Sys2Proof.Spec

section
variable {s t : State} {i : Instr} {w : Write}

/-- What an instruction answers: the fault of a cause, or a commit of its own write. -/
theorem exec_answers (h : exec i s = .next t) :
    (∃ kind addr, FaultCause s i kind addr ∧ t = s.raise kind addr) ∨
      ∃ w nextPc, OwnWrite s i w ∧ t = (w.apply (s.pcAfter i.slots) s).commit i.mnemonic i.slots nextPc s := by
  obtain ⟨act, hacts, hrun⟩ := exec_performs i s
  rw [hrun i s (.refl s) (.self rfl)] at h
  cases hacts with
  | fault kind addr hcause => exact .inl ⟨kind, addr, hcause, Action.run_fault_next.mp h⟩
  | commit w target hw => exact .inr ⟨w, _, hw, Action.run_commit_next.mp h⟩

/-! ## What a write leaves unchanged -/

theorem OwnWrite.sameMemory (h : OwnWrite s i w) (hm : i.mnemonic ∉ [.std .sb, .std .ss, .std .si, .std .sw])
    (retAddr : Word) : SameMemory s (w.apply retAddr s) := by
  intro x
  cases h with
  | store addr n v hw =>
    refine absurd ?_ hm
    exact List.mem_map_of_mem (f := Prod.fst) hw
  | pop mask frame rest => exact State.popFrame_readByte ..
  | _ => rfl

theorem OwnWrite.inpos_eq (h : OwnWrite s i w) (retAddr : Word) : (w.apply retAddr s).inpos = s.inpos ∨
    (w.apply retAddr s).inpos = s.inpos + 1 ∧ i.mnemonic = .std .lw ∧
      ∃ a, i.slots[1]? = some a ∧ s.value a = ioAddr := by
  cases h with
  | input a r v hm hd hslot hio => exact .inr ⟨rfl, hm, a, hslot, hio⟩
  | pop mask frame rest => exact .inl (State.popFrame_inpos ..)
  | _ => exact .inl rfl

theorem OwnWrite.out_eq (h : OwnWrite s i w) (retAddr : Word) : (w.apply retAddr s).out = s.out ∨
    i.mnemonic = .std .sw ∧ (∃ a, i.slots[0]? = some a ∧ s.value a = ioAddr) ∧
      ∃ b, i.slots[1]? = some b ∧ (w.apply retAddr s).out = s.out ++ [(s.value b).setWidth 8] := by
  cases h with
  | output a b hm ha hb hio => exact .inr ⟨hm, ⟨a, ha, hio⟩, b, hb, rfl⟩
  | pop mask frame rest => exact .inl (State.popFrame_out ..)
  | _ => exact .inl rfl

theorem OwnWrite.callStack_eq (h : OwnWrite s i w) (hm : i.mnemonic ∉ [.std .call, .ret]) (retAddr : Word) :
    (w.apply retAddr s).callStack = s.callStack := by
  cases h with
  | push hcall => exact absurd (by simp [hcall]) hm
  | pop mask frame rest hret => exact absurd (by simp [hret]) hm
  | _ => rfl

theorem OwnWrite.reg_eq (h : OwnWrite s i w) {op : StdOp} (hm : i.mnemonic = .std op) {x : Reg}
    (hx : .reg x ∉ i.slots.take (destCount op)) (retAddr : Word) : (w.apply retAddr s).reg x = s.reg x := by
  have hdestinations : destinations i = i.slots.take (destCount op) := by rw [destinations, hm]
  rw [← hdestinations] at hx
  cases h with
  | result r v hd | input a r v _ hd | draw r v hd =>
    rw [hd, List.mem_singleton, Operand.reg.injEq] at hx
    exact State.setReg_reg_other _ v hx
  | results r q v w hd =>
    rw [hd, List.mem_cons, List.mem_singleton, Operand.reg.injEq, Operand.reg.injEq, not_or] at hx
    exact (State.setReg_reg_other _ w hx.2).trans (State.setReg_reg_other s v hx.1)
  | pop mask frame rest hret => rw [hret] at hm; cases hm
  | _ => rfl

/-! ## Calls and returns -/

theorem exec_call_stack (hm : i.mnemonic = .std .call) (h : exec i s = .next t) :
    t.callStack.tail = s.callStack ∧ t.callStack.length = s.callStack.length + 1 ∧ t.reg 25 = s.reg 25 := by
  cases i with
  | call f u1 u2 u3 u4 =>
    obtain rfl := exec_call_next.mp h
    exact ⟨rfl, rfl, rfl⟩
  | _ => cases hm

theorem exec_ret_stack (hm : i.mnemonic = .ret) (h : exec i s = .next t) :
    t.callStack = s.callStack.tail ∧ t.reg 25 = s.reg 25 := by
  cases i with
  | ret mask =>
    cases hstack : s.callStack with
    | nil =>
      obtain rfl := faultNow_next.mp ((exec_ret_of_nil hstack).symm.trans h)
      exact ⟨hstack, rfl⟩
    | cons frame rest =>
      obtain rfl := Host.Outcome.next.inj ((exec_ret_of_cons hstack).symm.trans h)
      rw [State.commit_callStack, State.popFrame_callStack, State.commit_reg, popFrame_regZ]
      exact ⟨rfl, rfl⟩
  | _ => cases hm

/-! ## Similar instructions -/

theorem leaves_iff {op : StdOp} (hm : i.mnemonic = .std op) : Leaves i s ↔ JumpsOrHalts i op s := by
  simp [Leaves, hm]

/-- A pushed frame is all that a write's return address changes. -/
theorem Write.apply_eq_withStack (w : Write) (ra ra' : Word) (s : State) :
    w.apply ra' s = { w.apply ra s with callStack := (w.apply ra' s).callStack } := by
  cases w with
  | pop mask frame rest => simp only [apply, State.popFrame]
  | _ => rfl

theorem OwnWrite.callStack_congr (h : OwnWrite s i w) (hm : i.mnemonic ≠ .std .call) (ra ra' : Word) :
    (w.apply ra s).callStack = (w.apply ra' s).callStack := by
  cases h with
  | push hcall => exact absurd hcall hm
  | _ => rfl

theorem FaultCause.ne_call {kind : FaultKind} {addr : Option Word} (h : FaultCause s i kind addr) :
    i.mnemonic ≠ .std .call := by
  intro hcall
  cases h with
  | zeroDivisor _ hm | emptyStack hm => rw [hcall] at hm; simp at hm
  | load _ _ _ hm => rw [hcall] at hm; simp [loadWidths] at hm
  | store _ _ _ hm => rw [hcall] at hm; simp [storeWidths] at hm

/-- R421: the trace records of two instructions of one mnemonic agree but for the operand values. -/
theorem tracedAlike_commit {after after' : State} (htrace : after'.trace = after.trace) (m : Mnemonic)
    (slots slots' : List Operand) (nextPc nextPc' : Word) (s : State) :
    TracedAlike (after.commit m slots nextPc s) (after'.commit m slots' nextPc' s) := by
  simp only [TracedAlike, State.commit_trace, htrace, List.map_append, List.map_cons, List.map_nil, State.record]

theorem OwnWrite.eq_push (h : OwnWrite s i w) (hm : i.mnemonic = .std .call) : w = .push := by
  have hnil : destinations i = [] := by rw [destinations, hm]; rfl
  cases h with
  | push => rfl
  | nothing h | halt _ h | output _ _ h | pop _ _ _ h => rw [hm] at h; simp at h
  | store _ _ _ h => rw [hm] at h; simp [storeWidths] at h
  | result _ _ hd | results _ _ _ _ hd | input _ _ _ _ hd | draw _ _ hd => rw [hnil] at hd; cases hd

/-! ## Other counters and another trace -/

/-- The state with its counters and its trace replaced. -/
def State.withCounters (s : State) (cycles icount : Nat) (trace : List TraceRecord) : State :=
  { s with cycles := cycles, icount := icount, trace := trace }

theorem sameReads_withCounters (s : State) (cycles icount : Nat) (trace : List TraceRecord) :
    SameReads s (s.withCounters cycles icount trace) := ⟨rfl, rfl, rfl, rfl, rfl, rfl, rfl, rfl⟩

theorem Write.apply_withCounters (w : Write) (ra : Word) (s : State) (cycles icount : Nat)
    (trace : List TraceRecord) :
    w.apply ra (s.withCounters cycles icount trace) = (w.apply ra s).withCounters cycles icount trace := by
  cases w with
  | pop mask frame rest => simp only [apply, State.popFrame, State.withCounters]
  | _ => rfl

/-- A step that answers a next state executed the instruction fetched, or raised the one fault of a fetch, which is the
same in every state with the same fetch. -/
theorem step_next_iff : step s = .next t ↔ s.run = .running ∧
    ((∃ i, s.fetch = .ok i ∧ exec i s = .next t) ∨
      (s.fetch = .error .shortHeader ∨ s.fetch = .error .shortImmediates) ∧
        t = s.raise .outOfBoundsExecution none) := by
  constructor
  · intro h
    obtain ⟨hrun, -⟩ := step_cases h
    refine ⟨hrun, ?_⟩
    cases hfetch : s.fetch with
    | ok i =>
      rw [step_of_fetch_ok hrun hfetch] at h
      exact .inl ⟨i, rfl, h⟩
    | error e =>
      rw [step_of_fetch_error hrun hfetch] at h
      cases e with
      | shortHeader => exact .inr ⟨.inl rfl, faultNow_next.mp h⟩
      | shortImmediates => exact .inr ⟨.inr rfl, faultNow_next.mp h⟩
      | undefinedOpcode | undefinedKindCode | immediateDestination => cases h
  · rintro ⟨hrun, ⟨i, hfetch, h⟩ | ⟨hfetch | hfetch, rfl⟩⟩
    · rw [step_of_fetch_ok hrun hfetch, h]
    · rw [step_of_fetch_error hrun hfetch]; rfl
    · rw [step_of_fetch_error hrun hfetch]; rfl

end

end Sys2Proof.Machine

namespace Sys2Proof.Proofs

open Sys2Proof.Machine Sys2Proof.Spec

/-- Settles O44: a fault has one of the causes of an action, and a commit of a running engine does not fault. -/
theorem onlyTheListedCausesFault : Obligations.OnlyTheListedCausesFault := by
  unfold Obligations.OnlyTheListedCausesFault
  intro i s t kind hrun hexec ht
  obtain ⟨kind', addr, hcause, rfl⟩ | ⟨w, nextPc, hw, rfl⟩ := exec_answers hexec
  · obtain rfl : kind' = kind := RunState.faulted.inj ht
    cases hcause with
    | zeroDivisor b hm hslot hzero => exact .inl ⟨rfl, hm, b, hslot, hzero⟩
    | emptyStack hm hstack => exact .inr (.inl ⟨rfl, hm, hstack⟩)
    | load a n hslot hm h => exact .inr (.inr ⟨rfl, a, n, ⟨_, rfl, rfl⟩, h, .inl ⟨hslot, hm⟩⟩)
    | store a n hslot hm h => exact .inr (.inr ⟨rfl, a, n, ⟨_, rfl, rfl⟩, h, .inr ⟨hslot, hm⟩⟩)
  · exact absurd ht ((hw.writes _).run_ne_faulted hrun kind)

/-- Settles O47: of the writes, only a store's is to data memory. -/
theorem onlyStoresChangeDataMemory : Obligations.OnlyStoresChangeDataMemory := by
  unfold Obligations.OnlyStoresChangeDataMemory
  intro i s t hexec hm
  obtain ⟨kind, addr, -, rfl⟩ | ⟨w, nextPc, hw, rfl⟩ := exec_answers hexec
  · exact fun x => State.raise_readByte ..
  · exact fun x => (State.commit_readByte ..).trans (hw.sameMemory hm _ x)

/-- Settles O48: of the writes, only an input's moves the position and only an output's appends. -/
theorem onlyIoCellAccessesTouchTheStreams : Obligations.OnlyIoCellAccessesTouchTheStreams := by
  unfold Obligations.OnlyIoCellAccessesTouchTheStreams
  intro i s t hexec
  obtain ⟨kind, addr, -, rfl⟩ | ⟨w, nextPc, hw, rfl⟩ := exec_answers hexec
  · exact ⟨.inl (State.raise_inpos ..), .inl (State.raise_out ..)⟩
  · exact ⟨hw.inpos_eq _, hw.out_eq _⟩

/-- Settles O49: only a push and a pop touch the call stack, and neither writes `z`. -/
theorem onlyCallAndRetTouchTheCallStack : Obligations.OnlyCallAndRetTouchTheCallStack := by
  unfold Obligations.OnlyCallAndRetTouchTheCallStack
  intro i s t hexec
  refine ⟨fun hm => ?others, fun hm => exec_call_stack hm hexec, fun hm => exec_ret_stack hm hexec⟩
  case others =>
    obtain ⟨kind, addr, -, rfl⟩ | ⟨w, nextPc, hw, rfl⟩ := exec_answers hexec
    · exact State.raise_callStack ..
    · exact hw.callStack_eq hm _

/-- Settles O50: each write to a register is to one that a destination slot names. -/
theorem onlyDestinationRegistersChange : Obligations.OnlyDestinationRegistersChange := by
  unfold Obligations.OnlyDestinationRegistersChange
  intro i op s t hexec hm x hx
  obtain ⟨kind, addr, -, rfl⟩ | ⟨w, nextPc, hw, rfl⟩ := exec_answers hexec
  · exact State.raise_reg ..
  · exact (State.commit_reg ..).trans (hw.reg_eq hm hx _)

/-- Settles O51: the two perform one action, whose writes, fault or target do not depend on the slots; what does is the
address after each instruction and its trace record. -/
theorem widthsAndUnusedSlotsChangeOnlyTheLength : Obligations.WidthsAndUnusedSlotsChangeOnlyTheLength := by
  unfold Obligations.WidthsAndUnusedSlotsChangeOnlyTheLength
  intro i j op s t t' hi hj hdests hsources hexec hexec'
  obtain ⟨act, hacts, hrun⟩ := exec_performs i s
  rw [hrun i s (.refl s) (.self rfl)] at hexec
  rw [hrun j s (.refl s) (.operands op hi ⟨hj, hdests.symm, hsources.symm⟩)] at hexec'
  cases hacts with
  | fault kind addr hcause =>
    obtain rfl := Action.run_fault_next.mp hexec
    obtain rfl := Action.run_fault_next.mp hexec'
    exact ⟨rfl, rfl, rfl, rfl, rfl, rfl, rfl, rfl, rfl, ⟨rfl, rfl, rfl⟩, rfl, fun _ => rfl,
      fun _ => .inl ⟨⟨kind, rfl⟩, rfl, rfl⟩, fun _ => rfl, fun hcall => absurd (hcall ▸ hi) hcause.ne_call⟩
  | commit w target hw htarget =>
    rw [leaves_iff hi] at htarget
    rw [hi] at hexec
    rw [hj] at hexec'
    obtain rfl := Action.run_commit_next.mp hexec
    obtain rfl := Action.run_commit_next.mp hexec'
    rw [w.apply_eq_withStack (s.pcAfter i.slots) (s.pcAfter j.slots)]
    refine ⟨rfl, rfl, rfl, rfl, rfl, rfl, rfl, rfl, rfl, ⟨rfl, rfl, rfl⟩, tracedAlike_commit (by rfl) ..,
      ?jumps, ?goesOn, ?sameStack, ?callFrames⟩
    case jumps =>
      intro hjumps
      obtain ⟨target, rfl⟩ := Option.isSome_iff_exists.mp (htarget.mpr hjumps)
      rfl
    case goesOn =>
      intro hline
      obtain rfl := Option.not_isSome_iff_eq_none.mp (mt htarget.mp hline)
      exact .inr ⟨rfl, rfl⟩
    case sameStack =>
      intro hop
      exact hw.callStack_congr (hi ▸ fun h => hop (Mnemonic.std.inj h)) ..
    case callFrames =>
      rintro rfl
      obtain rfl := hw.eq_push hi
      exact ⟨s.snapshot, rfl, rfl⟩

/-- Settles O52: the action of an instruction does not depend on them, and its writes leave them alone. -/
theorem countersAndTraceNeverInfluenceExecution : Obligations.CountersAndTraceNeverInfluenceExecution := by
  unfold Obligations.CountersAndTraceNeverInfluenceExecution
  intro s t cycles icount trace hstep
  obtain ⟨hrun, ⟨i, hfetch, hexec⟩ | ⟨hfetch, rfl⟩⟩ := step_next_iff.mp hstep
  · obtain ⟨act, hacts, hperforms⟩ := exec_performs i s
    have hother := hperforms i _ (sameReads_withCounters s cycles icount trace) (.self rfl)
    rw [hperforms i s (.refl s) (.self rfl)] at hexec
    cases hacts with
    | fault kind addr =>
      obtain rfl := Action.run_fault_next.mp hexec
      refine ⟨_, step_next_iff.mpr ⟨hrun, .inl ⟨i, hfetch, hother.trans (Action.run_fault_next.mpr rfl)⟩⟩, rfl, rfl,
        rfl, rfl, rfl, rfl, rfl, rfl, ⟨rfl, rfl, rfl⟩, rfl, Nat.add_comm .., Nat.add_comm ..⟩
    | commit w target hw =>
      obtain rfl := Action.run_commit_next.mp hexec
      obtain ⟨-, hcycles, hicount, -, -⟩ := (hw.writes (s.pcAfter i.slots)).bookkeeping_eq
      refine ⟨_, step_next_iff.mpr ⟨hrun, .inl ⟨i, hfetch, hother.trans (Action.run_commit_next.mpr rfl)⟩⟩, ?_⟩
      rw [Write.apply_withCounters]
      refine ⟨rfl, rfl, rfl, rfl, rfl, rfl, rfl, rfl, ⟨rfl, rfl, rfl⟩, rfl, ?addedCycles, ?addedCount⟩
      case addedCycles =>
        rw [State.commit_cycles, State.commit_cycles, hcycles]
        change cycles + _ + _ = _
        omega
      case addedCount =>
        rw [State.commit_icount, State.commit_icount, hicount]
        change icount + _ + _ = _
        omega
  · exact ⟨_, step_next_iff.mpr ⟨hrun, .inr ⟨hfetch, rfl⟩⟩, rfl, rfl, rfl, rfl, rfl, rfl, rfl, rfl, ⟨rfl, rfl, rfl⟩,
      rfl, Nat.add_comm .., Nat.add_comm ..⟩

end Sys2Proof.Proofs

/-! The pseudo-instructions and the assembler's choices (30_encoding.md §6). -/

namespace Sys2Proof.Machine

open Sys2Proof.Spec

/-! ## Runs of one instruction -/

section
variable {i : Instr} {is : List Instr} {s t : State}

theorem runAll_cons_of_next (h : exec i s = .next t) : runAll (i :: is) s = runAll is t := by
  simp only [runAll, h]

theorem runAll_singleton (i : Instr) (s : State) : runAll [i] s = exec i s := by
  unfold runAll
  cases exec i s <;> rfl

@[simp] theorem value_const (s : State) (v : Word) : s.value (const v) = v := rfl

/-- R131, R199: an expansion to one instruction that writes one result computes it. -/
theorem runAll_of_writeResult {r : Reg} {v w : Word} (h : exec i s = writeResult i.mnemonic i.slots r v s)
    (hv : v = w) : ∃ t, runAll [i] s = .next t ∧ t.reg r = w ∧ RegsBut s t [r] := by
  obtain ⟨t, hexec, hresult, -, hregs, -⟩ := completes_of_writeResult h
  exact ⟨t, (runAll_singleton i s).trans hexec, hresult.trans hv, hregs⟩

/-- R239: the same for a comparison. -/
theorem runAll_of_comparison {r : Reg} {p : Prop} [Decidable p]
    (h : exec i s = writeResult i.mnemonic i.slots r (boolWord (decide p)) s) :
    ∃ t, runAll [i] s = .next t ∧ RegsBut s t [r] ∧ (t.reg r).toNat = if p then 1 else 0 := by
  obtain ⟨t, hexec, hresult, -, hregs, -⟩ := comparison_completes h
  exact ⟨t, (runAll_singleton i s).trans hexec, hregs, hresult⟩

end

theorem wrap_add (x y : Word) : wrap (x.toNat + y.toNat) = x + y := by
  rw [wrap, BitVec.ofInt_add, BitVec.ofInt_natCast, BitVec.ofInt_natCast, BitVec.ofNat_toNat, BitVec.ofNat_toNat,
    BitVec.setWidth_eq, BitVec.setWidth_eq]

theorem wrap_sub (x y : Word) : wrap (x.toNat - y.toNat) = x - y := by
  rw [wrap, Int.sub_eq_add_neg, BitVec.ofInt_add, BitVec.ofInt_neg, BitVec.ofInt_natCast, BitVec.ofInt_natCast,
    BitVec.ofNat_toNat, BitVec.ofNat_toNat, BitVec.setWidth_eq, BitVec.setWidth_eq, BitVec.sub_eq_add_neg]

/-! ## push and pop -/

theorem cycles_of_fallThrough {m : Mnemonic} {slots : List Operand} {s after t : State}
    (h : fallThrough m slots s after = .next t) (hafter : after.cycles = s.cycles) :
    t.cycles = s.cycles + cycleCost m := by
  rw [fallThrough_next.mp h, State.commit_cycles, hafter]

/-- R147: the pointer step of `push` and that of `pop` cancel out. -/
theorem runAll_add_sub_eight (p : Reg) (s : State) (is : List Instr) :
    ∃ t, runAll (.add p (.reg p) (const 8) unused unused :: .sub p (.reg p) (const 8) unused unused :: is) s =
        runAll is t ∧
      RegsBut s t [] ∧ SameMemory s t ∧ t.provisioned = s.provisioned ∧
      t.cycles = s.cycles + cycleCost (.std .add) + cycleCost (.std .sub) := by
  obtain ⟨u, hadd, hsum, -, hregs, hmem, -, -, -, ⟨-, hprovisioned, -⟩, -⟩ :=
    completes_of_writeResult (i := .add p (.reg p) (const 8) unused unused) (s := s) rfl
  obtain ⟨t, hsub, hdifference, -, hregs', hmem', -, -, -, ⟨-, hprovisioned', -⟩, -⟩ :=
    completes_of_writeResult (i := .sub p (.reg p) (const 8) unused unused) (s := u) rfl
  refine ⟨t, ?runs, ?regs, fun x => (hmem' x).trans (hmem x), hprovisioned'.trans hprovisioned, ?cost⟩
  case runs => rw [runAll_cons_of_next hadd, runAll_cons_of_next hsub]
  case regs =>
    intro x _
    by_cases hx : x = p
    · rw [hx, hdifference, wrap_sub, State.value_reg, value_const, hsum, wrap_add, State.value_reg, value_const,
        BitVec.add_sub_cancel]
    · rw [hregs' x (by simpa using hx), hregs x (by simpa using hx)]
  case cost => rw [cycles_of_fallThrough hsub rfl, cycles_of_fallThrough hadd rfl]

/-! ## The assembler's widths -/

theorem minimalWidth_fits (v : Word) : (minimalWidth v).fits v = true := by
  unfold minimalWidth
  split_ifs
  case pos h => exact h
  case pos h => exact h
  case pos h => exact h
  case pos h => exact h
  case neg => rfl

theorem minimalWidth_bytes_le {v : Word} {w : ImmWidth} (h : w.fits v = true) :
    (minimalWidth v).bytes ≤ w.bytes := by
  unfold minimalWidth
  cases w with
  | w0 => rw [if_pos h]
  | w1 | w2 | w4 =>
    simp only [h, if_true]
    split_ifs <;> decide
  | w8 => split_ifs <;> decide

/-! ## The mask of `ret` -/

/-- The sum of the powers of two below 2^n whose exponents `p` does not exclude. -/
def maskSum (p : Nat → Bool) (n : Nat) : Nat := ((List.range n).map fun j => if p j then 0 else 2 ^ j).sum

theorem maskSum_succ (p : Nat → Bool) (n : Nat) :
    maskSum p (n + 1) = (if p n then 0 else 2 ^ n) + maskSum p n := by
  rw [maskSum, List.range_succ, List.map_append, List.sum_append, List.map_singleton, List.sum_singleton, Nat.add_comm,
    maskSum]

theorem maskSum_lt (p : Nat → Bool) (n : Nat) : maskSum p n < 2 ^ n := by
  induction n with
  | zero => exact Nat.one_pos
  | succ n ih =>
    rw [maskSum_succ, Nat.pow_succ]
    split <;> omega

theorem testBit_maskSum (p : Nat → Bool) {n j : Nat} (hj : j < n) : (maskSum p n).testBit j = !p j := by
  induction n with
  | zero => omega
  | succ n ih =>
    have hlt := maskSum_lt p n
    rw [maskSum_succ]
    rcases Nat.lt_succ_iff_lt_or_eq.mp hj with hj | rfl
    · cases p n with
      | true => rw [if_pos rfl, Nat.zero_add, ih hj]
      | false => rw [if_neg Bool.false_ne_true, Nat.testBit_two_pow_add_gt hj, ih hj]
    · cases hp : p j with
      | true => rw [if_pos rfl, Nat.zero_add, Nat.testBit_lt_two_pow hlt]; rfl
      | false => rw [if_neg Bool.false_ne_true, Nat.testBit_two_pow_add_eq, Nat.testBit_lt_two_pow hlt]

theorem foldr_add_eq_sum (g : Nat → Nat) (l : List Nat) : l.foldr (fun j acc => acc + g j) 0 = (l.map g).sum := by
  induction l with
  | nil => rfl
  | cons j l ih => rw [List.foldr_cons, ih, List.map_cons, List.sum_cons, Nat.add_comm]

theorem retMask_eq (returned : List (Fin 25)) :
    retMask returned = BitVec.ofNat 25 (maskSum (fun j => returned.any fun r => r.val == j) 25) :=
  congrArg (BitVec.ofNat 25) (foldr_add_eq_sum _ _)

/-- R148: the mask has a 1 exactly for the registers that are not listed. -/
theorem retMask_getLsbD (returned : List (Fin 25)) (j : Fin 25) :
    (retMask returned).getLsbD j.val = decide (j ∉ returned) := by
  have hlisted : (returned.any fun r => r.val == j.val) = decide (j ∈ returned) := by
    rw [Bool.eq_iff_iff]
    simp [Fin.val_inj]
  rw [retMask_eq, BitVec.getLsbD_ofNat, decide_eq_true j.isLt, Bool.true_and, testBit_maskSum _ j.isLt, hlisted,
    decide_not]

end Sys2Proof.Machine

namespace Sys2Proof.Proofs

open Sys2Proof.Machine Sys2Proof.Spec

/-- Settles O57: an expansion to one instruction does what the instruction does on the operands it is given. -/
theorem registerPseudoInstructionsComputeTheirNames : Obligations.RegisterPseudoInstructionsComputeTheirNames := by
  unfold Obligations.RegisterPseudoInstructionsComputeTheirNames
  intro r a b s
  refine ⟨?mov, ?inc, ?dec, ?neg, ?sal, ?ge, ?geq, ?geu, ?gequ, ?jmp⟩
  case mov => exact runAll_of_writeResult (i := .add r a (const 0) unused unused) rfl ((wrap_add _ _).trans (by simp))
  case inc => exact runAll_of_writeResult (i := .add r (.reg r) (const 1) unused unused) rfl (wrap_add _ _)
  case dec => exact runAll_of_writeResult (i := .sub r (.reg r) (const 1) unused unused) rfl (wrap_sub _ _)
  case neg => exact runAll_of_writeResult (i := .sub r (const 0) a unused unused) rfl ((wrap_sub _ _).trans (by simp))
  case sal =>
    obtain ⟨t, hexec, hresult, -, hregs, -⟩ := completes_of_writeResult (i := .shl r a b unused unused) (s := s) rfl
    refine ⟨t, (runAll_singleton _ s).trans hexec, hexec, ?_, hregs⟩
    rw [hresult, byCount_toNat, lsl_toNat, lsr_toNat]
  case ge => exact runAll_of_comparison (i := .le r b a unused unused) rfl
  case geq => exact runAll_of_comparison (i := .leq r b a unused unused) rfl
  case geu => exact runAll_of_comparison (i := .leu r b a unused unused) rfl
  case gequ => exact runAll_of_comparison (i := .lequ r b a unused unused) rfl
  case jmp =>
    obtain ⟨t, hexec, hpc, -, hregs, -⟩ := completes_of_commit_self
      (exec_jz_eq_commit (l := a) (a := const 0) (u2 := unused) (u3 := unused) (u4 := unused) (s := s))
    exact ⟨t, (runAll_singleton _ s).trans hexec, hpc.trans (if_pos rfl), hregs⟩

/-- Settles O58: the store leaves the value at the pointer, the two pointer steps cancel out, and the load reads it. -/
theorem pushThenPopGivesTheValueBack : Obligations.PushThenPopGivesTheValueBack := by
  unfold Obligations.PushThenPopGivesTheValueBack
  intro p r b s hadmitted
  have hstore := exec_sw_of_admitted (a := .reg p) (b := b) (u2 := unused) (u3 := unused) (u4 := unused) hadmitted
  obtain ⟨u, hsw, hbytes, hout, -, hregs, -, -, -, ⟨-, hprovisioned, -⟩, -⟩ :=
    sw_stores (a := .reg p) (b := b) (u2 := unused) (u3 := unused) (u4 := unused) hadmitted
  obtain ⟨v, hsteps, hregs', hmem', hprovisioned', hcycles'⟩ :=
    runAll_add_sub_eight p u [.lw r (.reg p) unused unused unused]
  have hpointer : v.reg p = s.reg p := (hregs' p List.not_mem_nil).trans (hregs p List.not_mem_nil)
  have hkept : Admitted v (v.value (.reg p)) 8 := by
    rw [State.value_reg, hpointer]
    exact admitted_congr hadmitted (hprovisioned'.trans hprovisioned)
  have hbytes' : ∀ k < 8, (v.readByte ((s.reg p).toNat + k)).toNat = (s.value b).toNat / 256 ^ k % 256 :=
    fun k hk => (congrArg BitVec.toNat (hmem' _)).trans (hbytes k hk)
  have hload := exec_lw_of_admitted (r := r) (a := .reg p) (u2 := unused) (u3 := unused) (u4 := unused) hkept
  obtain ⟨t, hlw, hresult, -, hregs'', hmem'', -⟩ :=
    lw_loadsUnsigned (r := r) (a := .reg p) (u2 := unused) (u3 := unused) (u4 := unused) hkept
  refine ⟨t, ?runs, ?value, ?regs, ?bytes, ?cost⟩
  case runs => exact (runAll_cons_of_next hsw).trans (hsteps.trans ((runAll_singleton _ v).trans hlw))
  case value =>
    apply BitVec.eq_of_toNat_eq
    rw [hresult, State.value_reg, hpointer, valueAt_of_bytes hbytes']
    exact Nat.mod_eq_of_lt (s.value b).isLt
  case regs =>
    intro x hx
    rw [hregs'' x hx, hregs' x List.not_mem_nil, hregs x List.not_mem_nil]
  case bytes =>
    intro x hx
    rw [hmem'', hmem', hout x hx]
  case cost =>
    rw [cycles_of_fallThrough (hload.symm.trans hlw) rfl, hcycles', cycles_of_fallThrough (hstore.symm.trans hsw) rfl]
    simp only [Pseudo.cost, Pseudo.expand, List.map_cons, List.map_nil, List.sum_cons, List.sum_nil, Instr.mnemonic]
    omega

/-- Settles O59: the widths are tried from the narrowest on, and the mask is a sum of distinct powers of two. -/
theorem assemblerWidthsAreMinimalAndRetMasksComplement :
    Obligations.AssemblerWidthsAreMinimalAndRetMasksComplement := by
  unfold Obligations.AssemblerWidthsAreMinimalAndRetMasksComplement
  exact ⟨fun v => ⟨minimalWidth_fits v, fun w h => minimalWidth_bytes_le h⟩, retMask_getLsbD⟩

end Sys2Proof.Proofs
